-- ==== Sys2Proof/Word.lean ====
section
/-! DEFINITION. The widths of HTB (00_scope.md R6, R9): every quantity is an unsigned bit vector of fixed width. -/

namespace Sys2Proof

/-- A command word or a response word (`CMD_W`, `RSP_W`). -/
abbrev Word := BitVec 64

/-- Bits 55:0 of a response word (30_encoding.md R93). -/
abbrev Payload := BitVec 56

/-- A byte of either output stream (10_state.md R45). -/
abbrev Byte := BitVec 8

/-- A symbol code (`SYM_W`, 10_state.md R24). -/
abbrev Sym := BitVec 9

/-- A node index or FT length (`IDX_W`). -/
abbrev Index := BitVec 10

/-- A count of the frequency table (`CNT_W`). -/
abbrev Count := BitVec 32

/-- A node weight (`WT_W`). -/
abbrev Weight := BitVec 41

/-- A session counter (`BC_W`), which wraps (43_encoder.md R199, 44_decoder.md R229). -/
abbrev Counter := BitVec 48

end Sys2Proof
end

