-- ==== Sys2Proof/Syntax.lean ====
section
/-! DEFINITION. The 19 commands of 30_encoding.md R96. An operand is the unsigned number of its field (R95). -/

namespace Sys2Proof

/-- One constructor per row of the opcode map; the operands are `sel`, `a`, `d` in that order, only those the
command's format uses (30_encoding.md R92, R101). -/
inductive Instr where
  /-- `NOP` (45_system.md R250) -/
  | nop
  /-- `SRST` (45_system.md R251) -/
  | srst
  /-- `STAT.RD sel` (45_system.md R254) -/
  | statRd (sel : Nat)
  /-- `FT.CLR` (40_frequency_table.md R122) -/
  | ftClr
  /-- `FT.PUT a, d` (40_frequency_table.md R123) -/
  | ftPut (a d : Nat)
  /-- `FT.GET a` (40_frequency_table.md R125) -/
  | ftGet (a : Nat)
  /-- `FT.RD a` (40_frequency_table.md R126) -/
  | ftRd (a : Nat)
  /-- `TB.BUILD` (41_tree_builder.md R143) -/
  | tbBuild
  /-- `TREE.FREE` (41_tree_builder.md R155) -/
  | treeFree
  /-- `NM.RD sel, a` (41_tree_builder.md R157) -/
  | nmRd (sel a : Nat)
  /-- `CT.GEN` (42_code_table.md R171) -/
  | ctGen
  /-- `CT.RD sel, a` (42_code_table.md R175) -/
  | ctRd (sel a : Nat)
  /-- `ENC.START sel` (43_encoder.md R192) -/
  | encStart (sel : Nat)
  /-- `ENC.PUT d` (43_encoder.md R193) -/
  | encPut (d : Nat)
  /-- `ENC.FIN` (43_encoder.md R194) -/
  | encFin
  /-- `DEC.START` (44_decoder.md R222) -/
  | decStart
  /-- `DEC.BIT d` (44_decoder.md R223) -/
  | decBit (d : Nat)
  /-- `DEC.BYTE d` (44_decoder.md R227) -/
  | decByte (d : Nat)
  /-- `DEC.EOF` (44_decoder.md R228) -/
  | decEof
  deriving DecidableEq, Repr

/-- The command formats: which of `sel`, `a`, `d` a command uses (30_encoding.md R92). -/
inductive Format where
  | z | s | a | sa | ad | d
  deriving DecidableEq, Repr

end Sys2Proof
end

