-- ==== Sys2Proof/WellFormed.lean ====
section
/-! DEFINITION. Which terms of `Instr` are commands: each operand fits its field of the command word
(30_encoding.md R91: `sel` 8 bits, `a` 16, `d` 32). Whether an operand is in its command's LEGAL range (R95) is the
command's own check, answered with `ERR_ARG`, and not a matter of form. -/

namespace Sys2Proof

/-- `v` fits the 8-bit field `sel`. -/
abbrev fitsSel (v : Nat) : Bool := decide (v < 2 ^ 8)

/-- `v` fits the 16-bit field `a`. -/
abbrev fitsA (v : Nat) : Bool := decide (v < 2 ^ 16)

/-- `v` fits the 32-bit field `d`. -/
abbrev fitsD (v : Nat) : Bool := decide (v < 2 ^ 32)

/-- Every operand of the command fits its field (30_encoding.md R91, R95). -/
def Instr.wellFormed : Instr → Bool
  | .nop | .srst | .ftClr | .tbBuild | .treeFree | .ctGen | .encFin | .decStart | .decEof => true
  | .statRd sel | .encStart sel => fitsSel sel
  | .ftPut a d => fitsA a && fitsD d
  | .ftGet a | .ftRd a => fitsA a
  | .nmRd sel a | .ctRd sel a => fitsSel sel && fitsA a
  | .encPut d | .decBit d | .decByte d => fitsD d

end Sys2Proof
end

