-- ==== Sys2Proof/Decode.lean ====
section
/-! DEFINITION. Decoding and encoding of command words (30_encoding.md R91, R92, R96, R97, R99). Decoding looks at one
word and nothing else, is total, and names why a word is illegal. -/

namespace Sys2Proof

/-- The four fields of a command word, each an unsigned number (30_encoding.md R91, R95). -/
structure Fields where
  op  : Nat
  sel : Nat
  a   : Nat
  d   : Nat
  deriving DecidableEq, Repr

/-- `w[hi:lo]` (00_scope.md R9). -/
def slice (w : Word) (hi lo : Nat) : Nat := (w.extractLsb hi lo).toNat

/-- The layout of a command word (30_encoding.md R91). -/
def fieldsOf (w : Word) : Fields :=
  { op := slice w 63 56, sel := slice w 55 48, a := slice w 47 32, d := slice w 31 0 }

/-- The command word with these fields; a value too wide for its field loses its high bits (`encode` of a
well-formed command never has one). -/
def wordOf (f : Fields) : Word :=
  BitVec.ofNat 8 f.op ++ BitVec.ofNat 8 f.sel ++ BitVec.ofNat 16 f.a ++ BitVec.ofNat 32 f.d

/-- Does the format use `sel`? (30_encoding.md R92) -/
def Format.usesSel : Format → Bool
  | .s | .sa => true
  | .z | .a | .ad | .d => false

/-- Does the format use `a`? (30_encoding.md R92) -/
def Format.usesA : Format → Bool
  | .a | .sa | .ad => true
  | .z | .s | .d => false

/-- Does the format use `d`? (30_encoding.md R92) -/
def Format.usesD : Format → Bool
  | .ad | .d => true
  | .z | .s | .a | .sa => false

/-- Every field the format does not use is zero (30_encoding.md R92). -/
def Format.mbzOk (fmt : Format) (f : Fields) : Bool :=
  (fmt.usesSel || f.sel == 0) && (fmt.usesA || f.a == 0) && (fmt.usesD || f.d == 0)

/-- The mask of the bits that must match exactly, as the table of 30_encoding.md R92 writes it. -/
def Format.mask : Format → Word
  | .z  => 0xFFFFFFFFFFFFFFFF
  | .s  => 0xFF00FFFFFFFFFFFF
  | .a  => 0xFFFF0000FFFFFFFF
  | .sa => 0xFF000000FFFFFFFF
  | .ad => 0xFFFF000000000000
  | .d  => 0xFFFFFFFF00000000

/-- A row of the opcode map: opcode, format, and the command its fields make. -/
structure Row where
  opcode : Nat
  format : Format
  build  : Fields → Instr

/-- Rows of the system, frequency-table and tree commands (30_encoding.md R96). -/
def rowsLow : List Row :=
  [ ⟨0x00, .z,  fun _ => .nop⟩,
    ⟨0x01, .z,  fun _ => .srst⟩,
    ⟨0x02, .s,  fun f => .statRd f.sel⟩,
    ⟨0x10, .z,  fun _ => .ftClr⟩,
    ⟨0x11, .ad, fun f => .ftPut f.a f.d⟩,
    ⟨0x12, .a,  fun f => .ftGet f.a⟩,
    ⟨0x13, .a,  fun f => .ftRd f.a⟩,
    ⟨0x20, .z,  fun _ => .tbBuild⟩,
    ⟨0x21, .z,  fun _ => .treeFree⟩,
    ⟨0x22, .sa, fun f => .nmRd f.sel f.a⟩ ]

/-- Rows of the code-table, encoder and decoder commands (30_encoding.md R96). -/
def rowsHigh : List Row :=
  [ ⟨0x30, .z,  fun _ => .ctGen⟩,
    ⟨0x31, .sa, fun f => .ctRd f.sel f.a⟩,
    ⟨0x40, .s,  fun f => .encStart f.sel⟩,
    ⟨0x41, .d,  fun f => .encPut f.d⟩,
    ⟨0x42, .z,  fun _ => .encFin⟩,
    ⟨0x50, .z,  fun _ => .decStart⟩,
    ⟨0x51, .d,  fun f => .decBit f.d⟩,
    ⟨0x52, .d,  fun f => .decByte f.d⟩,
    ⟨0x53, .z,  fun _ => .decEof⟩ ]

/-- The opcode map, all 19 rows (30_encoding.md R96). The words R101 writes out for its example commands decode by it. -/
def rows : List Row := rowsLow ++ rowsHigh

/-- Why a word is illegal: the two cases of 30_encoding.md R97. -/
inductive Illegal where
  /-- R97 (a): the opcode is none of the 19. -/
  | unknownOpcode (op : Nat)
  /-- R97 (b): a known opcode with a non-zero bit in a must-be-zero field. -/
  | mbzField (op : Nat)
  deriving DecidableEq, Repr

/-- What a word is: a command, or illegal for a named reason. -/
inductive Decoded where
  | instr (i : Instr)
  | illegal (why : Illegal)
  deriving DecidableEq, Repr

/-- Decoding (30_encoding.md R92, R96, R97): total on all 2^64 words, independent of the block's state (R99). -/
def decode (w : Word) : Decoded :=
  match rows.find? (fun r => r.opcode == (fieldsOf w).op) with
  | none   => .illegal (.unknownOpcode (fieldsOf w).op)
  | some r =>
    if r.format.mbzOk (fieldsOf w) then .instr (r.build (fieldsOf w))
    else .illegal (.mbzField (fieldsOf w).op)

/-- The fields of a command's word, from the opcode map (30_encoding.md R96); unused fields are zero (R92). -/
def Instr.fields : Instr → Fields
  | .nop          => ⟨0x00, 0, 0, 0⟩
  | .srst         => ⟨0x01, 0, 0, 0⟩
  | .statRd sel   => ⟨0x02, sel, 0, 0⟩
  | .ftClr        => ⟨0x10, 0, 0, 0⟩
  | .ftPut a d    => ⟨0x11, 0, a, d⟩
  | .ftGet a      => ⟨0x12, 0, a, 0⟩
  | .ftRd a       => ⟨0x13, 0, a, 0⟩
  | .tbBuild      => ⟨0x20, 0, 0, 0⟩
  | .treeFree     => ⟨0x21, 0, 0, 0⟩
  | .nmRd sel a   => ⟨0x22, sel, a, 0⟩
  | .ctGen        => ⟨0x30, 0, 0, 0⟩
  | .ctRd sel a   => ⟨0x31, sel, a, 0⟩
  | .encStart sel => ⟨0x40, sel, 0, 0⟩
  | .encPut d     => ⟨0x41, 0, 0, d⟩
  | .encFin       => ⟨0x42, 0, 0, 0⟩
  | .decStart     => ⟨0x50, 0, 0, 0⟩
  | .decBit d     => ⟨0x51, 0, 0, d⟩
  | .decByte d    => ⟨0x52, 0, 0, d⟩
  | .decEof       => ⟨0x53, 0, 0, 0⟩

/-- The command word of a command: one 64-bit word (30_encoding.md R91, R99). -/
def encode (i : Instr) : Word := wordOf i.fields

/-- The word whose bits are the number `w`, of which only the low `nbits` count; `none` when a bit above the
word's 64 is set (every command is one 64-bit word and has no byte order, 30_encoding.md R99, 20_memory.md R65; log entry 16, DEDUCED). -/
def tableWord (nbits w : Nat) : Option Word :=
  if w % 2 ^ nbits < 2 ^ 64 then some (BitVec.ofNat 64 (w % 2 ^ nbits)) else none

/-- The command the decoder reads from a row's bits as spec/opcode_table.json numbers them. -/
def decodeTableWord (nbits w : Nat) : Option Instr :=
  match tableWord nbits w with
  | none => none
  | some x =>
    match decode x with
    | .instr i => some i
    | .illegal _ => none

end Sys2Proof
end

