-- ==== Sys2Proof/Config.lean ====
section
/-! DEFINITION. The parameters of 00_scope.md R6. No value is left open by the spec (93_implementation_defined.md
section 1), so there is no free value here. -/

namespace Sys2Proof.Config

/-- `SYM_EOS`: the symbol code of `END_OF_STREAM`. -/
abbrev symEos : Sym := 256

/-- `SYM_INT`: the symbol code of `INTERNAL`. -/
abbrev symInt : Sym := 257

/-- `NSYM`: entries of the frequency table and of the code table. -/
abbrev nSym : Nat := 257

/-- `NNODE`: entries of node memory. -/
abbrev nNode : Nat := 513

/-- `NIL`: the node index that means "no child" and "no root". -/
abbrev nil : Index := 1023

/-- `CODE_MAX`: the longest code, in bits. -/
abbrev codeMax : Nat := 256

/-- `ID_VALUE`: the ID register, "HTB" then version 1 (10_state.md R40). -/
abbrev idValue : BitVec 32 := 0x48544201

end Sys2Proof.Config
end

