-- ==== Sys2Proof/Machine/State.lean ====
section
/-! DEFINITION. The complete state of the block (10_state.md R20 to R45) as plain data, the reasons a step can stop,
and the state after reset (10_state.md R50). -/

namespace Sys2Proof.Machine

/-- A record array: the records that hold a value, by index, indices strictly rising. An index not listed holds no
value: its storage is unspecified and no command can read it (10_state.md R51, 93_implementation_defined.md U2; log entry 4, DESIGN CHOICE). -/
abbrev Memory (α : Type) := List (Nat × α)

/-- A record of the frequency table FT (10_state.md R25). -/
structure FtRec where
  sym   : Sym
  count : Count
  deriving DecidableEq, Repr

/-- A record of node memory NM (10_state.md R30). -/
structure Node where
  weight : Weight
  sym    : Sym
  zero   : Index
  one    : Index
  deriving DecidableEq, Repr

/-- The code of a symbol: `bits[0], bits[1], ..., bits[len - 1]`, the branch at the root first (10_state.md R34; log entry 6, DESIGN CHOICE). -/
abbrev Code := List Bool

/-- The state of an encode or decode session (10_state.md R23 (c)). -/
inductive Session where
  /-- no session since reset (code 0) -/
  | idle
  /-- session open (code 1) -/
  | run
  /-- session ended in success (code 2) -/
  | done
  /-- session ended in an error (code 3) -/
  | fail
  deriving DecidableEq, Repr

/-- The status codes of a response (60_exceptions.md R270). -/
inductive Status where
  /-- 0: the command did its work -/
  | ok
  /-- 1 `ERR_ILL`: the word matches no command -/
  | ill
  /-- 2 `ERR_ARG`: a used operand is outside its legal range -/
  | arg
  /-- 3 `ERR_STATE`: the command is not allowed in the present phase -/
  | state
  /-- 4 `ERR_EMPTY`: a build with an empty frequency table -/
  | empty
  /-- 5 `ERR_NOCODE`: the symbol to encode has no valid code -/
  | nocode
  /-- 6 `ERR_TRUNC`: the bit source ended before the end marker was decoded -/
  | trunc
  deriving DecidableEq, Repr

/-- What the host does next (70_reset_and_hazards.md R318 L1, L2). -/
inductive HostEvent where
  /-- The command port accepts the word `w`, and the command runs to its end. -/
  | command (w : Word)
  /-- The reset input is asserted between two commands (R300). -/
  | reset
  /-- The reset input falls while the command `w` is executing (R302): of the outputs the command would have appended,
  the first `nEnc` encoded bytes, `nDec` decoded bytes and `nTap` tap bits had been delivered (log entry 3, DESIGN CHOICE). -/
  | resetDuring (w : Word) (nEnc nDec nTap : Nat)
  deriving DecidableEq, Repr

/-- The state of the block at a command boundary, and the host's events to come. -/
structure State where
  /-- `ft_len`: number of entries in FT (10_state.md R21) -/
  ftLen : Index
  /-- `tree_valid`: NM holds a built tree that has not been released (R21) -/
  treeValid : Bool
  /-- `node_cnt`: number of valid entries in NM (R21) -/
  nodeCnt : Index
  /-- `root`: index of the root node, or `NIL` (R21) -/
  root : Index
  /-- `codes_valid`: CT holds the codes of some tree (R21) -/
  codesValid : Bool
  /-- `enc_state` (R21, R23) -/
  encState : Session
  /-- `enc_dry`: the current or last encode session is a dry run (R21) -/
  encDry : Bool
  /-- `enc_bitcnt`: bits emitted in the current or last encode session (R21) -/
  encBitcnt : Counter
  /-- `pk_n`: number of bits waiting in the packer (R21, R36) -/
  pkN : BitVec 3
  /-- `pk_acc`: the packer's byte under construction (R21, R36) -/
  pkAcc : Byte
  /-- `dec_state` (R21, R23) -/
  decState : Session
  /-- `dec_cur`: the decoder's cursor, a node index or `NIL` (R21, R37) -/
  decCur : Index
  /-- `dec_cnt`: literal bytes emitted in the current or last decode session (R21) -/
  decCnt : Counter
  /-- `dec_bitcnt`: bits consumed in the current or last decode session (R21) -/
  decBitcnt : Counter
  /-- `err`: the sticky error flags (R42) -/
  err : BitVec 8
  /-- FT, the frequency table, by position (R25) -/
  ft : Memory FtRec
  /-- NM, node memory, by node index (R30) -/
  nm : Memory Node
  /-- CT, the code table, by symbol code; a symbol is listed exactly when its `valid` bit is 1 (R34; log entry 6, DESIGN CHOICE) -/
  ct : Memory Code
  /-- PQ, the priority queue: the set of queued node indices, rising (R33; log entry 7, DESIGN CHOICE) -/
  pq : List Nat
  /-- `rsp_log`: the response words (R45 (a)) -/
  rspLog : List Word
  /-- `enc_out`: the bytes of the encoded-byte output stream (R45 (b)) -/
  encOut : List Byte
  /-- `dec_out`: the bytes of the decoded-byte output stream (R45 (c)) -/
  decOut : List Byte
  /-- `tap_log`: the bits shown on the tap (R45 (d)) -/
  tapLog : List Bool
  /-- the host's events to come, first one first: inputs of the step (R20), not state of the block (log entry 1, DESIGN CHOICE) -/
  inputs : List HostEvent
  deriving DecidableEq, Repr

/-- Where the model stops. No command of the spec stops the block (60_exceptions.md R274, R290); each of these is met
only in a state that breaks the spec's invariants (10_state.md R26, R32, R33), which no run reaches. All are SAFE: the
model stops where the spec gives no behaviour (log entries 4 and 5, DESIGN CHOICE). -/
inductive Fault where
  /-- A command would read a record of FT or NM that holds no value, which 10_state.md R51 says no command does.
  Raised by every command that reads FT or NM. Safe. -/
  | unspecifiedRecord
  /-- A record would be written at an index its array does not have (20_memory.md R69). Raised by FT.PUT, TB.BUILD
  and CT.GEN. Safe. -/
  | recordOutsideArray
  /-- The requirement of `pq_insert` or `pq_remove_min` is not met (41_tree_builder.md R141, R142). Raised by
  TB.BUILD. Safe. -/
  | queueMisuse
  /-- A walk or path would pass `CODE_MAX` bits, which 42_code_table.md R172 says never happens. Raised by CT.GEN. Safe. -/
  | walkOverrun
  deriving DecidableEq, Repr

/-- Why the machine has no meaning for an instruction. -/
inductive Refusal where
  /-- The instruction has no meaning yet; raised by `exec`'s arm of that name only. Safe. No arm does. -/
  | notModelled (mnemonic : String)
  deriving DecidableEq, Repr

/-- The block right after reset, at the start of a run: 10_state.md R50 with the four logs empty (R45; "clean entry",
70_reset_and_hazards.md R320). FT and NM hold no specified record (R51; log entry 4, DESIGN CHOICE), and no host event is pending (log entry 1, DESIGN CHOICE). -/
def State.reset : State where
  ftLen := 0
  treeValid := false
  nodeCnt := 0
  root := Config.nil
  codesValid := false
  encState := .idle
  encDry := false
  encBitcnt := 0
  pkN := 0
  pkAcc := 0
  decState := .idle
  decCur := Config.nil
  decCnt := 0
  decBitcnt := 0
  err := 0
  ft := []
  nm := []
  ct := []
  pq := []
  rspLog := []
  encOut := []
  decOut := []
  tapLog := []
  inputs := []

end Sys2Proof.Machine
end

