-- ==== Sys2Proof/Machine/Flags.lean ====
section
/-! DEFINITION. Status codes, session codes and the sticky error register (60_exceptions.md R270; 10_state.md R23,
R42). The block has no arithmetic flags (10_state.md R23). -/

namespace Sys2Proof.Machine

/-- The 8-bit code of a status (60_exceptions.md R270). -/
def statusCode : Status → BitVec 8
  | .ok => 0
  | .ill => 1
  | .arg => 2
  | .state => 3
  | .empty => 4
  | .nocode => 5
  | .trunc => 6

/-- The 2-bit code of a session state (10_state.md R23 (c)). -/
def sessionCode : Session → BitVec 2
  | .idle => 0
  | .run => 1
  | .done => 2
  | .fail => 3

/-- `err` after a command that ended with status `st`: bit `st` is set when `st` is an error (10_state.md R42,
60_exceptions.md R274 (b)). -/
def noteErr (st : Status) (err : BitVec 8) : BitVec 8 :=
  match st with
  | .ok => err
  | .ill | .arg | .state | .empty | .nocode | .trunc => err ||| (1#8 <<< (statusCode st).toNat)

end Sys2Proof.Machine
end

