-- ==== Sys2Proof/Machine/Operands.lean ====
section
/-! DEFINITION. The operand ranges of 30_encoding.md R95: each operand is checked against its legal range and read as
what it names; the numbers of the named operands are those of the table of R101. `none` is `ERR_ARG`. -/

namespace Sys2Proof.Machine

/-- The status registers of `STAT.RD` (10_state.md R40 to R44). -/
inductive StatReg where
  | id | status | err | tree | encBits | decCnt | decBits | decCur
  deriving DecidableEq, Repr

/-- The parts of a node that `NM.RD` reads (41_tree_builder.md R157). -/
inductive NodePart where
  /-- `W`, the weight -/
  | weight
  /-- `L`, the symbol and links -/
  | links
  deriving DecidableEq, Repr

/-- The parts of a code that `CT.RD` reads (42_code_table.md R175). -/
inductive CodePart where
  /-- `LEN` -/
  | len
  /-- `B0` to `B7`: chunk `j` holds path bits `32 j` to `32 j + 31` -/
  | chunk (j : Nat)
  deriving DecidableEq, Repr

/-- The modes of `ENC.START` (43_encoder.md R192). -/
inductive EncMode where
  | live | dry
  deriving DecidableEq, Repr

/-- `STAT.RD`: `sel` 0 to 7, in order `ID`, `STATUS`, `ERR`, `TREE`, `ENC_BITS`, `DEC_CNT`, `DEC_BITS`, `DEC_CUR`
(30_encoding.md R95, R101). -/
def statRegOf : Nat → Option StatReg
  | 0 => some .id
  | 1 => some .status
  | 2 => some .err
  | 3 => some .tree
  | 4 => some .encBits
  | 5 => some .decCnt
  | 6 => some .decBits
  | 7 => some .decCur
  | _ => none

/-- `FT.PUT`, `FT.GET`, `CT.RD`: `a` is a symbol 0 to 256 (a literal, or `EOS` = 256, R101; `INTERNAL` and the reserved codes are
refused, 10_state.md R24). -/
def symbolOf (a : Nat) : Option Sym :=
  if a ≤ Config.symEos.toNat then some (BitVec.ofNat 9 a) else none

/-- `FT.PUT`: `d` is a count 1 to 2^32 - 1. -/
def countOf (d : Nat) : Option Count :=
  if d = 0 then none else some (BitVec.ofNat 32 d)

/-- `NM.RD`: `sel` 0 `W` or 1 `L` (30_encoding.md R95, R101). -/
def nodePartOf : Nat → Option NodePart
  | 0 => some .weight
  | 1 => some .links
  | _ => none

/-- `CT.RD`: `sel` 0 `LEN` or 1 to 8, `B0` to `B7` (30_encoding.md R95, R101). -/
def codePartOf : Nat → Option CodePart
  | 0 => some .len
  | j + 1 => if j ≤ 7 then some (.chunk j) else none

/-- `ENC.START`: `sel` 0 `LIVE` or 1 `DRY` (30_encoding.md R95, R101). -/
def encModeOf : Nat → Option EncMode
  | 0 => some .live
  | 1 => some .dry
  | _ => none

/-- `ENC.PUT`, `DEC.BYTE`: `d` is a byte 0 to 255. -/
def byteOf (d : Nat) : Option Byte :=
  if d ≤ 255 then some (BitVec.ofNat 8 d) else none

/-- `DEC.BIT`: `d` is a bit 0 or 1. -/
def bitOf : Nat → Option Bool
  | 0 => some false
  | 1 => some true
  | _ => none

/-- `FT.RD`, `NM.RD`: `a` is an index below the register that bounds it (`ft_len`, `node_cnt`). -/
def indexBelow (a : Nat) (bound : Index) : Option Nat :=
  if a < bound.toNat then some a else none

end Sys2Proof.Machine
end

