-- ==== Sys2Proof/Machine/Ops.lean ====
section
/-! DEFINITION. The operations every command shares: record arrays, payload fields, responses, the one error path
(`fail`), reset, the output streams, and the host's resets. -/

namespace Sys2Proof.Machine

/-! ### Record arrays (20_memory.md R60, R68) -/

/-- The record at index `i`, if it holds a value. -/
def Memory.read {α : Type} : Memory α → Nat → Option α
  | [], _ => none
  | (k, x) :: m, i => if k = i then some x else Memory.read m i

/-- Writes a whole record, keeping the indices rising. -/
def Memory.write {α : Type} : Memory α → Nat → α → Memory α
  | [], i, x => [(i, x)]
  | (k, y) :: m, i, x =>
    if i < k then (i, x) :: (k, y) :: m
    else if i = k then (i, x) :: m
    else (k, y) :: Memory.write m i x

/-- The canonical form: indices strictly rising and inside an array of `size` records. -/
abbrev Memory.wf {α : Type} (size : Nat) (m : Memory α) : Prop :=
  (m.map Prod.fst).Pairwise (· < ·) ∧ ∀ c ∈ m, c.1 < size

/-- The records at indices 0 to `n - 1`, in order, if they all hold a value. -/
def Memory.readAll {α : Type} (m : Memory α) : Nat → Option (List α)
  | 0 => some []
  | n + 1 =>
    match m.readAll n, m.read n with
    | some l, some x => some (l ++ [x])
    | _, _ => none

/-- The read a command makes: a record that holds no value cannot be read (10_state.md R51). -/
def Memory.fetch {α : Type} (m : Memory α) (i : Nat) : Except Fault α :=
  match m.read i with
  | some x => .ok x
  | none => .error .unspecifiedRecord

/-- The reads of every valid record, positions 0 to `n - 1`. -/
def Memory.fetchAll {α : Type} (m : Memory α) (n : Nat) : Except Fault (List α) :=
  match m.readAll n with
  | some l => .ok l
  | none => .error .unspecifiedRecord

/-- The write a command makes to an array of `size` records. -/
def Memory.store {α : Type} (size : Nat) (m : Memory α) (i : Nat) (x : α) : Except Fault (Memory α) :=
  if i < size then .ok (m.write i x) else .error .recordOutsideArray

/-! ### Responses (30_encoding.md R93, R94) and errors (60_exceptions.md R272, R274) -/

/-- A payload whose bits from `lo` up hold `v` and whose other bits are zero. -/
def field (lo : Nat) {n : Nat} (v : BitVec n) : Payload := (v.setWidth 56) <<< lo

/-- The response word: status in bits 63:56, payload in bits 55:0 (30_encoding.md R93). -/
def responseWord (st : Status) (p : Payload) : Word := statusCode st ++ p

/-- `respond(st, payload)`: end the command (00_scope.md R10). -/
def respond (st : Status) (p : Payload) (s : State) : State :=
  { s with rspLog := s.rspLog ++ [responseWord st p], err := noteErr st s.err }

/-- `fail(st)`: what every error does, and all it does unless the command's rule says more: a response with a zero
payload, and bit `st` of `err` (00_scope.md R10, 60_exceptions.md R274). This is HTB's only "exception": no state is
saved, no mode changes, control goes nowhere (R276), and there is no return from it (R277). -/
def fail (st : Status) (s : State) : State := respond st 0 s

/-- A command's outcome from its result: the next state, or a stop of the model (log entry 5, DESIGN CHOICE). -/
def finish : Except Fault State → Host.Outcome State Fault Refusal
  | .ok s => .next s
  | .error f => .fault f

/-- An illegal word: `ERR_ILL`, and no other effect (30_encoding.md R97). -/
def illegalWord (s : State) : State := fail .ill s

/-! ### Output streams (10_state.md R45) -/

/-- `push_enc(v)` (00_scope.md R10). -/
def pushEnc (v : Byte) (s : State) : State := { s with encOut := s.encOut ++ [v] }

/-- `push_dec(v)` (00_scope.md R10). -/
def pushDec (v : Byte) (s : State) : State := { s with decOut := s.decOut ++ [v] }

/-! ### Reset (10_state.md R50, 70_reset_and_hazards.md R300 to R302) -/

/-- Every piece of state to its reset value; the logs keep what the host has already received (10_state.md R45, R50),
and the host's events to come are the host's. -/
def resetBlock (s : State) : State :=
  { State.reset with
    rspLog := s.rspLog, encOut := s.encOut, decOut := s.decOut, tapLog := s.tapLog, inputs := s.inputs }

/-- Reset during a command (70_reset_and_hazards.md R302): `before` is the state the command started from, `after` the
one it would have ended in. The state is the reset state, there is no response, and a prefix of each output list of the
command has been delivered. -/
def resetMidCommand (before after : State) (nEnc nDec nTap : Nat) : State :=
  { resetBlock before with
    encOut := after.encOut.take (before.encOut.length + nEnc)
    decOut := after.decOut.take (before.decOut.length + nDec)
    tapLog := after.tapLog.take (before.tapLog.length + nTap) }

end Sys2Proof.Machine
end

