-- ==== Sys2Proof/Machine/FrequencyTable.lean ====
section
/-! DEFINITION. The frequency table commands FT.CLR, FT.PUT, FT.GET, FT.RD (40_frequency_table.md). -/

namespace Sys2Proof.Machine

/-- `ft_find(s)` over the valid records: the position that holds the key, if any (40_frequency_table.md R120). -/
def ftFind (recs : List FtRec) (sym : Sym) : Option Nat := recs.findIdx? (fun r => r.sym == sym)

/-- The valid records of FT, positions 0 to `ft_len - 1`, in order (10_state.md R25). -/
def ftRecords (s : State) : Except Fault (List FtRec) := s.ft.fetchAll s.ftLen.toNat

/-- `FT.CLR` (40_frequency_table.md R122). The records become unreadable, so they hold no value (10_state.md R51; log entry 4, DESIGN CHOICE). -/
def execFtClr (s : State) : Host.Outcome State Fault Refusal :=
  if s.treeValid then .next (fail .state s)
  else .next (respond .ok 0 { s with ft := [], ftLen := 0 })

/-- The put of a legal key and count into an unfrozen table (40_frequency_table.md R123). -/
def ftPut (sym : Sym) (count : Count) (s : State) : Except Fault State := do
  let recs ← ftRecords s
  match ftFind recs sym with
  | none =>
    let ft ← Memory.store Config.nSym s.ft s.ftLen.toNat { sym := sym, count := count }
    pure (respond .ok (field 0 s.ftLen) { s with ft := ft, ftLen := s.ftLen + 1 })
  | some p =>
    let ft ← Memory.store Config.nSym s.ft p { sym := sym, count := count }
    pure (respond .ok (field 0 (BitVec.ofNat 10 p) ||| field 16 1#1) { s with ft := ft })

/-- `FT.PUT a, d` (40_frequency_table.md R123, R121). -/
def execFtPut (a d : Nat) (s : State) : Host.Outcome State Fault Refusal :=
  match symbolOf a, countOf d with
  | some sym, some count =>
    if s.treeValid then .next (fail .state s) else finish (ftPut sym count s)
  | _, _ => .next (fail .arg s)

/-- The answer of `FT.GET` over the valid records (40_frequency_table.md R125). -/
def ftGetPayload (recs : List FtRec) (sym : Sym) : Payload :=
  match ftFind recs sym with
  | none => 0
  | some p =>
    match recs[p]? with
    | none => 0
    | some r => field 0 r.count ||| field 32 1#1 ||| field 33 (BitVec.ofNat 10 p)

/-- `FT.GET a` (40_frequency_table.md R125). -/
def execFtGet (a : Nat) (s : State) : Host.Outcome State Fault Refusal :=
  match symbolOf a with
  | none => .next (fail .arg s)
  | some sym => finish (do
    let recs ← ftRecords s
    pure (respond .ok (ftGetPayload recs sym) s))

/-- `FT.RD a` (40_frequency_table.md R126). -/
def execFtRd (a : Nat) (s : State) : Host.Outcome State Fault Refusal :=
  match indexBelow a s.ftLen with
  | none => .next (fail .arg s)
  | some p => finish (do
    let r ← s.ft.fetch p
    pure (respond .ok (field 32 r.sym ||| field 0 r.count) s))

end Sys2Proof.Machine
end

