-- ==== Sys2Proof/Machine/TreeBuilder.lean ====
section
/-! DEFINITION. The priority queue and the tree builder commands TB.BUILD, TREE.FREE, NM.RD (41_tree_builder.md). -/

namespace Sys2Proof.Machine

/-! ### The priority queue (41_tree_builder.md R140 to R142) -/

/-- What the builder works on: NM, `node_cnt` and PQ. -/
structure Builder where
  nm      : Memory Node
  nodeCnt : Index
  pq      : List Nat
  deriving DecidableEq, Repr

/-- A queue key: (weight, node index). -/
abbrev Key := Weight × Nat

/-- Key `x` is before key `y`: lower weight first, and at equal weight the node created earlier
(41_tree_builder.md R140). -/
def before (x y : Key) : Bool := decide (x.1 < y.1) || (x.1 == y.1 && decide (x.2 < y.2))

/-- The keys of the queued nodes. -/
def queueKeys (nm : Memory Node) : List Nat → Except Fault (List Key)
  | [] => .ok []
  | i :: pq => do
    let n ← nm.fetch i
    let ks ← queueKeys nm pq
    pure ((n.weight, i) :: ks)

/-- The key before every other one (41_tree_builder.md R142). -/
def leastKey : List Key → Option Key
  | [] => none
  | k :: ks =>
    match leastKey ks with
    | none => some k
    | some m => some (if before k m then k else m)

/-- Adds an index to the set, kept rising. -/
def insertIndex (i : Nat) : List Nat → List Nat
  | [] => [i]
  | j :: pq => if i < j then i :: j :: pq else j :: insertIndex i pq

/-- `pq_insert(i)` (41_tree_builder.md R141). -/
def pqInsert (i : Nat) (b : Builder) : Except Fault Builder :=
  if i ∈ b.pq ∨ b.pq.length ≥ Config.nSym then .error .queueMisuse
  else .ok { b with pq := insertIndex i b.pq }

/-- `pq_remove_min()` (41_tree_builder.md R142). -/
def pqRemoveMin (b : Builder) : Except Fault (Nat × Builder) := do
  let ks ← queueKeys b.nm b.pq
  match leastKey ks with
  | none => .error .queueMisuse
  | some k => .ok (k.2, { b with pq := b.pq.erase k.2 })

/-! ### TB.BUILD (41_tree_builder.md R143 to R150) -/

/-- The leaf of a frequency-table entry (41_tree_builder.md R144). -/
def leafOf (r : FtRec) : Node :=
  { weight := r.count.setWidth 41, sym := r.sym, zero := Config.nil, one := Config.nil }

/-- `is_leaf` of a record (10_state.md R31). -/
def Node.isLeaf (n : Node) : Bool := n.sym != Config.symInt

/-- Step 1: one leaf per entry, at node index = position, from position `p` up, each queued (41_tree_builder.md R144). -/
def addLeaves : List FtRec → Nat → Builder → Except Fault Builder
  | [], _, b => .ok b
  | r :: recs, p, b => do
    let nm ← Memory.store Config.nNode b.nm p (leafOf r)
    let b ← pqInsert p { b with nm := nm }
    addLeaves recs (p + 1) b

/-- One merge (41_tree_builder.md R145). -/
def mergeOnce (b : Builder) : Except Fault Builder := do
  let (i, b) ← pqRemoveMin b
  let (j, b) ← pqRemoveMin b
  let x ← b.nm.fetch i
  let y ← b.nm.fetch j
  let nm ← Memory.store Config.nNode b.nm b.nodeCnt.toNat
    { weight := x.weight + y.weight, sym := Config.symInt, zero := BitVec.ofNat 10 i, one := BitVec.ofNat 10 j }
  pqInsert b.nodeCnt.toNat { b with nm := nm, nodeCnt := b.nodeCnt + 1 }

/-- Step 2: merge while `pq_size > 1` (41_tree_builder.md R146). Each merge lowers `pq_size` by one, so a bound of
`pq_size` passes never ends the loop early. -/
def mergeAll : Nat → Builder → Except Fault Builder
  | 0, b => .ok b
  | passes + 1, b =>
    if b.pq.length > 1 then do
      let b ← mergeOnce b
      mergeAll passes b
    else .ok b

/-- Steps 1 to 3 of the build: the last node of the queue is the root (41_tree_builder.md R143, R147). -/
def buildTree (recs : List FtRec) (b : Builder) : Except Fault (Nat × Builder) := do
  let b ← addLeaves recs 0 b
  let b := { b with nodeCnt := BitVec.ofNat 10 recs.length }
  let b ← mergeAll b.pq.length b
  pqRemoveMin b

/-- The build of a non-empty table where no tree lives (41_tree_builder.md R143). -/
def tbBuild (s : State) : Except Fault State := do
  let recs ← ftRecords s
  let (r, b) ← buildTree recs { nm := s.nm, nodeCnt := s.nodeCnt, pq := s.pq }
  pure (respond .ok (field 0 (BitVec.ofNat 10 r) ||| field 10 b.nodeCnt)
    { s with nm := b.nm, nodeCnt := b.nodeCnt, pq := b.pq, root := BitVec.ofNat 10 r, treeValid := true })

/-- `TB.BUILD` (41_tree_builder.md R143, R150). -/
def execTbBuild (s : State) : Host.Outcome State Fault Refusal :=
  if s.treeValid then .next (fail .state s)
  else if s.ftLen = 0 then .next (fail .empty s)
  else finish (tbBuild s)

/-! ### TREE.FREE and NM.RD -/

/-- `TREE.FREE` (41_tree_builder.md R155). The nodes become unreachable, so they hold no value (10_state.md R51; log entry 4, DESIGN CHOICE). -/
def execTreeFree (s : State) : Host.Outcome State Fault Refusal :=
  if !s.treeValid then .next (fail .state s)
  else if s.decState = .run then .next (fail .state s)
  else .next (respond .ok (field 0 s.nodeCnt)
    { s with nm := [], nodeCnt := 0, root := Config.nil, treeValid := false })

/-- The part of a node that `NM.RD` answers (41_tree_builder.md R157). Of an internal node the symbol answered is `SYM_INT`,
as R157 and 95_test_vectors.md S2 have it, although 10_state.md R24 says no response carries it (log entry 17, DESIGN
CHOICE). -/
def nodePayload (n : Node) : NodePart → Payload
  | .weight => field 0 n.weight
  | .links => field 20 n.sym ||| field 10 n.zero ||| field 0 n.one

/-- `NM.RD sel, a` (41_tree_builder.md R157). -/
def execNmRd (sel a : Nat) (s : State) : Host.Outcome State Fault Refusal :=
  match nodePartOf sel, indexBelow a s.nodeCnt with
  | some part, some i => finish (do
    let n ← s.nm.fetch i
    pure (respond .ok (nodePayload n part) s))
  | _, _ => .next (fail .arg s)

end Sys2Proof.Machine
end

