-- ==== Sys2Proof/Machine/CodeTable.lean ====
section
/-! DEFINITION. The code table commands CT.GEN and CT.RD (42_code_table.md). -/

namespace Sys2Proof.Machine

/-- `walk(i, path)` (42_code_table.md R172): at a leaf, record the path as the leaf's code; at an internal node, walk
`zero` with a 0 appended, then `one` with a 1 appended. `room` is one more than the bits the path can still grow by;
the walk starts with `CODE_MAX + 1`, and R172 says the path never exceeds `CODE_MAX`. -/
def walk (nm : Memory Node) : Nat → Nat → Code → Memory Code → Except Fault (Memory Code)
  | 0, _, _, _ => .error .walkOverrun
  | room + 1, i, path, ct => do
    let n ← nm.fetch i
    if n.isLeaf then Memory.store Config.nSym ct n.sym.toNat path
    else do
      let ct ← walk nm room n.zero.toNat (path ++ [false]) ct
      walk nm room n.one.toNat (path ++ [true]) ct

/-- The code table of the tree at `root`, from an empty table; a root that is a leaf gets the code "0"
(42_code_table.md R171, R174). -/
def codesOfTree (nm : Memory Node) (root : Nat) : Except Fault (Memory Code) := do
  let n ← nm.fetch root
  if n.isLeaf then Memory.store Config.nSym [] n.sym.toNat [false]
  else walk nm (Config.codeMax + 1) root [] []

/-- The code generation where a tree lives and no encode session is open (42_code_table.md R171). -/
def ctGen (s : State) : Except Fault State := do
  let ct ← codesOfTree s.nm s.root.toNat
  pure (respond .ok (field 0 (BitVec.ofNat 10 ct.length)) { s with ct := ct, codesValid := true })

/-- `CT.GEN` (42_code_table.md R171). -/
def execCtGen (s : State) : Host.Outcome State Fault Refusal :=
  if !s.treeValid then .next (fail .state s)
  else if s.encState = .run then .next (fail .state s)
  else finish (ctGen s)

/-- The number whose bit `k` is element `k` of the list. -/
def bitsValue : List Bool → Nat
  | [] => 0
  | b :: bs => b.toNat + 2 * bitsValue bs

/-- The part of a valid code that `CT.RD` answers (42_code_table.md R175, 20_memory.md R66). -/
def codePayload (c : Code) : CodePart → Payload
  | .len => field 9 1#1 ||| field 0 (BitVec.ofNat 9 c.length)
  | .chunk j => field 0 (BitVec.ofNat 32 (bitsValue ((c.drop (32 * j)).take 32)))

/-- `CT.RD sel, a` (42_code_table.md R175). -/
def execCtRd (sel a : Nat) (s : State) : Host.Outcome State Fault Refusal :=
  match codePartOf sel, symbolOf a with
  | some part, some sym =>
    match s.ct.read sym.toNat with
    | none => .next (respond .ok 0 s)
    | some c => .next (respond .ok (codePayload c part) s)
  | _, _ => .next (fail .arg s)

end Sys2Proof.Machine
end

