-- ==== Sys2Proof/Machine/Decoder.lean ====
section
/-! DEFINITION. The decoder commands DEC.START, DEC.BIT, DEC.BYTE, DEC.EOF (44_decoder.md). -/

namespace Sys2Proof.Machine

/-- The event of one decoder step (44_decoder.md R224). -/
inductive DecEvent where
  /-- descended to an internal node -/
  | desc
  /-- a literal was emitted -/
  | lit (v : Byte)
  /-- the end marker was reached -/
  | eos
  deriving DecidableEq, Repr

/-- `demux(s)`: the symbol of the leaf just reached (44_decoder.md R225). -/
def demux (sym : Sym) (s : State) : State × DecEvent :=
  let s := { s with decCur := s.root }
  if sym = Config.symEos then ({ s with decState := .done }, .eos)
  else
    let v := sym.setWidth 8
    ({ pushDec v s with decCnt := s.decCnt + 1 }, .lit v)

/-- Where a bit leads: the root itself when the root is a leaf (44_decoder.md R226), else the child of the cursor's
node (R224). -/
def decTarget (b : Bool) (s : State) : Except Fault Nat := do
  let r ← s.nm.fetch s.root.toNat
  if r.isLeaf then pure s.root.toNat
  else do
    let c ← s.nm.fetch s.decCur.toNat
    pure (if b then c.one.toNat else c.zero.toNat)

/-- `dec_step(b)` (44_decoder.md R224). -/
def decStep (b : Bool) (s : State) : Except Fault (State × DecEvent) := do
  let s := { s with decBitcnt := s.decBitcnt + 1 }
  let t ← decTarget b s
  let n ← s.nm.fetch t
  if n.isLeaf then pure (demux n.sym s)
  else pure ({ s with decCur := BitVec.ofNat 10 t }, .desc)

/-- `DEC.START` (44_decoder.md R222). -/
def execDecStart (s : State) : Host.Outcome State Fault Refusal :=
  if !s.treeValid then .next (fail .state s)
  else .next (respond .ok 0 { s with decCur := s.root, decCnt := 0, decBitcnt := 0, decState := .run })

/-- The answer of `DEC.BIT` (44_decoder.md R223). -/
def bitPayload : DecEvent → Payload
  | .desc => 0
  | .lit v => field 0 1#2 ||| field 8 v
  | .eos => field 0 2#2

/-- `DEC.BIT d` (44_decoder.md R223). -/
def execDecBit (d : Nat) (s : State) : Host.Outcome State Fault Refusal :=
  match bitOf d with
  | none => .next (fail .arg s)
  | some b =>
    if s.decState ≠ .run then .next (fail .state s)
    else finish (do
      let (s, ev) ← decStep b s
      pure (respond .ok (bitPayload ev) s))

/-- The bits of a byte in the order they are fed: bit 7 first (44_decoder.md R227, 20_memory.md R64). -/
def byteBits (v : Byte) : List Bool := [7, 6, 5, 4, 3, 2, 1, 0].map (fun k => v.getLsbD k)

/-- What `DEC.BYTE` counts: bits consumed and literals emitted (44_decoder.md R227). -/
structure Fed where
  used : Nat
  lits : Nat
  deriving DecidableEq, Repr

/-- One more bit consumed, and one more literal when the event is a literal (44_decoder.md R227). -/
def countEvent (c : Fed) : DecEvent → Fed
  | .lit _ => { used := c.used + 1, lits := c.lits + 1 }
  | .desc | .eos => { c with used := c.used + 1 }

/-- The loop of `DEC.BYTE`: each bit is fed while the session is open (44_decoder.md R227). -/
def feedBits : List Bool → Fed → State → Except Fault (State × Fed)
  | [], c, s => .ok (s, c)
  | b :: bs, c, s =>
    if s.decState = .run then do
      let (s, ev) ← decStep b s
      feedBits bs (countEvent c ev) s
    else feedBits bs c s

/-- `DEC.BYTE d` (44_decoder.md R227). -/
def execDecByte (d : Nat) (s : State) : Host.Outcome State Fault Refusal :=
  match byteOf d with
  | none => .next (fail .arg s)
  | some v =>
    if s.decState ≠ .run then .next (fail .state s)
    else finish (do
      let (s, c) ← feedBits (byteBits v) { used := 0, lits := 0 } s
      pure (respond .ok
        (field 0 (BitVec.ofNat 4 c.used) ||| field 4 (BitVec.ofNat 4 c.lits) |||
          field 8 (BitVec.ofBool (decide (s.decState = .done)))) s))

/-- `DEC.EOF` (44_decoder.md R228). -/
def execDecEof (s : State) : Host.Outcome State Fault Refusal :=
  match s.decState with
  | .run => .next (fail .trunc { s with decState := .fail })
  | .done => .next (respond .ok 0 s)
  | .idle | .fail => .next (fail .state s)

end Sys2Proof.Machine
end

