-- ==== Sys2Proof/Machine/Encoder.lean ====
section
/-! DEFINITION. The encoder commands ENC.START, ENC.PUT, ENC.FIN and the bit packer (43_encoder.md). -/

namespace Sys2Proof.Machine

/-- `acc` with bit `k` replaced by `b`. -/
def setBit (acc : Byte) (k : Nat) (b : Bool) : Byte :=
  (acc &&& ~~~(1#8 <<< k)) ||| ((BitVec.ofBool b).setWidth 8 <<< k)

/-- The packer takes one bit, most significant bit of the byte first (43_encoder.md R195, 20_memory.md R62). -/
def packBit (b : Bool) (s : State) : State :=
  let acc := setBit s.pkAcc (7 - s.pkN.toNat) b
  if s.pkN = 7 then { pushEnc acc s with pkAcc := 0, pkN := 0 }
  else { s with pkAcc := acc, pkN := s.pkN + 1 }

/-- `emit_bit(b)` (43_encoder.md R195). -/
def emitBit (b : Bool) (s : State) : State :=
  let s := { s with tapLog := s.tapLog ++ [b], encBitcnt := s.encBitcnt + 1 }
  if s.encDry then s else packBit b s

/-- `emit_bit` of each bit of a code, in order (43_encoder.md R193). -/
def emitBits (bits : List Bool) (s : State) : State := bits.foldl (fun s b => emitBit b s) s

/-- `flush()` (43_encoder.md R196). -/
def flush (s : State) : State :=
  if s.encDry = false ∧ s.pkN ≠ 0 then { pushEnc s.pkAcc s with pkAcc := 0, pkN := 0 } else s

/-- `ENC.START sel` (43_encoder.md R192). -/
def execEncStart (sel : Nat) (s : State) : Host.Outcome State Fault Refusal :=
  match encModeOf sel with
  | none => .next (fail .arg s)
  | some mode =>
    if !s.codesValid then .next (fail .state s)
    else .next (respond .ok 0
      { s with encDry := decide (mode = .dry), encBitcnt := 0, pkAcc := 0, pkN := 0, encState := .run })

/-- `ENC.PUT d` (43_encoder.md R193). -/
def execEncPut (d : Nat) (s : State) : Host.Outcome State Fault Refusal :=
  match byteOf d with
  | none => .next (fail .arg s)
  | some v =>
    if s.encState ≠ .run then .next (fail .state s)
    else
      match s.ct.read v.toNat with
      | none => .next (fail .nocode { s with encState := .fail })
      | some c => .next (respond .ok (field 0 (BitVec.ofNat 9 c.length)) (emitBits c s))

/-- The end of a session whose end marker has the code `c`: emit it, flush, close (43_encoder.md R194). -/
def closeEncode (c : Code) (s : State) : State := { flush (emitBits c s) with encState := .done }

/-- `ENC.FIN` (43_encoder.md R194). -/
def execEncFin (s : State) : Host.Outcome State Fault Refusal :=
  if s.encState ≠ .run then .next (fail .state s)
  else
    match s.ct.read Config.symEos.toNat with
    | none => .next (fail .nocode { s with encState := .fail })
    | some c => .next (respond .ok (field 0 (closeEncode c s).encBitcnt) (closeEncode c s))

end Sys2Proof.Machine
end

