-- ==== Sys2Proof/Machine/System.lean ====
section
/-! DEFINITION. The system commands NOP, SRST, STAT.RD (45_system.md). -/

namespace Sys2Proof.Machine

/-- `NOP` (45_system.md R250). -/
def execNop (s : State) : Host.Outcome State Fault Refusal :=
  .next (respond .ok 0 s)

/-- `SRST` (45_system.md R251): the reset state, then a response. -/
def execSrst (s : State) : Host.Outcome State Fault Refusal :=
  .next (respond .ok 0 (resetBlock s))

/-- STATUS (10_state.md R41). -/
def statusRegister (s : State) : Payload :=
  field 0 s.ftLen ||| field 10 (BitVec.ofBool s.treeValid) ||| field 11 (BitVec.ofBool s.codesValid) |||
  field 12 (sessionCode s.encState) ||| field 14 (sessionCode s.decState) ||| field 16 (BitVec.ofBool s.encDry) |||
  field 17 s.pkN ||| field 20 s.pkAcc

/-- TREE (10_state.md R43). -/
def treeRegister (s : State) : Payload := field 0 s.root ||| field 10 s.nodeCnt

/-- The status register selected, laid out as 10_state.md R40 to R44 say. -/
def readStatReg (s : State) : StatReg → Payload
  | .id => field 0 Config.idValue
  | .status => statusRegister s
  | .err => field 0 s.err
  | .tree => treeRegister s
  | .encBits => field 0 s.encBitcnt
  | .decCnt => field 0 s.decCnt
  | .decBits => field 0 s.decBitcnt
  | .decCur => field 0 s.decCur

/-- `STAT.RD sel` (45_system.md R254). -/
def execStatRd (sel : Nat) (s : State) : Host.Outcome State Fault Refusal :=
  match statRegOf sel with
  | none => .next (fail .arg s)
  | some r => .next (respond .ok (readStatReg s r) s)

end Sys2Proof.Machine
end

