-- ==== Sys2Proof/Machine/Dispatch.lean ====
section
/-! DEFINITION. `exec`: one arm per command, each one call of the command's meaning. -/

namespace Sys2Proof.Machine

def exec (i : Instr) (s : State) : Host.Outcome State Fault Refusal :=
  match i with
  | .nop => Sys2Proof.Machine.execNop s
  | .srst => Sys2Proof.Machine.execSrst s
  | .statRd sel => Sys2Proof.Machine.execStatRd sel s
  | .ftClr => Sys2Proof.Machine.execFtClr s
  | .ftPut a d => Sys2Proof.Machine.execFtPut a d s
  | .ftGet a => Sys2Proof.Machine.execFtGet a s
  | .ftRd a => Sys2Proof.Machine.execFtRd a s
  | .tbBuild => Sys2Proof.Machine.execTbBuild s
  | .treeFree => Sys2Proof.Machine.execTreeFree s
  | .nmRd sel a => Sys2Proof.Machine.execNmRd sel a s
  | .ctGen => Sys2Proof.Machine.execCtGen s
  | .ctRd sel a => Sys2Proof.Machine.execCtRd sel a s
  | .encStart sel => Sys2Proof.Machine.execEncStart sel s
  | .encPut d => Sys2Proof.Machine.execEncPut d s
  | .encFin => Sys2Proof.Machine.execEncFin s
  | .decStart => Sys2Proof.Machine.execDecStart s
  | .decBit d => Sys2Proof.Machine.execDecBit d s
  | .decByte d => Sys2Proof.Machine.execDecByte d s
  | .decEof => Sys2Proof.Machine.execDecEof s

end Sys2Proof.Machine
end

