-- ==== Sys2Proof/Machine/Accept.lean ====
section
/-! DEFINITION. What one host event does: a command word is decoded and executed, or a reset happens
(00_scope.md R7, 30_encoding.md R97, 70_reset_and_hazards.md R300, R302). -/

namespace Sys2Proof.Machine

/-- A command word is accepted: the command it decodes to runs; an illegal word is answered `ERR_ILL` (30_encoding.md
R97). -/
def runWord (w : Word) (s : State) : Host.Outcome State Fault Refusal :=
  match decode w with
  | .instr i => exec i s
  | .illegal _ => .next (illegalWord s)

/-- One host event. Reset gives no response (70_reset_and_hazards.md R300); during a command it abandons the command
(R302). -/
def runEvent (e : HostEvent) (s : State) : Host.Outcome State Fault Refusal :=
  match e with
  | .command w => runWord w s
  | .reset => .next (resetBlock s)
  | .resetDuring w nEnc nDec nTap =>
    match runWord w s with
    | .next t => .next (resetMidCommand s t nEnc nDec nTap)
    | .fault f => .fault f
    | .refused r => .refused r

/-- The commands of a list, one after another (20_memory.md R70). -/
def execList : List Instr → State → Host.Outcome State Fault Refusal
  | [], s => .next s
  | i :: is, s =>
    match exec i s with
    | .next t => execList is t
    | .fault f => .fault f
    | .refused r => .refused r

end Sys2Proof.Machine
end

