-- ==== Sys2Proof/Machine/Step.lean ====
section
/-! DEFINITION. One step: the next host event, taken from the front of `inputs` (00_scope.md R7, 20_memory.md R70). -/

namespace Sys2Proof.Machine

/-- One step of the machine. With no event pending the block is idle and keeps all its state (60_exceptions.md R288;
log entry 2, DEDUCED). -/
def step (s : State) : Host.Outcome State Fault Refusal :=
  match s.inputs with
  | [] => .next s
  | e :: rest => runEvent e { s with inputs := rest }

/-- `s` with the command word of these bits as the next one the command port accepts (log entry 1, DESIGN CHOICE). -/
def State.withFetchWord (s : State) (nbits w : Nat) : State :=
  { s with inputs := .command (BitVec.ofNat 64 (w % 2 ^ nbits)) :: s.inputs }

end Sys2Proof.Machine
end

