-- ==== Sys2Proof/Safety.lean ====
section
/-! DEFINITION. The terms the statements use: the invariants of 10_state.md as one decidable predicate `State.Inv`, the
operand ranges (30_encoding.md R95) and phases (70_reset_and_hazards.md R307) as tables, and paths in the tree. A safe
run is one in which every event is answered with a next state and `Inv` holds. -/

namespace Sys2Proof.Machine

/-! ### The invariants -/

/-- FT (10_state.md R26): exactly the positions below `ft_len` hold a record; (a) keys unique; (b) counts positive;
(c) symbols at most 256; (d) at most 257 entries. -/
abbrev State.FtOk (s : State) : Prop :=
  s.ft.map Prod.fst = List.range s.ftLen.toNat ∧
  (s.ft.map (fun c => c.2.sym)).Nodup ∧
  (∀ c ∈ s.ft, c.2.count ≠ 0) ∧
  (∀ c ∈ s.ft, c.2.sym.toNat ≤ 256) ∧
  s.ftLen.toNat ≤ 257

/-- The weight of node `i`, 0 where no node is. -/
def weightAt (nm : Memory Node) (i : Nat) : Nat :=
  match nm.read i with
  | some n => n.weight.toNat
  | none => 0

/-- The children of a node: none of a leaf, `zero` and `one` of an internal node (10_state.md R31). -/
def childrenOf (n : Node) : List Nat := if n.isLeaf then [] else [n.zero.toNat, n.one.toNat]

/-- The sum of all counts in FT. -/
def countSum (ft : Memory FtRec) : Nat := (ft.map (fun c => c.2.count.toNat)).sum

/-- The leaf of an FT entry as 10_state.md R32 (b) gives it: the symbol, the count zero-extended, `zero = one = NIL`. -/
abbrev leafRecord (r : FtRec) : Node := { weight := r.count.setWidth 41, sym := r.sym, zero := 0x3FF, one := 0x3FF }

/-- NM while a tree lives (10_state.md R32), n being `ft_len`, which is frozen while the tree lives (R26 (e)):
(a) `node_cnt = 2n - 1`, n at least 1, and exactly those nodes hold a record; (b) indices below n are the leaves of FT's
entries, each with the entry's symbol, its count zero-extended, and both links `NIL`; (c) the others are internal, each weighing exactly what its two children weigh; (d) children are older;
(e) every index but the root is a child exactly once; (f) the root is the last node; (g) it weighs the sum of all counts. -/
abbrev State.TreeOk (s : State) : Prop :=
  1 ≤ s.ftLen.toNat ∧
  s.nodeCnt.toNat = 2 * s.ftLen.toNat - 1 ∧
  s.root.toNat = s.nodeCnt.toNat - 1 ∧
  s.nm.map Prod.fst = List.range s.nodeCnt.toNat ∧
  (∀ c ∈ s.nm, c.1 < s.ftLen.toNat → (s.ft.read c.1).map leafRecord = some c.2) ∧
  (∀ c ∈ s.nm, s.ftLen.toNat ≤ c.1 → c.2.sym = 257 ∧ c.2.zero.toNat < c.1 ∧ c.2.one.toNat < c.1 ∧
    c.2.weight.toNat = weightAt s.nm c.2.zero.toNat + weightAt s.nm c.2.one.toNat) ∧
  (s.nm.flatMap (fun c => childrenOf c.2)).Perm (List.range s.root.toNat) ∧
  weightAt s.nm s.root.toNat = countSum s.ft

/-- NM while no tree lives (10_state.md R32, last sentence; R51). -/
abbrev State.NoTree (s : State) : Prop := s.nodeCnt = 0 ∧ s.root = 0x3FF ∧ s.nm = []

/-- CT (10_state.md R35): no code while `codes_valid = 0`; while it is 1, some code, each of 1 to 256 bits, none a
prefix of another, and a lone code is "0". -/
abbrev State.CtOk (s : State) : Prop :=
  Memory.wf Config.nSym s.ct ∧
  (s.codesValid = true ↔ s.ct ≠ []) ∧
  (∀ c ∈ s.ct, 1 ≤ c.2.length ∧ c.2.length ≤ Config.codeMax) ∧
  s.ct.Pairwise (fun c d => ¬ c.2 <+: d.2 ∧ ¬ d.2 <+: c.2) ∧
  (∀ c ∈ s.ct, s.ct.length = 1 → c.2 = [false])

/-- The bits waiting in the packer, oldest first (10_state.md R36). -/
def pendingBits (s : State) : List Bool := (List.range s.pkN.toNat).map (fun k => s.pkAcc.getLsbD (7 - k))

/-- The encoder: an open session has codes; the waiting bits are the bits most recently emitted and the rest of
`pk_acc` is zero (10_state.md R36); a dry session leaves the packer empty (43_encoder.md R197). -/
abbrev State.EncOk (s : State) : Prop :=
  (s.encState = .run → s.codesValid = true) ∧
  (∀ k < 8 - s.pkN.toNat, s.pkAcc.getLsbD k = false) ∧
  pendingBits s <:+ s.tapLog ∧
  (s.encDry = true → s.pkN = 0)

/-- The decoder: an open session has a live tree (44_decoder.md R233), and its cursor is the root or an internal node
(10_state.md R37). -/
abbrev State.DecOk (s : State) : Prop :=
  s.decState = .run → s.treeValid = true ∧ s.decCur.toNat < s.nodeCnt.toNat ∧
    (s.decCur = s.root ∨ (s.nm.read s.decCur.toNat).any (fun n => !n.isLeaf) = true)

/-- All invariants of the block at a command boundary; PQ is empty there (10_state.md R33) and `err` bits 0 and 7 are 0
(R42). -/
abbrev State.Inv (s : State) : Prop :=
  s.FtOk ∧
  (s.treeValid = true → s.TreeOk) ∧
  (s.treeValid = false → s.NoTree) ∧
  s.CtOk ∧ s.EncOk ∧ s.DecOk ∧
  s.pq = [] ∧
  s.err.getLsbD 0 = false ∧ s.err.getLsbD 7 = false

/-! ### Operand ranges, phases and statuses, as the spec's tables give them -/

/-- Every used operand is in its legal range (the table of 30_encoding.md R95). -/
def legalOperands (s : State) : Instr → Bool
  | .nop | .srst | .ftClr | .tbBuild | .treeFree | .ctGen | .encFin | .decStart | .decEof => true
  | .statRd sel => decide (sel ≤ 7)
  | .ftPut a d => decide (a ≤ 256) && decide (1 ≤ d)
  | .ftGet a => decide (a ≤ 256)
  | .ftRd a => decide (a < s.ftLen.toNat)
  | .nmRd sel a => decide (sel ≤ 1) && decide (a < s.nodeCnt.toNat)
  | .ctRd sel a => decide (sel ≤ 8) && decide (a ≤ 256)
  | .encStart sel => decide (sel ≤ 1)
  | .encPut d | .decByte d => decide (d ≤ 255)
  | .decBit d => decide (d ≤ 1)

/-- The phase each command needs (the table of 70_reset_and_hazards.md R307, its first five columns). -/
def phaseOk (s : State) : Instr → Bool
  | .nop | .srst | .statRd _ | .ftGet _ | .ctRd _ _ | .ftRd _ | .nmRd _ _ => true
  | .ftClr | .ftPut _ _ | .tbBuild => !s.treeValid
  | .treeFree => s.treeValid && s.decState != .run
  | .ctGen => s.treeValid && s.encState != .run
  | .encStart _ => s.codesValid
  | .encPut _ | .encFin => s.encState == .run
  | .decStart => s.treeValid
  | .decBit _ | .decByte _ => s.decState == .run
  | .decEof => s.decState == .run || s.decState == .done

/-- The command's own condition (the last column of 70_reset_and_hazards.md R307): the status it ends with when it
passes the operand and phase checks, `none` for `OK`. -/
def ownError (s : State) : Instr → Option Status
  | .tbBuild => if s.ftLen = 0 then some .empty else none
  | .encPut d => if (s.ct.read d).isNone then some .nocode else none
  | .encFin => if (s.ct.read 256).isNone then some .nocode else none
  | .decEof => if s.decState = .run then some .trunc else none
  | .nop | .srst | .statRd _ | .ftClr | .ftPut _ _ | .ftGet _ | .ftRd _ | .treeFree | .nmRd _ _ | .ctGen | .ctRd _ _
  | .encStart _ | .decStart | .decBit _ | .decByte _ => none

/-- The error statuses each command can end with (the table of 60_exceptions.md R271). -/
def possibleErrors : Instr → List Status
  | .nop | .srst => []
  | .statRd _ | .ftGet _ | .ftRd _ | .nmRd _ _ | .ctRd _ _ => [.arg]
  | .ftClr | .treeFree | .ctGen | .decStart => [.state]
  | .ftPut _ _ | .encStart _ | .decBit _ | .decByte _ => [.arg, .state]
  | .tbBuild => [.state, .empty]
  | .encPut _ => [.arg, .state, .nocode]
  | .encFin => [.state, .nocode]
  | .decEof => [.state, .trunc]

/-! ### Answers -/

/-- `s` with one more response word. -/
def answered (w : Word) (s : State) : State := { s with rspLog := s.rspLog ++ [w] }

/-- The effect of an error with status code `k`: the response word `k` over 56 zero bits, and bit `k` of `err`
(60_exceptions.md R274 (a), (b)). -/
def erred (k : Nat) (s : State) : State :=
  { s with rspLog := s.rspLog ++ [BitVec.ofNat 64 (k * 2 ^ 56)], err := s.err ||| BitVec.ofNat 8 (2 ^ k) }

/-- The status of a response word, bits 63:56 (30_encoding.md R93). -/
def statusOf (w : Word) : Nat := w.toNat / 2 ^ 56

/-- From `s` to `t` exactly `n` commands were answered, every one with status `OK` (60_exceptions.md R275). -/
abbrev AnsweredOk (s t : State) (n : Nat) : Prop :=
  ∃ rsps, t.rspLog = s.rspLog ++ rsps ∧ rsps.length = n ∧ ∀ r ∈ rsps, statusOf r = 0

/-! ### Packed bits -/

/-- Bit number `j` of a packed stream: bit `7 - (j mod 8)` of byte number `j div 8` (20_memory.md R62). -/
def packedBit (bytes : List Byte) (j : Nat) : Option Bool := (bytes[j / 8]?).map (fun v => v.getLsbD (7 - j % 8))

/-- The bytes carry the bits `B` in order, and zeros after them (20_memory.md R62, R63). -/
abbrev PacksTo (B : List Bool) (bytes : List Byte) : Prop :=
  ∀ j < 8 * bytes.length, packedBit bytes j = some (B.getD j false)

/-- The bits of a byte as `DEC.BYTE` presents them: `v[7]` first (20_memory.md R64). -/
def presentedBits (v : Byte) : List Bool :=
  [v.getLsbD 7, v.getLsbD 6, v.getLsbD 5, v.getLsbD 4, v.getLsbD 3, v.getLsbD 2, v.getLsbD 1, v.getLsbD 0]

/-! ### Paths -/

/-- The node reached from node `i` by a bit sequence, 0 taking `zero` and 1 taking `one`; nothing lies below a leaf
(42_code_table.md R172, 44_decoder.md R224). -/
def follow (nm : Memory Node) : Nat → List Bool → Option Nat
  | i, [] => if (nm.read i).isSome then some i else none
  | i, b :: bs =>
    match nm.read i with
    | none => none
    | some n => if n.isLeaf then none else follow nm (if b then n.one.toNat else n.zero.toNat) bs

/-! ### The order of the merges -/

/-- The nodes below index `k` that are the child of no node below `k`: the roots the builder holds when it makes node
`k` (41_tree_builder.md R144 to R146). -/
def rootsBefore (nm : Memory Node) (k : Nat) : List Nat :=
  (List.range k).filter (fun i => decide (i ∉ (nm.filter (fun c => decide (c.1 < k))).flatMap (fun c => childrenOf c.2)))

/-- Node `i` comes out of the queue before node `j`: lower weight first, and at equal weight the node created earlier
(41_tree_builder.md R140). -/
abbrev outBefore (nm : Memory Node) (i j : Nat) : Prop :=
  weightAt nm i < weightAt nm j ∨ (weightAt nm i = weightAt nm j ∧ i < j)

/-- The children of the internal node `n` made at index `k` are the first root out of the queue, as `zero`, and the
second, as `one` (41_tree_builder.md R145). -/
abbrev MergesTheLeast (nm : Memory Node) (k : Nat) (n : Node) : Prop :=
  n.zero.toNat ∈ rootsBefore nm k ∧ n.one.toNat ∈ rootsBefore nm k ∧ n.zero ≠ n.one ∧
  (∀ j ∈ rootsBefore nm k, j ≠ n.zero.toNat → outBefore nm n.zero.toNat j) ∧
  (∀ j ∈ rootsBefore nm k, j ≠ n.zero.toNat → j ≠ n.one.toNat → outBefore nm n.one.toNat j)

/-- The commands of an encode session over the bytes `x` (70_reset_and_hazards.md R306). -/
def encodeSession (mode : Nat) (x : List Byte) : List Instr :=
  .encStart mode :: (x.map (fun v => .encPut v.toNat) ++ [.encFin])

/-- The commands of a decode session over the body bytes `body` (70_reset_and_hazards.md R306). -/
def decodeSession (body : List Byte) : List Instr :=
  .decStart :: body.map (fun v => .decByte v.toNat)

/-- The bits a session over `x` emits: the codes of its bytes, then the code of the end marker (43_encoder.md R198);
`none` when one has no code. -/
def sessionBits (ct : Memory Code) : List Byte → Option (List Bool)
  | [] => ct.read 256
  | v :: x =>
    match ct.read v.toNat, sessionBits ct x with
    | some c, some rest => some (c ++ rest)
    | _, _ => none

end Sys2Proof.Machine
end

