-- ==== Sys2Proof/Certificates/Slice0/Obligations.lean ====
section
/-! DEFINITION. The statements about HTB, from the numbered rules of spec/. -/

open Sys2Proof Sys2Proof.Machine

/-! ### Encoding -/

/-- Decoding an encoded command gives it back, every operand at every value its field admits (30_encoding.md R91, R92,
R96). -/
def Obligations.DecodeOfEncodeIsTheCommand : Prop :=
  ∀ i : Instr, i.wellFormed = true → decode (encode i) = .instr i

/-- A word that decodes to a command is that command's only word: decoding drops no bit (30_encoding.md R92, R96). -/
def Obligations.DecodedWordIsTheEncoding : Prop :=
  ∀ (w : Word) (i : Instr), decode w = .instr i → i.wellFormed = true ∧ encode i = w

/-- 30_encoding.md R92: a word is the command of a row exactly when its masked bits equal the row's opcode over zeros,
and a word that matches no row is illegal. -/
def Obligations.DecodeIsMaskAndMatch : Prop :=
  ∀ w : Word,
    (∀ r ∈ rows, w &&& r.format.mask = BitVec.ofNat 64 (r.opcode * 2 ^ 56) ↔ decode w = .instr (r.build (fieldsOf w))) ∧
    ((∀ r ∈ rows, w &&& r.format.mask ≠ BitVec.ofNat 64 (r.opcode * 2 ^ 56)) → ∃ why, decode w = .illegal why)

/-- For each of the 19 rows of the opcode map (30_encoding.md R96) a command word, written out from the layout of
30_encoding.md R91 and the words of R101 and 95_test_vectors.md, decodes to the command it stands for; and two illegal
words, a must-be-zero field that is not zero and an unassigned opcode, are illegal. -/
def Obligations.WordsOfTheSpecDecode : Prop :=
  decode 0x0000000000000000 = .instr .nop ∧
  decode 0x0100000000000000 = .instr .srst ∧
  decode 0x0203000000000000 = .instr (.statRd 3) ∧
  decode 0x1000000000000000 = .instr .ftClr ∧
  decode 0x1100006100000003 = .instr (.ftPut 97 3) ∧
  decode 0x1100010000000001 = .instr (.ftPut 256 1) ∧
  decode 0x1200010000000000 = .instr (.ftGet 256) ∧
  decode 0x1300000200000000 = .instr (.ftRd 2) ∧
  decode 0x2000000000000000 = .instr .tbBuild ∧
  decode 0x2100000000000000 = .instr .treeFree ∧
  decode 0x2201000400000000 = .instr (.nmRd 1 4) ∧
  decode 0x3000000000000000 = .instr .ctGen ∧
  decode 0x3101010000000000 = .instr (.ctRd 1 256) ∧
  decode 0x4001000000000000 = .instr (.encStart 1) ∧
  decode 0x4100000000000062 = .instr (.encPut 98) ∧
  decode 0x4200000000000000 = .instr .encFin ∧
  decode 0x5000000000000000 = .instr .decStart ∧
  decode 0x5100000000000001 = .instr (.decBit 1) ∧
  decode 0x52000000000000E2 = .instr (.decByte 0xE2) ∧
  decode 0x5300000000000000 = .instr .decEof ∧
  decode 0x1101006100000003 = .illegal (.mbzField 0x11) ∧
  decode 0x0300000000000000 = .illegal (.unknownOpcode 3)

/-! ### Steps, resets, illegal words -/

/-- A step runs the command the next accepted word decodes to, on the state with that word taken (00_scope.md R7,
20_memory.md R70). -/
def Obligations.StepRunsTheDecodedCommand : Prop :=
  ∀ (s : State) (w : Word) (rest : List HostEvent) (i : Instr),
    s.inputs = .command w :: rest → decode w = .instr i → step s = exec i { s with inputs := rest }

/-- 30_encoding.md R97: a word whose opcode is none of the 19, or that has a non-zero bit in a must-be-zero field of its
format, is answered `ERR_ILL` with a zero payload, sets `err` bit 1, and changes nothing else. -/
def Obligations.IllegalWordAnswersErrIll : Prop :=
  ∀ (s : State) (w : Word) (rest : List HostEvent),
    s.inputs = .command w :: rest →
    ((∀ r ∈ rows, r.opcode ≠ w.toNat / 2 ^ 56) ∨
      (∃ r ∈ rows, r.opcode = w.toNat / 2 ^ 56 ∧
        ((r.format.usesSel = false ∧ w.toNat / 2 ^ 48 % 2 ^ 8 ≠ 0) ∨
         (r.format.usesA = false ∧ w.toNat / 2 ^ 32 % 2 ^ 16 ≠ 0) ∨
         (r.format.usesD = false ∧ w.toNat % 2 ^ 32 ≠ 0)))) →
    step s = .next { s with inputs := rest, rspLog := s.rspLog ++ [0x0100000000000000], err := s.err ||| 0x02 }

/-- With no event pending the block keeps all its state (60_exceptions.md R288; the model's own stutter, log entry 2). -/
def Obligations.IdleBlockKeepsItsState : Prop :=
  ∀ s : State, s.inputs = [] → step s = .next s

/-- The reset input between two commands: every register at the value 10_state.md R50 gives, PQ empty, no code valid,
no response, and the logs unchanged (70_reset_and_hazards.md R300). That FT and NM list no record is the model's form of
R51's unspecified storage (log entry 4). -/
def Obligations.ResetInputGivesTheResetState : Prop :=
  ∀ (s : State) (rest : List HostEvent), s.inputs = .reset :: rest →
    step s = .next
      { ftLen := 0, treeValid := false, nodeCnt := 0, root := 0x3FF, codesValid := false,
        encState := .idle, encDry := false, encBitcnt := 0, pkN := 0, pkAcc := 0,
        decState := .idle, decCur := 0x3FF, decCnt := 0, decBitcnt := 0, err := 0,
        ft := [], nm := [], ct := [], pq := [],
        rspLog := s.rspLog, encOut := s.encOut, decOut := s.decOut, tapLog := s.tapLog, inputs := rest }

/-- 70_reset_and_hazards.md R302: reset during a command gives the reset state, with no response; of the bytes and bits
the command would have appended a prefix has been delivered, as long as the event says (log entry 3) or all. -/
def Obligations.ResetDuringCommandDeliversAPrefix : Prop :=
  ∀ (s t : State) (w : Word) (nEnc nDec nTap : Nat) (rest : List HostEvent),
    s.inputs = .resetDuring w nEnc nDec nTap :: rest →
    step { s with inputs := .command w :: rest } = .next t →
    ∃ u, step s = .next u ∧
      s.encOut <+: u.encOut ∧ u.encOut <+: t.encOut ∧ u.encOut.length = min (s.encOut.length + nEnc) t.encOut.length ∧
      s.decOut <+: u.decOut ∧ u.decOut <+: t.decOut ∧ u.decOut.length = min (s.decOut.length + nDec) t.decOut.length ∧
      s.tapLog <+: u.tapLog ∧ u.tapLog <+: t.tapLog ∧ u.tapLog.length = min (s.tapLog.length + nTap) t.tapLog.length ∧
      u = { State.reset with
        rspLog := s.rspLog, encOut := u.encOut, decOut := u.decOut, tapLog := u.tapLog, inputs := rest }

/-- 70_reset_and_hazards.md R301: `SRST` and the reset input give the same state but for the response, and no
information from before survives: two blocks with equal logs and pending events are equal after either. -/
def Obligations.NothingSurvivesAReset : Prop :=
  ∀ (s u : State) (rest : List HostEvent),
    s.inputs = .reset :: rest → u.inputs = rest →
    s.rspLog = u.rspLog → s.encOut = u.encOut → s.decOut = u.decOut → s.tapLog = u.tapLog →
    ∃ t, step s = .next t ∧ exec .srst u = .next (answered 0 t)

/-! ### System commands -/

/-- 45_system.md R250: `NOP` answers `OK` with payload 0 and does nothing else. -/
def Obligations.NopOnlyAnswersOk : Prop :=
  ∀ s : State, exec .nop s = .next { s with rspLog := s.rspLog ++ [0] }

/-- `SRST` sets every register to its reset value (10_state.md R50), empties PQ, makes every code invalid, keeps the
logs, and answers `OK` with payload 0 (45_system.md R251). That FT and NM list no record is log entry 4's. -/
def Obligations.SoftResetGivesTheResetState : Prop :=
  ∀ s : State, exec .srst s = .next
    { ftLen := 0, treeValid := false, nodeCnt := 0, root := 0x3FF, codesValid := false,
      encState := .idle, encDry := false, encBitcnt := 0, pkN := 0, pkAcc := 0,
      decState := .idle, decCur := 0x3FF, decCnt := 0, decBitcnt := 0, err := 0,
      ft := [], nm := [], ct := [], pq := [],
      rspLog := s.rspLog ++ [0], encOut := s.encOut, decOut := s.decOut, tapLog := s.tapLog, inputs := s.inputs }

/-- 45_system.md R254 and 10_state.md R40 to R44: `STAT.RD` answers the register selected, bit for bit, and changes
nothing else; a selector above 7 is `ERR_ARG`. The two session states of STATUS read as 0 IDLE, 1 RUN, 2 DONE, 3 FAIL
(10_state.md R23 (c)). -/
def Obligations.StatRdAnswersTheRegister : Prop :=
  (sessionCode .idle = 0 ∧ sessionCode .run = 1 ∧ sessionCode .done = 2 ∧ sessionCode .fail = 3) ∧
  ∀ s : State,
    exec (.statRd 0) s = .next (answered 0x48544201 s) ∧
    exec (.statRd 1) s = .next (answered
      (0#36 ++ s.pkAcc ++ s.pkN ++ BitVec.ofBool s.encDry ++ sessionCode s.decState ++ sessionCode s.encState ++
        BitVec.ofBool s.codesValid ++ BitVec.ofBool s.treeValid ++ s.ftLen) s) ∧
    exec (.statRd 2) s = .next (answered (0#56 ++ s.err) s) ∧
    exec (.statRd 3) s = .next (answered (0#44 ++ s.nodeCnt ++ s.root) s) ∧
    exec (.statRd 4) s = .next (answered (0#16 ++ s.encBitcnt) s) ∧
    exec (.statRd 5) s = .next (answered (0#16 ++ s.decCnt) s) ∧
    exec (.statRd 6) s = .next (answered (0#16 ++ s.decBitcnt) s) ∧
    exec (.statRd 7) s = .next (answered (0#54 ++ s.decCur) s) ∧
    ∀ sel, 7 < sel → exec (.statRd sel) s = .next (erred 2 s)

/-! ### Frequency table -/

/-- `FT.CLR` empties the table where no tree lives, and is `ERR_STATE` where one does (40_frequency_table.md R122).
That the cleared positions hold no value is log entry 4's. -/
def Obligations.FtClrEmptiesTheTable : Prop :=
  ∀ s : State,
    (s.treeValid = false → exec .ftClr s = .next (answered 0 { s with ft := [], ftLen := 0 })) ∧
    (s.treeValid = true → exec .ftClr s = .next (erred 3 s))

/-- 40_frequency_table.md R123: `FT.PUT` is the map's `put`. A new key goes to position `ft_len`; a key already present
keeps its position, which the response gives with bit 16 set; every other position is unchanged; the errors come in the
rule's order. -/
def Obligations.FtPutIsMapPut : Prop :=
  ∀ (s : State) (a d : Nat), s.Inv → d < 2 ^ 32 →
    (256 < a ∨ d = 0 → exec (.ftPut a d) s = .next (erred 2 s)) ∧
    (a ≤ 256 → 1 ≤ d → s.treeValid = true → exec (.ftPut a d) s = .next (erred 3 s)) ∧
    (a ≤ 256 → 1 ≤ d → s.treeValid = false →
      ((∀ q r, s.ft.read q = some r → r.sym ≠ BitVec.ofNat 9 a) →
        ∃ ft', exec (.ftPut a d) s = .next (answered (0#54 ++ s.ftLen) { s with ft := ft', ftLen := s.ftLen + 1 }) ∧
          ∀ q, ft'.read q =
            if q = s.ftLen.toNat then some { sym := BitVec.ofNat 9 a, count := BitVec.ofNat 32 d } else s.ft.read q) ∧
      (∀ p r, s.ft.read p = some r → r.sym = BitVec.ofNat 9 a →
        ∃ ft', exec (.ftPut a d) s =
            .next (answered (0#47 ++ 1#1 ++ 0#6 ++ BitVec.ofNat 10 p) { s with ft := ft' }) ∧
          ∀ q, ft'.read q =
            if q = p then some { sym := BitVec.ofNat 9 a, count := BitVec.ofNat 32 d } else s.ft.read q))

/-- 40_frequency_table.md R125: `FT.GET` answers count, presence bit and position of a key, all 0 for an absent key,
and changes nothing else; a symbol above 256 is `ERR_ARG`. -/
def Obligations.FtGetAnswersTheCount : Prop :=
  ∀ (s : State) (a : Nat), s.Inv →
    (a ≤ 256 → ∀ p r, s.ft.read p = some r → r.sym = BitVec.ofNat 9 a →
      exec (.ftGet a) s = .next (answered (0#21 ++ BitVec.ofNat 10 p ++ 1#1 ++ r.count) s)) ∧
    (a ≤ 256 → (∀ p r, s.ft.read p = some r → r.sym ≠ BitVec.ofNat 9 a) →
      exec (.ftGet a) s = .next (answered 0 s)) ∧
    (256 < a → exec (.ftGet a) s = .next (erred 2 s))

/-- 40_frequency_table.md R126: `FT.RD` answers the 41-bit record at a valid position and changes nothing else; any
other position is `ERR_ARG`. -/
def Obligations.FtRdAnswersTheEntry : Prop :=
  ∀ (s : State) (a : Nat), s.Inv →
    (a < s.ftLen.toNat → ∃ r, s.ft.read a = some r ∧
      exec (.ftRd a) s = .next (answered (0#23 ++ r.sym ++ r.count) s)) ∧
    (s.ftLen.toNat ≤ a → exec (.ftRd a) s = .next (erred 2 s))

/-- The map contract of 40_frequency_table.md: after a successful `FT.PUT a, d`, `FT.GET a` answers `OK` with `d`, the
presence bit, and the position that holds the key; the answer for every other key is `OK` and what it was before. -/
def Obligations.GetAfterPut : Prop :=
  ∀ (s t : State) (a d : Nat), s.Inv → a ≤ 256 → 1 ≤ d → d < 2 ^ 32 → s.treeValid = false →
    exec (.ftPut a d) s = .next t →
    (∃ p, p ≤ 256 ∧ t.ft.read p = some { sym := BitVec.ofNat 9 a, count := BitVec.ofNat 32 d } ∧
      exec (.ftGet a) t = .next (answered (0#21 ++ BitVec.ofNat 10 p ++ 1#1 ++ BitVec.ofNat 32 d) t)) ∧
    ∀ b, b ≤ 256 → b ≠ a → ∃ w, statusOf w = 0 ∧ exec (.ftGet b) s = .next (answered w s) ∧ exec (.ftGet b) t = .next (answered w t)

/-- 40_frequency_table.md R121: while a tree lives FT does not change, whatever command runs but `SRST`, and `FT.CLR` and
`FT.PUT` with legal operands are `ERR_STATE`; the reads are accepted in every phase. -/
def Obligations.FtIsFrozenWhileATreeLives : Prop :=
  ∀ s : State,
    (s.treeValid = true →
      (∀ i t, i ≠ .srst → exec i s = .next t → t.ft = s.ft ∧ t.ftLen = s.ftLen) ∧
      exec .ftClr s = .next (erred 3 s) ∧
      (∀ a d, legalOperands s (.ftPut a d) = true → exec (.ftPut a d) s = .next (erred 3 s))) ∧
    (s.Inv →
      (∀ a, legalOperands s (.ftGet a) = true → ∃ w, statusOf w = 0 ∧ exec (.ftGet a) s = .next (answered w s)) ∧
      (∀ a, legalOperands s (.ftRd a) = true → ∃ w, statusOf w = 0 ∧ exec (.ftRd a) s = .next (answered w s)))

/-! ### Tree builder -/

/-- 41_tree_builder.md R142, R140: `pq_remove_min` answers where the queue is not empty and its nodes hold records; it
removes the one member before every other in the order (weight, node index), and changes nothing else. -/
def Obligations.RemoveMinIsTheLeast : Prop :=
  ∀ b : Builder, b.pq ≠ [] → (∀ i ∈ b.pq, (b.nm.read i).isSome) →
    ∃ i x, pqRemoveMin b = .ok (i, { b with pq := b.pq.erase i }) ∧ i ∈ b.pq ∧ b.nm.read i = some x ∧
      ∀ j ∈ b.pq, ∀ y, b.nm.read j = some y → j ≠ i →
        x.weight.toNat < y.weight.toNat ∨ (x.weight = y.weight ∧ i < j)

/-- 41_tree_builder.md R145: a merge removes the two least nodes A then B and adds, at the next index, an internal node
of weight A + B with `zero` = A and `one` = B, which it queues. -/
def Obligations.MergeJoinsTheTwoLeast : Prop :=
  ∀ b c : Builder, mergeOnce b = .ok c →
    ∃ i j x y, pqRemoveMin b = .ok (i, { b with pq := b.pq.erase i }) ∧
      pqRemoveMin { b with pq := b.pq.erase i } = .ok (j, { b with pq := (b.pq.erase i).erase j }) ∧
      b.nm.read i = some x ∧ b.nm.read j = some y ∧
      c.nodeCnt = b.nodeCnt + 1 ∧
      (∀ k, c.nm.read k =
        if k = b.nodeCnt.toNat then
          some { weight := x.weight + y.weight, sym := 257, zero := BitVec.ofNat 10 i, one := BitVec.ofNat 10 j }
        else b.nm.read k) ∧
      c.pq.Perm (b.nodeCnt.toNat :: (b.pq.erase i).erase j) ∧ c.pq.length + 1 = b.pq.length

/-- `TB.BUILD` of a non-empty table where no tree lives makes a tree with every property of 10_state.md R32, its leaves
FT's entries in order (the symbol, the count zero-extended to 41 bits, both links `NIL`: R32 (b)), sets `node_cnt`, `root`, `tree_valid`, answers both, and changes nothing else; where a tree lives it is `ERR_STATE`
(41_tree_builder.md R143 to R147, R149, R153). -/
def Obligations.TbBuildMakesTheTree : Prop :=
  ∀ s : State, s.Inv →
    (s.treeValid = true → exec .tbBuild s = .next (erred 3 s)) ∧
    (s.treeValid = false → s.ftLen ≠ 0 →
      ∃ (nm' : Memory Node) (cnt root' : Index),
        cnt.toNat = 2 * s.ftLen.toNat - 1 ∧ root'.toNat = 2 * s.ftLen.toNat - 2 ∧
        exec .tbBuild s = .next (answered (0#44 ++ cnt ++ root')
          { s with nm := nm', nodeCnt := cnt, root := root', treeValid := true }) ∧
        State.TreeOk { s with nm := nm', nodeCnt := cnt, root := root', treeValid := true } ∧
        ∀ p r, s.ft.read p = some r →
          nm'.read p = some { weight := r.count.setWidth 41, sym := r.sym, zero := 0x3FF, one := 0x3FF })

/-- Every internal node of the built tree has as `zero` the first, and as `one` the second, of all the roots there were
when it was made, in the order (weight, node index): the tree is fixed by FT alone (41_tree_builder.md R140 to R146). -/
def Obligations.BuildMergesTheTwoLeastRoots : Prop :=
  ∀ s t : State, s.Inv → s.treeValid = false → s.ftLen ≠ 0 → exec .tbBuild s = .next t →
    ∀ (k : Nat) (n : Node), s.ftLen.toNat ≤ k → t.nm.read k = some n → n.sym = 257 ∧ MergesTheLeast t.nm k n

/-- 41_tree_builder.md R150: `TB.BUILD` with an empty table ends with `ERR_EMPTY`, sets `err` bit 4, and no tree exists
afterwards. -/
def Obligations.BuildOfAnEmptyTableMakesNoTree : Prop :=
  ∀ s : State, s.Inv → s.treeValid = false → s.ftLen = 0 →
    ∃ t, exec .tbBuild s = .next t ∧
      t = { s with rspLog := s.rspLog ++ [0x0400000000000000], err := s.err ||| 0x10 } ∧
      t.treeValid = false ∧ t.nodeCnt = 0 ∧ t.root = 0x3FF

/-- 41_tree_builder.md R148: the tree is a function of FT's content in position order, and of nothing else. -/
def Obligations.TreeDependsOnlyOnFt : Prop :=
  ∀ s u s' u' : State, s.Inv → u.Inv → s.treeValid = false → u.treeValid = false →
    s.ft = u.ft → s.ftLen = u.ftLen →
    exec .tbBuild s = .next s' → exec .tbBuild u = .next u' →
    s'.nm = u'.nm ∧ s'.nodeCnt = u'.nodeCnt ∧ s'.root = u'.root ∧ s'.treeValid = u'.treeValid

/-- The depth of any node of a live tree is at most n - 1, so at most 256 (10_state.md R32 (i)). -/
def Obligations.TreeDepthIsBounded : Prop :=
  ∀ (s : State) (path : List Bool) (j : Nat), s.Inv → s.treeValid = true →
    follow s.nm s.root.toNat path = some j → path.length ≤ s.ftLen.toNat - 1 ∧ path.length ≤ 256

/-- `TREE.FREE` releases a live tree under no open decode and answers the number of nodes; with no tree, or under an open
decode, it is `ERR_STATE` (41_tree_builder.md R155). That the nodes then hold no value is log entry 4's. -/
def Obligations.TreeFreeReleasesTheTree : Prop :=
  ∀ s : State,
    (s.treeValid = true → s.decState ≠ .run → exec .treeFree s = .next (answered (0#54 ++ s.nodeCnt)
      { s with nm := [], nodeCnt := 0, root := 0x3FF, treeValid := false })) ∧
    (s.treeValid = false ∨ s.decState = .run → exec .treeFree s = .next (erred 3 s))

/-- 41_tree_builder.md R157: `NM.RD` answers the weight, or the symbol and links, of a valid node and changes nothing
else; a selector above 1 or an index from `node_cnt` up is `ERR_ARG`. That an internal node's symbol, `SYM_INT`, is
answered follows R157 against a sentence of 10_state.md R24 (the model's choice between the two, log entry 17). -/
def Obligations.NmRdAnswersTheNode : Prop :=
  ∀ (s : State) (sel a : Nat), s.Inv →
    (a < s.nodeCnt.toNat → ∃ n, s.nm.read a = some n ∧
      exec (.nmRd 0 a) s = .next (answered (0#23 ++ n.weight) s) ∧
      exec (.nmRd 1 a) s = .next (answered (0#35 ++ n.sym ++ n.zero ++ n.one) s)) ∧
    (1 < sel ∨ s.nodeCnt.toNat ≤ a → exec (.nmRd sel a) s = .next (erred 2 s))

/-! ### Code table -/

/-- 42_code_table.md R171: `CT.GEN` where a tree lives and no encode session is open makes the codes of a tree of two or
more leaves exactly the root-to-leaf paths (R172), the code of a single leaf "0" (R174), and no other code; it answers the
number of leaves, and nothing else changes. With no tree, or under an open encode, it is `ERR_STATE`. -/
def Obligations.CtGenMakesThePathsTheCodes : Prop :=
  ∀ s : State, s.Inv →
    (s.treeValid = false ∨ s.encState = .run → exec .ctGen s = .next (erred 3 s)) ∧
    (s.treeValid = true → s.encState ≠ .run →
      ∃ ct', exec .ctGen s = .next (answered (0#54 ++ s.ftLen) { s with ct := ct', codesValid := true }) ∧
        ct'.length = s.ftLen.toNat ∧
        (s.ftLen.toNat = 1 → ∀ k c, ct'.read k = some c ↔
          c = [false] ∧ ∃ n, s.nm.read s.root.toNat = some n ∧ n.sym.toNat = k) ∧
        (2 ≤ s.ftLen.toNat → ∀ k c, ct'.read k = some c ↔
          ∃ j n, follow s.nm s.root.toNat c = some j ∧ s.nm.read j = some n ∧ n.isLeaf = true ∧ n.sym.toNat = k))

/-- 42_code_table.md R175: `CT.RD` answers valid bit and length, or 32 code bits with path bit `32 j` lowest; zeros for a
symbol with no code; `ERR_ARG` for a selector above 8 or a symbol above 256; it changes nothing else. -/
def Obligations.CtRdAnswersTheCode : Prop :=
  ∀ (s : State) (sel a : Nat), s.Inv →
    (sel ≤ 8 → a ≤ 256 → s.ct.read a = none → exec (.ctRd sel a) s = .next (answered 0 s)) ∧
    (a ≤ 256 → ∀ c, s.ct.read a = some c →
      exec (.ctRd 0 a) s = .next (answered (0#54 ++ 1#1 ++ BitVec.ofNat 9 c.length) s) ∧
      ∀ j ≤ 7, ∃ chunk : BitVec 32, exec (.ctRd (j + 1) a) s = .next (answered (0#32 ++ chunk) s) ∧
        ∀ m < 32, chunk.getLsbD m = c.getD (32 * j + m) false) ∧
    (8 < sel ∨ 256 < a → exec (.ctRd sel a) s = .next (erred 2 s))

/-! ### Encoder -/

/-- 43_encoder.md R192: `ENC.START` opens a session in any session state where a code table is valid, clearing the
counter and the packer; the errors come in the rule's order. -/
def Obligations.EncStartOpensASession : Prop :=
  ∀ (s : State) (sel : Nat),
    (1 < sel → exec (.encStart sel) s = .next (erred 2 s)) ∧
    (sel ≤ 1 → s.codesValid = false → exec (.encStart sel) s = .next (erred 3 s)) ∧
    (sel ≤ 1 → s.codesValid = true → exec (.encStart sel) s = .next (answered 0
      { s with encDry := sel == 1, encBitcnt := 0, pkAcc := 0, pkN := 0, encState := .run }))

/-- 43_encoder.md R193: `ENC.PUT` of a byte with a code emits the whole code in order to the tap, counts it, and in live
mode packs it behind the waiting bits, whole bytes going out most significant bit first (R195); it answers the length and
changes nothing else. The errors come in the rule's order, and a byte without a code ends the session in FAIL. -/
def Obligations.EncPutEmitsTheCode : Prop :=
  ∀ (s : State) (d : Nat), s.Inv →
    (255 < d → exec (.encPut d) s = .next (erred 2 s)) ∧
    (d ≤ 255 → s.encState ≠ .run → exec (.encPut d) s = .next (erred 3 s)) ∧
    (d ≤ 255 → s.encState = .run → s.ct.read d = none →
      exec (.encPut d) s = .next (erred 5 { s with encState := .fail })) ∧
    (d ≤ 255 → s.encState = .run → ∀ c, s.ct.read d = some c →
      ∃ (n : BitVec 3) (acc : Byte) (out : List Byte),
        exec (.encPut d) s = .next (answered (0#55 ++ BitVec.ofNat 9 c.length)
          { s with tapLog := s.tapLog ++ c, encBitcnt := s.encBitcnt + BitVec.ofNat 48 c.length,
                   pkN := n, pkAcc := acc, encOut := s.encOut ++ out }) ∧
        (s.encDry = true → n = s.pkN ∧ acc = s.pkAcc ∧ out = []) ∧
        (s.encDry = false →
          out.length = (pendingBits s ++ c).length / 8 ∧ n.toNat = (pendingBits s ++ c).length % 8 ∧
          PacksTo (pendingBits s ++ c) (out ++ [acc])))

/-- 43_encoder.md R194: `ENC.FIN` emits the end marker's code, sends the last byte if it holds a bit, its padding zero,
leaves the packer empty (R196), closes the session, and answers the session's bit count; nothing else changes. The errors
come in the rule's order, and a table without the end marker ends the session in FAIL with nothing emitted or flushed. -/
def Obligations.EncFinFlushesAndCloses : Prop :=
  ∀ s : State, s.Inv →
    (s.encState ≠ .run → exec .encFin s = .next (erred 3 s)) ∧
    (s.encState = .run → s.ct.read 256 = none → exec .encFin s = .next (erred 5 { s with encState := .fail })) ∧
    (s.encState = .run → ∀ c, s.ct.read 256 = some c →
      ∃ out : List Byte,
        exec .encFin s = .next (answered (0#16 ++ (s.encBitcnt + BitVec.ofNat 48 c.length))
          { s with tapLog := s.tapLog ++ c, encBitcnt := s.encBitcnt + BitVec.ofNat 48 c.length,
                   pkN := 0, pkAcc := 0, encOut := s.encOut ++ out, encState := .done }) ∧
        (s.encDry = true → out = []) ∧
        (s.encDry = false → out.length = ((pendingBits s ++ c).length + 7) / 8 ∧ PacksTo (pendingBits s ++ c) out))

/-- 43_encoder.md R198: a session over bytes that all have codes appends to the tap exactly the codes' bits `B`, returns
their number modulo 2^48, and in live mode appends `ceil(|B| / 8)` bytes that hold `B` most significant bit first with
zeros after it; in dry-run mode no byte. No other state changes, and every response is `OK`. -/
def Obligations.EncodeSessionProducesItsBits : Prop :=
  ∀ (s : State) (mode : Nat) (x : List Byte) (B : List Bool),
    s.codesValid = true → mode ≤ 1 → sessionBits s.ct x = some B →
    ∃ (rsps : List Word) (out : List Byte),
      execList (encodeSession mode x) s = .next
        { s with encState := .done, encDry := mode == 1, encBitcnt := BitVec.ofNat 48 B.length, pkN := 0, pkAcc := 0,
                 tapLog := s.tapLog ++ B, encOut := s.encOut ++ out,
                 rspLog := s.rspLog ++ rsps ++ [0#16 ++ BitVec.ofNat 48 B.length] } ∧
      rsps.length = x.length + 1 ∧ (∀ r ∈ rsps, statusOf r = 0) ∧
      (mode = 1 → out = []) ∧
      (mode = 0 → out.length = (B.length + 7) / 8 ∧ PacksTo B out)

/-- 43_encoder.md R197: a dry run over the same inputs gives the same tap bits, counter and responses as a live session,
and leaves `enc_out` and the packer alone. -/
def Obligations.DryRunShowsTheSameBits : Prop :=
  ∀ (s : State) (cmds : List Instr), s.codesValid = true →
    (∀ i ∈ cmds, i = .encFin ∨ ∃ d, i = .encPut d) →
    ∃ live dry, execList (.encStart 0 :: cmds) s = .next live ∧ execList (.encStart 1 :: cmds) s = .next dry ∧
      dry.tapLog = live.tapLog ∧ dry.encBitcnt = live.encBitcnt ∧ dry.rspLog = live.rspLog ∧
      dry.encState = live.encState ∧ dry.err = live.err ∧
      dry.encOut = s.encOut ∧ dry.pkAcc = 0 ∧ dry.pkN = 0

/-! ### Decoder -/

/-- 44_decoder.md R222: `DEC.START` opens a session on a live tree in any session state, cursor at the root and counters
zero; with no tree it is `ERR_STATE`. -/
def Obligations.DecStartOpensASession : Prop :=
  ∀ s : State,
    (s.treeValid = true → exec .decStart s = .next (answered 0
      { s with decCur := s.root, decCnt := 0, decBitcnt := 0, decState := .run })) ∧
    (s.treeValid = false → exec .decStart s = .next (erred 3 s))

/-- 44_decoder.md R223 to R226: a bit leads to the child of the cursor's node, or to the root itself when the root is a
leaf, its value then not examined; an internal node becomes the cursor, a literal is emitted, the end marker ends the
session, and after a leaf the cursor is the root; `DEC.BIT` answers the event and changes nothing else. The errors come in
the rule's order. -/
def Obligations.DecBitFollowsTheTree : Prop :=
  ∀ s : State, s.Inv →
    (∀ d, 1 < d → exec (.decBit d) s = .next (erred 2 s)) ∧
    (∀ d, d ≤ 1 → s.decState ≠ .run → exec (.decBit d) s = .next (erred 3 s)) ∧
    (∀ b : Bool, s.decState = .run →
      ∃ r c t n, s.nm.read s.root.toNat = some r ∧ s.nm.read s.decCur.toNat = some c ∧
        t = (if r.isLeaf then s.root.toNat else if b then c.one.toNat else c.zero.toNat) ∧
        s.nm.read t = some n ∧ n.sym.toNat ≤ 257 ∧
        (n.sym.toNat = 257 → exec (.decBit b.toNat) s = .next (answered 0
          { s with decBitcnt := s.decBitcnt + 1, decCur := BitVec.ofNat 10 t })) ∧
        (n.sym.toNat = 256 → exec (.decBit b.toNat) s = .next (answered 2
          { s with decBitcnt := s.decBitcnt + 1, decCur := s.root, decState := .done })) ∧
        (n.sym.toNat < 256 → exec (.decBit b.toNat) s = .next (answered (0#48 ++ n.sym.setWidth 8 ++ 1#8)
          { s with decBitcnt := s.decBitcnt + 1, decCur := s.root, decCnt := s.decCnt + 1,
                   decOut := s.decOut ++ [n.sym.setWidth 8] })))

/-- 44_decoder.md R227: `DEC.BYTE` is exactly up to eight `DEC.BIT` commands of `d[7]`, `d[6]`, ..., stopping after the
one that reaches the end marker, but for giving one response: bits used, literals emitted, done. The errors come in the
rule's order. -/
def Obligations.DecByteIsUpToEightBits : Prop :=
  ∀ s : State, s.Inv →
    (∀ d, 255 < d → exec (.decByte d) s = .next (erred 2 s)) ∧
    (∀ d, d ≤ 255 → s.decState ≠ .run → exec (.decByte d) s = .next (erred 3 s)) ∧
    (∀ v : Byte, s.decState = .run →
      ∃ (used : Nat) (u : State), 1 ≤ used ∧ used ≤ 8 ∧
        execList (((presentedBits v).take used).map (fun b => .decBit b.toNat)) s = .next u ∧
        (∀ k < used, ∃ m, execList (((presentedBits v).take k).map (fun b => .decBit b.toNat)) s = .next m ∧
          m.decState = .run) ∧
        (used = 8 ∨ u.decState = .done) ∧
        exec (.decByte v.toNat) s = .next (answered
          (0#55 ++ BitVec.ofBool (u.decState == .done) ++ BitVec.ofNat 4 (u.decOut.length - s.decOut.length) ++
            BitVec.ofNat 4 used)
          { u with rspLog := s.rspLog }))

/-- 44_decoder.md R228: `DEC.EOF` in an open session is `ERR_TRUNC` and ends it in FAIL; after the end marker it is `OK`
and changes nothing; with no session to end it is `ERR_STATE`. -/
def Obligations.DecEofReportsTruncation : Prop :=
  ∀ s : State,
    (s.decState = .run → exec .decEof s = .next (erred 6 { s with decState := .fail })) ∧
    (s.decState = .done → exec .decEof s = .next (answered 0 s)) ∧
    (s.decState = .idle ∨ s.decState = .fail → exec .decEof s = .next (erred 3 s))

/-- 44_decoder.md R231, the round trip: two blocks hold the same table in the same order, containing `EOS` and every byte
of `x`. The first builds its tree, makes its codes and encodes `x`, every response `OK`. A decode session on that tree, and one on the tree the
second block builds, fed the emitted bits one by one or the emitted bytes, appends exactly `x` to `dec_out`, reaches DONE
on the last bit and consumes no padding, every response `OK` (60_exceptions.md R275). -/
def Obligations.DecodeOfEncodeIsTheInput : Prop :=
  ∀ (c d : State) (x : List Byte),
    c.Inv → d.Inv → c.treeValid = false → d.treeValid = false → c.encState ≠ .run →
    c.ft = d.ft → c.ftLen = d.ftLen →
    (∃ p r, c.ft.read p = some r ∧ r.sym.toNat = 256) →
    (∀ v ∈ x, ∃ p r, c.ft.read p = some r ∧ r.sym.toNat = v.toNat) →
    ∃ c1 c2 d1 B body,
      execList [.tbBuild, .ctGen] c = .next c1 ∧
      execList (encodeSession 0 x) c1 = .next c2 ∧
      c2.tapLog = c.tapLog ++ B ∧ c2.encOut = c.encOut ++ body ∧
      c2.err = c.err ∧ AnsweredOk c c2 (x.length + 4) ∧
      exec .tbBuild d = .next d1 ∧ d1.err = d.err ∧ AnsweredOk d d1 1 ∧
      ∀ e, e = c2 ∨ e = d1 →
        ∃ e1 e2,
          execList (.decStart :: B.map (fun b => .decBit b.toNat)) e = .next e1 ∧
          execList (decodeSession body) e = .next e2 ∧
          AnsweredOk e e1 (B.length + 1) ∧ AnsweredOk e e2 (body.length + 1) ∧
          (∀ f, f = e1 ∨ f = e2 → f.decOut = e.decOut ++ x ∧ f.decState = .done ∧ f.err = e.err ∧
            f.decBitcnt = BitVec.ofNat 48 B.length ∧ f.decCnt = BitVec.ofNat 48 x.length)

/-! ### Rules of the whole machine -/

/-- 60_exceptions.md R274: a command that ends with a non-zero status has exactly three effects: the response word with
56 zero bits, the bit of `err`, and FAIL for the session of `ERR_NOCODE` or `ERR_TRUNC`. -/
def Obligations.AnErrorHasNoOtherEffect : Prop :=
  ∀ (i : Instr) (s t : State) (w : Word), exec i s = .next t → t.rspLog = s.rspLog ++ [w] → statusOf w ≠ 0 →
    statusOf w ≤ 6 ∧
    t = erred (statusOf w)
      { s with encState := (if statusOf w = 5 then .fail else s.encState),
               decState := (if statusOf w = 6 then .fail else s.decState) } ∧
    (statusOf w = 5 → i = .encFin ∨ ∃ d, i = .encPut d) ∧ (statusOf w = 6 → i = .decEof)

/-- The sticky error register (10_state.md R42, 60_exceptions.md R274): the command that ends with status `k` sets bit `k`
when `k` is not 0, and no command but `SRST` clears a bit. -/
def Obligations.ErrRecordsEveryError : Prop :=
  ∀ (i : Instr) (s t : State) (w : Word), i ≠ .srst → exec i s = .next t → t.rspLog = s.rspLog ++ [w] →
    ∀ k < 8, t.err.getLsbD k = (s.err.getLsbD k || (decide (k = statusOf w) && decide (k ≠ 0)))

/-- 30_encoding.md R94: each accepted command word, legal or not, produces exactly one response, behind those of the
earlier ones, and a reset produces none. -/
def Obligations.OneResponsePerCommand : Prop :=
  ∀ (s t : State) (e : HostEvent) (rest : List HostEvent), s.inputs = e :: rest → step s = .next t →
    (∀ w, e = .command w → ∃ r, t.rspLog = s.rspLog ++ [r]) ∧
    ((∀ w, e ≠ .command w) → t.rspLog = s.rspLog)

/-- 60_exceptions.md R271: the error statuses each command can end with; `NOP` and `SRST` can only end `OK`. -/
def Obligations.StatusesOfEachCommand : Prop :=
  ∀ (i : Instr) (s t : State) (w : Word), exec i s = .next t → t.rspLog = s.rspLog ++ [w] →
    statusOf w = 0 ∨ ∃ e ∈ possibleErrors i, (statusCode e).toNat = statusOf w

/-- The four logs only grow, whatever the event, a reset during a command included (10_state.md R45). -/
def Obligations.LogsOnlyGrow : Prop :=
  ∀ s t : State, step s = .next t →
    s.rspLog <+: t.rspLog ∧ s.encOut <+: t.encOut ∧ s.decOut <+: t.decOut ∧ s.tapLog <+: t.tapLog

/-- A read command changes no state except, when it fails, one bit of `err` (20_memory.md R68): its response aside, the
block is as before, so repeating a read that succeeded gives the same answer. -/
def Obligations.ReadsChangeNothing : Prop :=
  ∀ (i : Instr) (s t : State), (∃ a, i = .ftGet a ∨ i = .ftRd a ∨ i = .statRd a ∨ ∃ sel, i = .nmRd sel a ∨ i = .ctRd sel a) →
    exec i s = .next t →
    ∃ w, t.rspLog = s.rspLog ++ [w] ∧
      ((statusOf w = 0 ∧ t = answered w s ∧ exec i t = .next (answered w t)) ∨ (statusOf w = 2 ∧ t = erred 2 s))

/-- 10_state.md R21, its column "written by", the arrays of 20_memory.md R60 and the output streams: besides `SRST`, each
register changes only by the commands listed for it. -/
def Obligations.RegistersChangeOnlyByTheirCommands : Prop :=
  ∀ (i : Instr) (s t : State), exec i s = .next t → i ≠ .srst →
    ((i ≠ .ftClr ∧ ∀ a d, i ≠ .ftPut a d) → t.ftLen = s.ftLen ∧ t.ft = s.ft) ∧
    (i ≠ .tbBuild → i ≠ .treeFree →
      t.treeValid = s.treeValid ∧ t.nodeCnt = s.nodeCnt ∧ t.root = s.root ∧ t.nm = s.nm ∧ t.pq = s.pq) ∧
    (i ≠ .ctGen → t.codesValid = s.codesValid ∧ t.ct = s.ct) ∧
    ((∀ m, i ≠ .encStart m) → t.encDry = s.encDry ∧
      ((∀ d, i ≠ .encPut d) → i ≠ .encFin →
        t.encState = s.encState ∧ t.encBitcnt = s.encBitcnt ∧ t.pkN = s.pkN ∧ t.pkAcc = s.pkAcc)) ∧
    ((∀ d, i ≠ .encPut d) → i ≠ .encFin → t.encOut = s.encOut ∧ t.tapLog = s.tapLog) ∧
    ((∀ d, i ≠ .decBit d) → (∀ d, i ≠ .decByte d) → t.decOut = s.decOut ∧
      (i ≠ .decStart → t.decCur = s.decCur ∧ t.decCnt = s.decCnt ∧ t.decBitcnt = s.decBitcnt ∧
        (i ≠ .decEof → t.decState = s.decState))) ∧
    t.inputs = s.inputs

/-- 10_state.md R23: the session states change only along the arrows of the two state machines. -/
def Obligations.SessionsFollowTheirStateMachines : Prop :=
  ∀ (i : Instr) (s t : State) (w : Word), exec i s = .next t → t.rspLog = s.rspLog ++ [w] →
    (t.encState = s.encState ∨
      (t.encState = .run ∧ (∃ m, i = .encStart m) ∧ statusOf w = 0) ∨
      (s.encState = .run ∧ t.encState = .done ∧ i = .encFin ∧ statusOf w = 0) ∨
      (s.encState = .run ∧ t.encState = .fail ∧ (i = .encFin ∨ ∃ d, i = .encPut d) ∧ statusOf w = 5) ∨
      (t.encState = .idle ∧ i = .srst)) ∧
    (t.decState = s.decState ∨
      (t.decState = .run ∧ i = .decStart ∧ statusOf w = 0) ∨
      (s.decState = .run ∧ t.decState = .done ∧ ∃ d, i = .decBit d ∨ i = .decByte d) ∨
      (s.decState = .run ∧ t.decState = .fail ∧ i = .decEof) ∨
      (t.decState = .idle ∧ i = .srst))

/-- 20_memory.md R73: an encoder command and a decoder command share no mutable state: run in either order they give the
same block, the two responses in the order of the commands. -/
def Obligations.EncoderAndDecoderCommandsCommute : Prop :=
  ∀ (i j : Instr) (s t u : State),
    (i = .encFin ∨ ∃ d, i = .encPut d ∨ i = .encStart d) →
    (j = .decStart ∨ j = .decEof ∨ ∃ d, j = .decBit d ∨ j = .decByte d) →
    exec i s = .next t → exec j t = .next u →
    ∃ t' r q, u.rspLog = s.rspLog ++ [r, q] ∧
      exec j s = .next t' ∧ exec i t' = .next { u with rspLog := s.rspLog ++ [q, r] }

/-- 30_encoding.md R95: an operand outside its legal range makes the command end with `ERR_ARG` and no other effect, in
every phase (60_exceptions.md R273: the operand check comes before the phase check). -/
def Obligations.BadOperandIsErrArgInEveryPhase : Prop :=
  ∀ (i : Instr) (s : State), legalOperands s i = false → exec i s = .next (erred 2 s)

/-- 70_reset_and_hazards.md R307, 60_exceptions.md R273: a command with legal operands in a phase that does not accept it
ends with `ERR_STATE` and no other effect. -/
def Obligations.WrongPhaseIsErrState : Prop :=
  ∀ (i : Instr) (s : State), legalOperands s i = true → phaseOk s i = false → exec i s = .next (erred 3 s)

/-- Each command whose operands are legal (30_encoding.md R95), whose phase is right and whose own condition holds
(70_reset_and_hazards.md R307) does its work: it is answered `OK`, in every state that keeps the invariants. -/
def Obligations.AcceptedCommandCompletes : Prop :=
  ∀ (i : Instr) (s : State), s.Inv → i.wellFormed = true → legalOperands s i = true → phaseOk s i = true →
    ownError s i = none →
    ∃ t w, exec i s = .next t ∧ t.rspLog = s.rspLog ++ [w] ∧ statusOf w = 0

/-- 60_exceptions.md R273: the first check that fails decides the status: decoding, then the operands, then the phase,
then the command's own condition; a command that passes all four ends `OK`. -/
def Obligations.FirstFailingCheckDecides : Prop :=
  ∀ (s : State) (w : Word) (rest : List HostEvent), s.Inv → s.inputs = .command w :: rest →
    ∃ t r, step s = .next t ∧ t.rspLog = s.rspLog ++ [r] ∧
      statusOf r =
        match decode w with
        | .illegal _ => 1
        | .instr i =>
          if legalOperands s i = false then 2
          else if phaseOk s i = false then 3
          else match ownError s i with
            | some e => (statusCode e).toNat
            | none => 0

/-- 70_reset_and_hazards.md R305: what the reset state answers to each command. -/
def Obligations.ResetStateAnswers : Prop :=
  ∀ i : Instr, ∃ t w, exec i State.reset = .next t ∧ t.rspLog = [w] ∧
    statusOf w =
      if legalOperands State.reset i = false then 2
      else match i with
        | .nop | .srst | .statRd _ | .ftClr | .ftPut _ _ | .ftGet _ | .ctRd _ _ => 0
        | .ftRd _ | .nmRd _ _ => 2
        | .tbBuild => 4
        | .treeFree | .ctGen | .encStart _ | .encPut _ | .encFin | .decStart | .decBit _ | .decByte _ | .decEof => 3

/-- The reset state keeps the invariants (10_state.md R26, R32, R33, R35, R36, R37, R42, R50). -/
def Obligations.ResetKeepsTheInvariants : Prop := State.reset.Inv

/-- Every step keeps the invariants of 10_state.md R26, R32, R33, R35, R36, R37, R42 and 44_decoder.md R233, whatever the
host does. -/
def Obligations.StepKeepsTheInvariants : Prop :=
  ∀ s t : State, s.Inv → step s = .next t → t.Inv

/-- Every host event is answered: the machine never stops, and no command reads unspecified storage or a released node,
writes outside an array, misuses the queue or hangs (10_state.md R51, 44_decoder.md R233, 60_exceptions.md R290). That a
command ends rests, as R290 asks, on duty H6 of 70_reset_and_hazards.md R318, the host accepting every output and response
it is offered; the model builds H6 in (log entry 10, DESIGN CHOICE). -/
def Obligations.EveryEventIsAnswered : Prop :=
  ∀ s : State, s.Inv → ∃ t, step s = .next t

/-- The state after reset, register by register (10_state.md R50), at the start of a run, so with empty logs (R45; log entry
11). That FT and NM list no record is log entry 4's, and that no host event is pending is log entry 1's. -/
def Obligations.ResetStateHoldsTheResetValues : Prop :=
  State.reset =
    { ftLen := 0, treeValid := false, nodeCnt := 0, root := 0x3FF, codesValid := false,
      encState := .idle, encDry := false, encBitcnt := 0, pkN := 0, pkAcc := 0,
      decState := .idle, decCur := 0x3FF, decCnt := 0, decBitcnt := 0, err := 0,
      ft := [], nm := [], ct := [], pq := [],
      rspLog := [], encOut := [], decOut := [], tapLog := [], inputs := [] }
end

