-- ==== Sys2Proof/Laws/State.lean ====
section
/-! SUPPORT. What each named update of State does to each field: one lemma per field, so that no proof unfolds a
record update. -/

namespace Sys2Proof.Machine

/-! ### `respond` -/

@[simp] theorem respond_ftLen (st : Status) (p : Payload) (s : State) : (respond st p s).ftLen = s.ftLen := rfl
@[simp] theorem respond_treeValid (st : Status) (p : Payload) (s : State) : (respond st p s).treeValid = s.treeValid := rfl
@[simp] theorem respond_nodeCnt (st : Status) (p : Payload) (s : State) : (respond st p s).nodeCnt = s.nodeCnt := rfl
@[simp] theorem respond_root (st : Status) (p : Payload) (s : State) : (respond st p s).root = s.root := rfl
@[simp] theorem respond_codesValid (st : Status) (p : Payload) (s : State) : (respond st p s).codesValid = s.codesValid := rfl
@[simp] theorem respond_encState (st : Status) (p : Payload) (s : State) : (respond st p s).encState = s.encState := rfl
@[simp] theorem respond_encDry (st : Status) (p : Payload) (s : State) : (respond st p s).encDry = s.encDry := rfl
@[simp] theorem respond_encBitcnt (st : Status) (p : Payload) (s : State) : (respond st p s).encBitcnt = s.encBitcnt := rfl
@[simp] theorem respond_pkN (st : Status) (p : Payload) (s : State) : (respond st p s).pkN = s.pkN := rfl
@[simp] theorem respond_pkAcc (st : Status) (p : Payload) (s : State) : (respond st p s).pkAcc = s.pkAcc := rfl
@[simp] theorem respond_decState (st : Status) (p : Payload) (s : State) : (respond st p s).decState = s.decState := rfl
@[simp] theorem respond_decCur (st : Status) (p : Payload) (s : State) : (respond st p s).decCur = s.decCur := rfl
@[simp] theorem respond_decCnt (st : Status) (p : Payload) (s : State) : (respond st p s).decCnt = s.decCnt := rfl
@[simp] theorem respond_decBitcnt (st : Status) (p : Payload) (s : State) : (respond st p s).decBitcnt = s.decBitcnt := rfl
@[simp] theorem respond_err (st : Status) (p : Payload) (s : State) : (respond st p s).err = noteErr st s.err := rfl
@[simp] theorem respond_ft (st : Status) (p : Payload) (s : State) : (respond st p s).ft = s.ft := rfl
@[simp] theorem respond_nm (st : Status) (p : Payload) (s : State) : (respond st p s).nm = s.nm := rfl
@[simp] theorem respond_ct (st : Status) (p : Payload) (s : State) : (respond st p s).ct = s.ct := rfl
@[simp] theorem respond_pq (st : Status) (p : Payload) (s : State) : (respond st p s).pq = s.pq := rfl
@[simp] theorem respond_rspLog (st : Status) (p : Payload) (s : State) : (respond st p s).rspLog = s.rspLog ++ [responseWord st p] := rfl
@[simp] theorem respond_encOut (st : Status) (p : Payload) (s : State) : (respond st p s).encOut = s.encOut := rfl
@[simp] theorem respond_decOut (st : Status) (p : Payload) (s : State) : (respond st p s).decOut = s.decOut := rfl
@[simp] theorem respond_tapLog (st : Status) (p : Payload) (s : State) : (respond st p s).tapLog = s.tapLog := rfl
@[simp] theorem respond_inputs (st : Status) (p : Payload) (s : State) : (respond st p s).inputs = s.inputs := rfl

/-! ### `fail` -/

@[simp] theorem fail_ftLen (st : Status) (s : State) : (fail st s).ftLen = s.ftLen := rfl
@[simp] theorem fail_treeValid (st : Status) (s : State) : (fail st s).treeValid = s.treeValid := rfl
@[simp] theorem fail_nodeCnt (st : Status) (s : State) : (fail st s).nodeCnt = s.nodeCnt := rfl
@[simp] theorem fail_root (st : Status) (s : State) : (fail st s).root = s.root := rfl
@[simp] theorem fail_codesValid (st : Status) (s : State) : (fail st s).codesValid = s.codesValid := rfl
@[simp] theorem fail_encState (st : Status) (s : State) : (fail st s).encState = s.encState := rfl
@[simp] theorem fail_encDry (st : Status) (s : State) : (fail st s).encDry = s.encDry := rfl
@[simp] theorem fail_encBitcnt (st : Status) (s : State) : (fail st s).encBitcnt = s.encBitcnt := rfl
@[simp] theorem fail_pkN (st : Status) (s : State) : (fail st s).pkN = s.pkN := rfl
@[simp] theorem fail_pkAcc (st : Status) (s : State) : (fail st s).pkAcc = s.pkAcc := rfl
@[simp] theorem fail_decState (st : Status) (s : State) : (fail st s).decState = s.decState := rfl
@[simp] theorem fail_decCur (st : Status) (s : State) : (fail st s).decCur = s.decCur := rfl
@[simp] theorem fail_decCnt (st : Status) (s : State) : (fail st s).decCnt = s.decCnt := rfl
@[simp] theorem fail_decBitcnt (st : Status) (s : State) : (fail st s).decBitcnt = s.decBitcnt := rfl
@[simp] theorem fail_err (st : Status) (s : State) : (fail st s).err = noteErr st s.err := rfl
@[simp] theorem fail_ft (st : Status) (s : State) : (fail st s).ft = s.ft := rfl
@[simp] theorem fail_nm (st : Status) (s : State) : (fail st s).nm = s.nm := rfl
@[simp] theorem fail_ct (st : Status) (s : State) : (fail st s).ct = s.ct := rfl
@[simp] theorem fail_pq (st : Status) (s : State) : (fail st s).pq = s.pq := rfl
@[simp] theorem fail_rspLog (st : Status) (s : State) : (fail st s).rspLog = s.rspLog ++ [responseWord st 0] := rfl
@[simp] theorem fail_encOut (st : Status) (s : State) : (fail st s).encOut = s.encOut := rfl
@[simp] theorem fail_decOut (st : Status) (s : State) : (fail st s).decOut = s.decOut := rfl
@[simp] theorem fail_tapLog (st : Status) (s : State) : (fail st s).tapLog = s.tapLog := rfl
@[simp] theorem fail_inputs (st : Status) (s : State) : (fail st s).inputs = s.inputs := rfl

/-! ### `pushEnc` -/

@[simp] theorem pushEnc_ftLen (v : Byte) (s : State) : (pushEnc v s).ftLen = s.ftLen := rfl
@[simp] theorem pushEnc_treeValid (v : Byte) (s : State) : (pushEnc v s).treeValid = s.treeValid := rfl
@[simp] theorem pushEnc_nodeCnt (v : Byte) (s : State) : (pushEnc v s).nodeCnt = s.nodeCnt := rfl
@[simp] theorem pushEnc_root (v : Byte) (s : State) : (pushEnc v s).root = s.root := rfl
@[simp] theorem pushEnc_codesValid (v : Byte) (s : State) : (pushEnc v s).codesValid = s.codesValid := rfl
@[simp] theorem pushEnc_encState (v : Byte) (s : State) : (pushEnc v s).encState = s.encState := rfl
@[simp] theorem pushEnc_encDry (v : Byte) (s : State) : (pushEnc v s).encDry = s.encDry := rfl
@[simp] theorem pushEnc_encBitcnt (v : Byte) (s : State) : (pushEnc v s).encBitcnt = s.encBitcnt := rfl
@[simp] theorem pushEnc_pkN (v : Byte) (s : State) : (pushEnc v s).pkN = s.pkN := rfl
@[simp] theorem pushEnc_pkAcc (v : Byte) (s : State) : (pushEnc v s).pkAcc = s.pkAcc := rfl
@[simp] theorem pushEnc_decState (v : Byte) (s : State) : (pushEnc v s).decState = s.decState := rfl
@[simp] theorem pushEnc_decCur (v : Byte) (s : State) : (pushEnc v s).decCur = s.decCur := rfl
@[simp] theorem pushEnc_decCnt (v : Byte) (s : State) : (pushEnc v s).decCnt = s.decCnt := rfl
@[simp] theorem pushEnc_decBitcnt (v : Byte) (s : State) : (pushEnc v s).decBitcnt = s.decBitcnt := rfl
@[simp] theorem pushEnc_err (v : Byte) (s : State) : (pushEnc v s).err = s.err := rfl
@[simp] theorem pushEnc_ft (v : Byte) (s : State) : (pushEnc v s).ft = s.ft := rfl
@[simp] theorem pushEnc_nm (v : Byte) (s : State) : (pushEnc v s).nm = s.nm := rfl
@[simp] theorem pushEnc_ct (v : Byte) (s : State) : (pushEnc v s).ct = s.ct := rfl
@[simp] theorem pushEnc_pq (v : Byte) (s : State) : (pushEnc v s).pq = s.pq := rfl
@[simp] theorem pushEnc_rspLog (v : Byte) (s : State) : (pushEnc v s).rspLog = s.rspLog := rfl
@[simp] theorem pushEnc_encOut (v : Byte) (s : State) : (pushEnc v s).encOut = s.encOut ++ [v] := rfl
@[simp] theorem pushEnc_decOut (v : Byte) (s : State) : (pushEnc v s).decOut = s.decOut := rfl
@[simp] theorem pushEnc_tapLog (v : Byte) (s : State) : (pushEnc v s).tapLog = s.tapLog := rfl
@[simp] theorem pushEnc_inputs (v : Byte) (s : State) : (pushEnc v s).inputs = s.inputs := rfl

/-! ### `pushDec` -/

@[simp] theorem pushDec_ftLen (v : Byte) (s : State) : (pushDec v s).ftLen = s.ftLen := rfl
@[simp] theorem pushDec_treeValid (v : Byte) (s : State) : (pushDec v s).treeValid = s.treeValid := rfl
@[simp] theorem pushDec_nodeCnt (v : Byte) (s : State) : (pushDec v s).nodeCnt = s.nodeCnt := rfl
@[simp] theorem pushDec_root (v : Byte) (s : State) : (pushDec v s).root = s.root := rfl
@[simp] theorem pushDec_codesValid (v : Byte) (s : State) : (pushDec v s).codesValid = s.codesValid := rfl
@[simp] theorem pushDec_encState (v : Byte) (s : State) : (pushDec v s).encState = s.encState := rfl
@[simp] theorem pushDec_encDry (v : Byte) (s : State) : (pushDec v s).encDry = s.encDry := rfl
@[simp] theorem pushDec_encBitcnt (v : Byte) (s : State) : (pushDec v s).encBitcnt = s.encBitcnt := rfl
@[simp] theorem pushDec_pkN (v : Byte) (s : State) : (pushDec v s).pkN = s.pkN := rfl
@[simp] theorem pushDec_pkAcc (v : Byte) (s : State) : (pushDec v s).pkAcc = s.pkAcc := rfl
@[simp] theorem pushDec_decState (v : Byte) (s : State) : (pushDec v s).decState = s.decState := rfl
@[simp] theorem pushDec_decCur (v : Byte) (s : State) : (pushDec v s).decCur = s.decCur := rfl
@[simp] theorem pushDec_decCnt (v : Byte) (s : State) : (pushDec v s).decCnt = s.decCnt := rfl
@[simp] theorem pushDec_decBitcnt (v : Byte) (s : State) : (pushDec v s).decBitcnt = s.decBitcnt := rfl
@[simp] theorem pushDec_err (v : Byte) (s : State) : (pushDec v s).err = s.err := rfl
@[simp] theorem pushDec_ft (v : Byte) (s : State) : (pushDec v s).ft = s.ft := rfl
@[simp] theorem pushDec_nm (v : Byte) (s : State) : (pushDec v s).nm = s.nm := rfl
@[simp] theorem pushDec_ct (v : Byte) (s : State) : (pushDec v s).ct = s.ct := rfl
@[simp] theorem pushDec_pq (v : Byte) (s : State) : (pushDec v s).pq = s.pq := rfl
@[simp] theorem pushDec_rspLog (v : Byte) (s : State) : (pushDec v s).rspLog = s.rspLog := rfl
@[simp] theorem pushDec_encOut (v : Byte) (s : State) : (pushDec v s).encOut = s.encOut := rfl
@[simp] theorem pushDec_decOut (v : Byte) (s : State) : (pushDec v s).decOut = s.decOut ++ [v] := rfl
@[simp] theorem pushDec_tapLog (v : Byte) (s : State) : (pushDec v s).tapLog = s.tapLog := rfl
@[simp] theorem pushDec_inputs (v : Byte) (s : State) : (pushDec v s).inputs = s.inputs := rfl

/-! ### `resetBlock` -/

@[simp] theorem resetBlock_ftLen (s : State) : (resetBlock s).ftLen = 0 := rfl
@[simp] theorem resetBlock_treeValid (s : State) : (resetBlock s).treeValid = false := rfl
@[simp] theorem resetBlock_nodeCnt (s : State) : (resetBlock s).nodeCnt = 0 := rfl
@[simp] theorem resetBlock_root (s : State) : (resetBlock s).root = Config.nil := rfl
@[simp] theorem resetBlock_codesValid (s : State) : (resetBlock s).codesValid = false := rfl
@[simp] theorem resetBlock_encState (s : State) : (resetBlock s).encState = .idle := rfl
@[simp] theorem resetBlock_encDry (s : State) : (resetBlock s).encDry = false := rfl
@[simp] theorem resetBlock_encBitcnt (s : State) : (resetBlock s).encBitcnt = 0 := rfl
@[simp] theorem resetBlock_pkN (s : State) : (resetBlock s).pkN = 0 := rfl
@[simp] theorem resetBlock_pkAcc (s : State) : (resetBlock s).pkAcc = 0 := rfl
@[simp] theorem resetBlock_decState (s : State) : (resetBlock s).decState = .idle := rfl
@[simp] theorem resetBlock_decCur (s : State) : (resetBlock s).decCur = Config.nil := rfl
@[simp] theorem resetBlock_decCnt (s : State) : (resetBlock s).decCnt = 0 := rfl
@[simp] theorem resetBlock_decBitcnt (s : State) : (resetBlock s).decBitcnt = 0 := rfl
@[simp] theorem resetBlock_err (s : State) : (resetBlock s).err = 0 := rfl
@[simp] theorem resetBlock_ft (s : State) : (resetBlock s).ft = [] := rfl
@[simp] theorem resetBlock_nm (s : State) : (resetBlock s).nm = [] := rfl
@[simp] theorem resetBlock_ct (s : State) : (resetBlock s).ct = [] := rfl
@[simp] theorem resetBlock_pq (s : State) : (resetBlock s).pq = [] := rfl
@[simp] theorem resetBlock_rspLog (s : State) : (resetBlock s).rspLog = s.rspLog := rfl
@[simp] theorem resetBlock_encOut (s : State) : (resetBlock s).encOut = s.encOut := rfl
@[simp] theorem resetBlock_decOut (s : State) : (resetBlock s).decOut = s.decOut := rfl
@[simp] theorem resetBlock_tapLog (s : State) : (resetBlock s).tapLog = s.tapLog := rfl
@[simp] theorem resetBlock_inputs (s : State) : (resetBlock s).inputs = s.inputs := rfl

/-! ### `packBit` -/

@[simp] theorem packBit_ftLen (b : Bool) (s : State) : (packBit b s).ftLen = s.ftLen := by unfold packBit; dsimp only; split <;> rfl
@[simp] theorem packBit_treeValid (b : Bool) (s : State) : (packBit b s).treeValid = s.treeValid := by unfold packBit; dsimp only; split <;> rfl
@[simp] theorem packBit_nodeCnt (b : Bool) (s : State) : (packBit b s).nodeCnt = s.nodeCnt := by unfold packBit; dsimp only; split <;> rfl
@[simp] theorem packBit_root (b : Bool) (s : State) : (packBit b s).root = s.root := by unfold packBit; dsimp only; split <;> rfl
@[simp] theorem packBit_codesValid (b : Bool) (s : State) : (packBit b s).codesValid = s.codesValid := by unfold packBit; dsimp only; split <;> rfl
@[simp] theorem packBit_encState (b : Bool) (s : State) : (packBit b s).encState = s.encState := by unfold packBit; dsimp only; split <;> rfl
@[simp] theorem packBit_encDry (b : Bool) (s : State) : (packBit b s).encDry = s.encDry := by unfold packBit; dsimp only; split <;> rfl
@[simp] theorem packBit_encBitcnt (b : Bool) (s : State) : (packBit b s).encBitcnt = s.encBitcnt := by unfold packBit; dsimp only; split <;> rfl
@[simp] theorem packBit_decState (b : Bool) (s : State) : (packBit b s).decState = s.decState := by unfold packBit; dsimp only; split <;> rfl
@[simp] theorem packBit_decCur (b : Bool) (s : State) : (packBit b s).decCur = s.decCur := by unfold packBit; dsimp only; split <;> rfl
@[simp] theorem packBit_decCnt (b : Bool) (s : State) : (packBit b s).decCnt = s.decCnt := by unfold packBit; dsimp only; split <;> rfl
@[simp] theorem packBit_decBitcnt (b : Bool) (s : State) : (packBit b s).decBitcnt = s.decBitcnt := by unfold packBit; dsimp only; split <;> rfl
@[simp] theorem packBit_err (b : Bool) (s : State) : (packBit b s).err = s.err := by unfold packBit; dsimp only; split <;> rfl
@[simp] theorem packBit_ft (b : Bool) (s : State) : (packBit b s).ft = s.ft := by unfold packBit; dsimp only; split <;> rfl
@[simp] theorem packBit_nm (b : Bool) (s : State) : (packBit b s).nm = s.nm := by unfold packBit; dsimp only; split <;> rfl
@[simp] theorem packBit_ct (b : Bool) (s : State) : (packBit b s).ct = s.ct := by unfold packBit; dsimp only; split <;> rfl
@[simp] theorem packBit_pq (b : Bool) (s : State) : (packBit b s).pq = s.pq := by unfold packBit; dsimp only; split <;> rfl
@[simp] theorem packBit_rspLog (b : Bool) (s : State) : (packBit b s).rspLog = s.rspLog := by unfold packBit; dsimp only; split <;> rfl
@[simp] theorem packBit_decOut (b : Bool) (s : State) : (packBit b s).decOut = s.decOut := by unfold packBit; dsimp only; split <;> rfl
@[simp] theorem packBit_tapLog (b : Bool) (s : State) : (packBit b s).tapLog = s.tapLog := by unfold packBit; dsimp only; split <;> rfl
@[simp] theorem packBit_inputs (b : Bool) (s : State) : (packBit b s).inputs = s.inputs := by unfold packBit; dsimp only; split <;> rfl

/-! ### `emitBit` -/

@[simp] theorem emitBit_ftLen (b : Bool) (s : State) : (emitBit b s).ftLen = s.ftLen := by unfold emitBit; dsimp only; split <;> simp
@[simp] theorem emitBit_treeValid (b : Bool) (s : State) : (emitBit b s).treeValid = s.treeValid := by unfold emitBit; dsimp only; split <;> simp
@[simp] theorem emitBit_nodeCnt (b : Bool) (s : State) : (emitBit b s).nodeCnt = s.nodeCnt := by unfold emitBit; dsimp only; split <;> simp
@[simp] theorem emitBit_root (b : Bool) (s : State) : (emitBit b s).root = s.root := by unfold emitBit; dsimp only; split <;> simp
@[simp] theorem emitBit_codesValid (b : Bool) (s : State) : (emitBit b s).codesValid = s.codesValid := by unfold emitBit; dsimp only; split <;> simp
@[simp] theorem emitBit_encState (b : Bool) (s : State) : (emitBit b s).encState = s.encState := by unfold emitBit; dsimp only; split <;> simp
@[simp] theorem emitBit_encDry (b : Bool) (s : State) : (emitBit b s).encDry = s.encDry := by unfold emitBit; dsimp only; split <;> simp
@[simp] theorem emitBit_decState (b : Bool) (s : State) : (emitBit b s).decState = s.decState := by unfold emitBit; dsimp only; split <;> simp
@[simp] theorem emitBit_decCur (b : Bool) (s : State) : (emitBit b s).decCur = s.decCur := by unfold emitBit; dsimp only; split <;> simp
@[simp] theorem emitBit_decCnt (b : Bool) (s : State) : (emitBit b s).decCnt = s.decCnt := by unfold emitBit; dsimp only; split <;> simp
@[simp] theorem emitBit_decBitcnt (b : Bool) (s : State) : (emitBit b s).decBitcnt = s.decBitcnt := by unfold emitBit; dsimp only; split <;> simp
@[simp] theorem emitBit_err (b : Bool) (s : State) : (emitBit b s).err = s.err := by unfold emitBit; dsimp only; split <;> simp
@[simp] theorem emitBit_ft (b : Bool) (s : State) : (emitBit b s).ft = s.ft := by unfold emitBit; dsimp only; split <;> simp
@[simp] theorem emitBit_nm (b : Bool) (s : State) : (emitBit b s).nm = s.nm := by unfold emitBit; dsimp only; split <;> simp
@[simp] theorem emitBit_ct (b : Bool) (s : State) : (emitBit b s).ct = s.ct := by unfold emitBit; dsimp only; split <;> simp
@[simp] theorem emitBit_pq (b : Bool) (s : State) : (emitBit b s).pq = s.pq := by unfold emitBit; dsimp only; split <;> simp
@[simp] theorem emitBit_rspLog (b : Bool) (s : State) : (emitBit b s).rspLog = s.rspLog := by unfold emitBit; dsimp only; split <;> simp
@[simp] theorem emitBit_decOut (b : Bool) (s : State) : (emitBit b s).decOut = s.decOut := by unfold emitBit; dsimp only; split <;> simp
@[simp] theorem emitBit_inputs (b : Bool) (s : State) : (emitBit b s).inputs = s.inputs := by unfold emitBit; dsimp only; split <;> simp

@[simp] theorem emitBit_tapLog (b : Bool) (s : State) : (emitBit b s).tapLog = s.tapLog ++ [b] := by
  unfold emitBit; dsimp only; split <;> simp
@[simp] theorem emitBit_encBitcnt (b : Bool) (s : State) : (emitBit b s).encBitcnt = s.encBitcnt + 1 := by
  unfold emitBit; dsimp only; split <;> simp

/-! ### `flush` -/

@[simp] theorem flush_ftLen (s : State) : (flush s).ftLen = s.ftLen := by unfold flush; split <;> simp
@[simp] theorem flush_treeValid (s : State) : (flush s).treeValid = s.treeValid := by unfold flush; split <;> simp
@[simp] theorem flush_nodeCnt (s : State) : (flush s).nodeCnt = s.nodeCnt := by unfold flush; split <;> simp
@[simp] theorem flush_root (s : State) : (flush s).root = s.root := by unfold flush; split <;> simp
@[simp] theorem flush_codesValid (s : State) : (flush s).codesValid = s.codesValid := by unfold flush; split <;> simp
@[simp] theorem flush_encState (s : State) : (flush s).encState = s.encState := by unfold flush; split <;> simp
@[simp] theorem flush_encDry (s : State) : (flush s).encDry = s.encDry := by unfold flush; split <;> simp
@[simp] theorem flush_encBitcnt (s : State) : (flush s).encBitcnt = s.encBitcnt := by unfold flush; split <;> simp
@[simp] theorem flush_decState (s : State) : (flush s).decState = s.decState := by unfold flush; split <;> simp
@[simp] theorem flush_decCur (s : State) : (flush s).decCur = s.decCur := by unfold flush; split <;> simp
@[simp] theorem flush_decCnt (s : State) : (flush s).decCnt = s.decCnt := by unfold flush; split <;> simp
@[simp] theorem flush_decBitcnt (s : State) : (flush s).decBitcnt = s.decBitcnt := by unfold flush; split <;> simp
@[simp] theorem flush_err (s : State) : (flush s).err = s.err := by unfold flush; split <;> simp
@[simp] theorem flush_ft (s : State) : (flush s).ft = s.ft := by unfold flush; split <;> simp
@[simp] theorem flush_nm (s : State) : (flush s).nm = s.nm := by unfold flush; split <;> simp
@[simp] theorem flush_ct (s : State) : (flush s).ct = s.ct := by unfold flush; split <;> simp
@[simp] theorem flush_pq (s : State) : (flush s).pq = s.pq := by unfold flush; split <;> simp
@[simp] theorem flush_rspLog (s : State) : (flush s).rspLog = s.rspLog := by unfold flush; split <;> simp
@[simp] theorem flush_decOut (s : State) : (flush s).decOut = s.decOut := by unfold flush; split <;> simp
@[simp] theorem flush_tapLog (s : State) : (flush s).tapLog = s.tapLog := by unfold flush; split <;> simp
@[simp] theorem flush_inputs (s : State) : (flush s).inputs = s.inputs := by unfold flush; split <;> simp

/-! ### `demux` -/

@[simp] theorem demux_ftLen (sym : Sym) (s : State) : ((demux sym s).1).ftLen = s.ftLen := by unfold demux; dsimp only; split <;> rfl
@[simp] theorem demux_treeValid (sym : Sym) (s : State) : ((demux sym s).1).treeValid = s.treeValid := by unfold demux; dsimp only; split <;> rfl
@[simp] theorem demux_nodeCnt (sym : Sym) (s : State) : ((demux sym s).1).nodeCnt = s.nodeCnt := by unfold demux; dsimp only; split <;> rfl
@[simp] theorem demux_root (sym : Sym) (s : State) : ((demux sym s).1).root = s.root := by unfold demux; dsimp only; split <;> rfl
@[simp] theorem demux_codesValid (sym : Sym) (s : State) : ((demux sym s).1).codesValid = s.codesValid := by unfold demux; dsimp only; split <;> rfl
@[simp] theorem demux_encState (sym : Sym) (s : State) : ((demux sym s).1).encState = s.encState := by unfold demux; dsimp only; split <;> rfl
@[simp] theorem demux_encDry (sym : Sym) (s : State) : ((demux sym s).1).encDry = s.encDry := by unfold demux; dsimp only; split <;> rfl
@[simp] theorem demux_encBitcnt (sym : Sym) (s : State) : ((demux sym s).1).encBitcnt = s.encBitcnt := by unfold demux; dsimp only; split <;> rfl
@[simp] theorem demux_pkN (sym : Sym) (s : State) : ((demux sym s).1).pkN = s.pkN := by unfold demux; dsimp only; split <;> rfl
@[simp] theorem demux_pkAcc (sym : Sym) (s : State) : ((demux sym s).1).pkAcc = s.pkAcc := by unfold demux; dsimp only; split <;> rfl
@[simp] theorem demux_decCur (sym : Sym) (s : State) : ((demux sym s).1).decCur = s.root := by
  unfold demux; dsimp only; split <;> rfl
@[simp] theorem demux_decBitcnt (sym : Sym) (s : State) : ((demux sym s).1).decBitcnt = s.decBitcnt := by unfold demux; dsimp only; split <;> rfl
@[simp] theorem demux_err (sym : Sym) (s : State) : ((demux sym s).1).err = s.err := by unfold demux; dsimp only; split <;> rfl
@[simp] theorem demux_ft (sym : Sym) (s : State) : ((demux sym s).1).ft = s.ft := by unfold demux; dsimp only; split <;> rfl
@[simp] theorem demux_nm (sym : Sym) (s : State) : ((demux sym s).1).nm = s.nm := by unfold demux; dsimp only; split <;> rfl
@[simp] theorem demux_ct (sym : Sym) (s : State) : ((demux sym s).1).ct = s.ct := by unfold demux; dsimp only; split <;> rfl
@[simp] theorem demux_pq (sym : Sym) (s : State) : ((demux sym s).1).pq = s.pq := by unfold demux; dsimp only; split <;> rfl
@[simp] theorem demux_rspLog (sym : Sym) (s : State) : ((demux sym s).1).rspLog = s.rspLog := by unfold demux; dsimp only; split <;> rfl
@[simp] theorem demux_encOut (sym : Sym) (s : State) : ((demux sym s).1).encOut = s.encOut := by unfold demux; dsimp only; split <;> rfl
@[simp] theorem demux_tapLog (sym : Sym) (s : State) : ((demux sym s).1).tapLog = s.tapLog := by unfold demux; dsimp only; split <;> rfl
@[simp] theorem demux_inputs (sym : Sym) (s : State) : ((demux sym s).1).inputs = s.inputs := by unfold demux; dsimp only; split <;> rfl

/-! ### `emitBits` -/

@[simp] theorem emitBits_nil (s : State) : emitBits [] s = s := rfl
@[simp] theorem emitBits_cons (b : Bool) (bs : List Bool) (s : State) :
    emitBits (b :: bs) s = emitBits bs (emitBit b s) := rfl
theorem emitBits_append (bs cs : List Bool) (s : State) : emitBits (bs ++ cs) s = emitBits cs (emitBits bs s) := by
  simp [emitBits]

@[simp] theorem emitBits_ftLen (bs : List Bool) (s : State) : (emitBits bs s).ftLen = s.ftLen := by
  induction bs generalizing s with
  | nil => rfl
  | cons b bs ih => simp [ih]
@[simp] theorem emitBits_treeValid (bs : List Bool) (s : State) : (emitBits bs s).treeValid = s.treeValid := by
  induction bs generalizing s with
  | nil => rfl
  | cons b bs ih => simp [ih]
@[simp] theorem emitBits_nodeCnt (bs : List Bool) (s : State) : (emitBits bs s).nodeCnt = s.nodeCnt := by
  induction bs generalizing s with
  | nil => rfl
  | cons b bs ih => simp [ih]
@[simp] theorem emitBits_root (bs : List Bool) (s : State) : (emitBits bs s).root = s.root := by
  induction bs generalizing s with
  | nil => rfl
  | cons b bs ih => simp [ih]
@[simp] theorem emitBits_codesValid (bs : List Bool) (s : State) : (emitBits bs s).codesValid = s.codesValid := by
  induction bs generalizing s with
  | nil => rfl
  | cons b bs ih => simp [ih]
@[simp] theorem emitBits_encState (bs : List Bool) (s : State) : (emitBits bs s).encState = s.encState := by
  induction bs generalizing s with
  | nil => rfl
  | cons b bs ih => simp [ih]
@[simp] theorem emitBits_encDry (bs : List Bool) (s : State) : (emitBits bs s).encDry = s.encDry := by
  induction bs generalizing s with
  | nil => rfl
  | cons b bs ih => simp [ih]
@[simp] theorem emitBits_decState (bs : List Bool) (s : State) : (emitBits bs s).decState = s.decState := by
  induction bs generalizing s with
  | nil => rfl
  | cons b bs ih => simp [ih]
@[simp] theorem emitBits_decCur (bs : List Bool) (s : State) : (emitBits bs s).decCur = s.decCur := by
  induction bs generalizing s with
  | nil => rfl
  | cons b bs ih => simp [ih]
@[simp] theorem emitBits_decCnt (bs : List Bool) (s : State) : (emitBits bs s).decCnt = s.decCnt := by
  induction bs generalizing s with
  | nil => rfl
  | cons b bs ih => simp [ih]
@[simp] theorem emitBits_decBitcnt (bs : List Bool) (s : State) : (emitBits bs s).decBitcnt = s.decBitcnt := by
  induction bs generalizing s with
  | nil => rfl
  | cons b bs ih => simp [ih]
@[simp] theorem emitBits_err (bs : List Bool) (s : State) : (emitBits bs s).err = s.err := by
  induction bs generalizing s with
  | nil => rfl
  | cons b bs ih => simp [ih]
@[simp] theorem emitBits_ft (bs : List Bool) (s : State) : (emitBits bs s).ft = s.ft := by
  induction bs generalizing s with
  | nil => rfl
  | cons b bs ih => simp [ih]
@[simp] theorem emitBits_nm (bs : List Bool) (s : State) : (emitBits bs s).nm = s.nm := by
  induction bs generalizing s with
  | nil => rfl
  | cons b bs ih => simp [ih]
@[simp] theorem emitBits_ct (bs : List Bool) (s : State) : (emitBits bs s).ct = s.ct := by
  induction bs generalizing s with
  | nil => rfl
  | cons b bs ih => simp [ih]
@[simp] theorem emitBits_pq (bs : List Bool) (s : State) : (emitBits bs s).pq = s.pq := by
  induction bs generalizing s with
  | nil => rfl
  | cons b bs ih => simp [ih]
@[simp] theorem emitBits_rspLog (bs : List Bool) (s : State) : (emitBits bs s).rspLog = s.rspLog := by
  induction bs generalizing s with
  | nil => rfl
  | cons b bs ih => simp [ih]
@[simp] theorem emitBits_decOut (bs : List Bool) (s : State) : (emitBits bs s).decOut = s.decOut := by
  induction bs generalizing s with
  | nil => rfl
  | cons b bs ih => simp [ih]
@[simp] theorem emitBits_inputs (bs : List Bool) (s : State) : (emitBits bs s).inputs = s.inputs := by
  induction bs generalizing s with
  | nil => rfl
  | cons b bs ih => simp [ih]
@[simp] theorem emitBits_tapLog (bs : List Bool) (s : State) : (emitBits bs s).tapLog = s.tapLog ++ bs := by
  induction bs generalizing s with
  | nil => simp
  | cons b bs ih => simp [ih]
@[simp] theorem emitBits_encBitcnt (bs : List Bool) (s : State) :
    (emitBits bs s).encBitcnt = s.encBitcnt + BitVec.ofNat 48 bs.length := by
  induction bs generalizing s with
  | nil => simp
  | cons b bs ih => simp [ih, Nat.add_comm bs.length 1, ← BitVec.ofNat_add_ofNat, BitVec.add_assoc]

end Sys2Proof.Machine
end

