-- ==== Sys2Proof/Laws/Answers.lean ====
section
/-! SUPPORT. Responses: the bits of a payload field and of a response word, the status of a response, and `respond` and
`fail` in the statements' terms. -/

namespace Sys2Proof.Machine

/-- A field holds its value from bit `lo` up and zeros elsewhere. -/
theorem getLsbD_field (lo : Nat) {n : Nat} (v : BitVec n) (i : Nat) :
    (field lo v).getLsbD i = (decide (lo ≤ i) && decide (i < 56) && v.getLsbD (i - lo)) := by
  unfold field
  rw [BitVec.getLsbD_shiftLeft, BitVec.getLsbD_setWidth]
  by_cases h1 : i < 56
  · by_cases h2 : i < lo
    · simp [h1, h2]
    · have h3 : i - lo < 56 := by omega
      have h4 : lo ≤ i := by omega
      simp [h1, h2, h3, h4]
  · simp [h1]

theorem getLsbD_responseWord_ok (p : Payload) (i : Nat) : (responseWord .ok p).getLsbD i = p.getLsbD i := by
  unfold responseWord
  rw [BitVec.getLsbD_append]
  by_cases h : i < 56
  · simp [h]
  · rw [BitVec.getLsbD_of_ge p i (by omega)]
    simp [h, statusCode]

theorem toNat_responseWord (st : Status) (p : Payload) :
    (responseWord st p).toNat = (statusCode st).toNat * 2 ^ 56 + p.toNat := by
  unfold responseWord
  rw [BitVec.toNat_append, ← Nat.shiftLeft_add_eq_or_of_lt p.isLt, Nat.shiftLeft_eq]

@[simp] theorem statusOf_responseWord (st : Status) (p : Payload) :
    statusOf (responseWord st p) = (statusCode st).toNat := by
  have := p.isLt
  unfold statusOf
  rw [toNat_responseWord]
  omega

theorem statusCode_toNat_le (st : Status) : (statusCode st).toNat ≤ 6 := by cases st <;> decide

theorem statusCode_eq_zero_iff (st : Status) : (statusCode st).toNat = 0 ↔ st = .ok := by cases st <;> decide

/-- `OK` with payload `p` in the statements' terms: one response word and nothing else. -/
theorem respond_ok (p : Payload) (s : State) : respond .ok p s = answered (responseWord .ok p) s := rfl

theorem responseWord_ok_zero : responseWord .ok 0 = 0 := by decide

theorem respond_ok_zero (s : State) : respond .ok 0 s = answered 0 s := rfl

/-- `fail` in the statements' terms. -/
theorem fail_eq_erred {st : Status} (h : st ≠ .ok) (s : State) : fail st s = erred (statusCode st).toNat s := by
  cases st <;> first | exact absurd rfl h | rfl

theorem fail_arg (s : State) : fail .arg s = erred 2 s := rfl
theorem fail_state (s : State) : fail .state s = erred 3 s := rfl
theorem fail_ill (s : State) : fail .ill s = erred 1 s := rfl
theorem fail_empty (s : State) : fail .empty s = erred 4 s := rfl
theorem fail_nocode (s : State) : fail .nocode s = erred 5 s := rfl
theorem fail_trunc (s : State) : fail .trunc s = erred 6 s := rfl

/-- A command's result is a next state exactly when no read or write of it stopped. -/
theorem finish_next {r : Except Fault State} {t : State} : finish r = .next t ↔ r = .ok t := by
  cases r <;> simp [finish]

theorem finish_ok (t : State) : finish (.ok t) = .next t := rfl

end Sys2Proof.Machine
end

