-- ==== Sys2Proof/Laws/Memory.lean ====
section
/-! SUPPORT. The laws of the record arrays: a read after a write, the canonical form is kept, and what an array whose
indices are 0 to `n - 1` reads as. -/

namespace Sys2Proof.Machine

variable {α : Type}

@[simp] theorem Memory.read_nil (i : Nat) : Memory.read ([] : Memory α) i = none := rfl

theorem Memory.read_cons (k : Nat) (x : α) (m : Memory α) (i : Nat) :
    Memory.read ((k, x) :: m) i = if k = i then some x else Memory.read m i := rfl

@[simp] theorem Memory.read_write_same (m : Memory α) (i : Nat) (x : α) : (m.write i x).read i = some x := by
  induction m with
  | nil => simp [Memory.write, Memory.read]
  | cons c m ih =>
    obtain ⟨k, y⟩ := c
    simp only [Memory.write]
    split
    · simp [Memory.read]
    · split
      · simp [Memory.read]
      · rw [Memory.read_cons, if_neg (by omega), ih]

theorem Memory.read_write_ne (m : Memory α) {i j : Nat} (x : α) (h : j ≠ i) : (m.write i x).read j = m.read j := by
  induction m with
  | nil => simp [Memory.write, Memory.read, Ne.symm h]
  | cons c m ih =>
    obtain ⟨k, y⟩ := c
    simp only [Memory.write]
    split
    · rw [Memory.read_cons, if_neg (Ne.symm h)]
    · split
      · next h2 => subst h2; rw [Memory.read_cons, Memory.read_cons, if_neg (Ne.symm h), if_neg (Ne.symm h)]
      · rw [Memory.read_cons, Memory.read_cons, ih]

theorem Memory.read_write (m : Memory α) (i j : Nat) (x : α) :
    (m.write i x).read j = if j = i then some x else m.read j := by
  split
  · next h => subst h; simp
  · next h => exact Memory.read_write_ne m x h

theorem Memory.mem_write {m : Memory α} {i : Nat} {x : α} {c : Nat × α} (h : c ∈ m.write i x) :
    c = (i, x) ∨ c ∈ m := by
  induction m with
  | nil => simpa [Memory.write] using h
  | cons d m ih =>
    obtain ⟨k, y⟩ := d
    simp only [Memory.write] at h
    split at h
    · simpa using h
    · split at h
      · simp only [List.mem_cons] at h ⊢
        tauto
      · simp only [List.mem_cons] at h ⊢
        rcases h with h | h
        · tauto
        · have := ih h
          tauto

/-- Every write keeps the canonical form. -/
theorem Memory.wf_write {size : Nat} {m : Memory α} {i : Nat} (x : α) (h : Memory.wf size m) (hi : i < size) :
    Memory.wf size (m.write i x) := by
  refine ⟨?_, fun c hc => ?_⟩
  · have hp := h.1
    clear h
    induction m with
    | nil => simp [Memory.write]
    | cons d m ih =>
      obtain ⟨k, y⟩ := d
      simp only [List.map_cons, List.pairwise_cons] at hp
      simp only [Memory.write]
      split
      · next hik =>
        simp only [List.map_cons, List.pairwise_cons, List.mem_cons]
        refine ⟨?_, hp⟩
        rintro a (rfl | ha)
        · exact hik
        · exact lt_trans hik (hp.1 a ha)
      · split
        · next hik => subst hik; simpa only [List.map_cons, List.pairwise_cons] using hp
        · next h1 h2 =>
          simp only [List.map_cons, List.pairwise_cons]
          refine ⟨?_, ih hp.2⟩
          intro a ha
          obtain ⟨c, hc, rfl⟩ := List.mem_map.1 ha
          rcases Memory.mem_write hc with rfl | hc
          · show k < i; omega
          · exact hp.1 _ (List.mem_map.2 ⟨c, hc, rfl⟩)
  · rcases Memory.mem_write hc with rfl | hc
    · exact hi
    · exact h.2 c hc

theorem Memory.wf_nil (size : Nat) : Memory.wf size ([] : Memory α) := ⟨List.Pairwise.nil, by simp⟩

/-- A successful store is a write inside the array, and keeps the canonical form. -/
theorem Memory.store_ok {size : Nat} {m m' : Memory α} {i : Nat} {x : α} (h : Memory.store size m i x = .ok m') :
    i < size ∧ m' = m.write i x := by
  unfold Memory.store at h
  split at h
  · next hi => exact ⟨hi, (Except.ok.inj h).symm⟩
  · cases h

theorem Memory.store_of_lt {size : Nat} (m : Memory α) {i : Nat} (x : α) (h : i < size) :
    Memory.store size m i x = .ok (m.write i x) := by simp [Memory.store, h]

theorem Memory.wf_store {size : Nat} {m m' : Memory α} {i : Nat} {x : α} (hm : Memory.wf size m)
    (h : Memory.store size m i x = .ok m') : Memory.wf size m' := by
  obtain ⟨hi, rfl⟩ := Memory.store_ok h
  exact Memory.wf_write x hm hi

theorem Memory.fetch_ok {m : Memory α} {i : Nat} {x : α} : m.fetch i = .ok x ↔ m.read i = some x := by
  unfold Memory.fetch
  split <;> simp_all

theorem Memory.fetch_of_read {m : Memory α} {i : Nat} {x : α} (h : m.read i = some x) : m.fetch i = .ok x :=
  Memory.fetch_ok.2 h

theorem Memory.mem_of_read {m : Memory α} {i : Nat} {x : α} (h : m.read i = some x) : (i, x) ∈ m := by
  induction m with
  | nil => simp at h
  | cons c m ih =>
    obtain ⟨k, y⟩ := c
    rw [Memory.read_cons] at h
    split at h
    · next hk => subst hk; simp_all
    · exact List.mem_cons_of_mem _ (ih h)

theorem Memory.read_of_mem {m : Memory α} (hm : (m.map Prod.fst).Nodup) {c : Nat × α} (h : c ∈ m) :
    m.read c.1 = some c.2 := by
  induction m with
  | nil => simp at h
  | cons d m ih =>
    obtain ⟨k, y⟩ := d
    simp only [List.map_cons, List.nodup_cons] at hm
    rw [Memory.read_cons]
    rcases List.mem_cons.1 h with rfl | h'
    · simp
    · rw [if_neg, ih hm.2 h']
      rintro rfl
      exact hm.1 (List.mem_map.2 ⟨c, h', rfl⟩)

theorem Memory.nodup_of_wf {size : Nat} {m : Memory α} (h : Memory.wf size m) : (m.map Prod.fst).Nodup :=
  h.1.imp (fun h => Nat.ne_of_lt h)

/-- In canonical form a record is listed exactly when it reads so. -/
theorem Memory.mem_iff_read {m : Memory α} (hm : (m.map Prod.fst).Nodup) {i : Nat} {x : α} :
    (i, x) ∈ m ↔ m.read i = some x :=
  ⟨fun h => Memory.read_of_mem hm h, Memory.mem_of_read⟩

/-! ### Arrays whose indices are 0 to `n - 1` -/

theorem Memory.nodup_of_range {m : Memory α} {n : Nat} (h : m.map Prod.fst = List.range n) :
    (m.map Prod.fst).Nodup := by rw [h]; exact List.nodup_range

theorem Memory.length_of_range {m : Memory α} {n : Nat} (h : m.map Prod.fst = List.range n) : m.length = n := by
  simpa using congrArg List.length h

theorem Memory.wf_of_range {m : Memory α} {n size : Nat} (h : m.map Prod.fst = List.range n) (hn : n ≤ size) :
    Memory.wf size m := by
  refine ⟨by rw [h]; exact List.pairwise_lt_range, fun c hc => ?_⟩
  have : c.1 ∈ m.map Prod.fst := List.mem_map.2 ⟨c, hc, rfl⟩
  rw [h, List.mem_range] at this
  omega

theorem Memory.isSome_read_iff {m : Memory α} {i : Nat} : (m.read i).isSome ↔ i ∈ m.map Prod.fst := by
  induction m with
  | nil => simp
  | cons c m ih =>
    obtain ⟨k, y⟩ := c
    rw [Memory.read_cons]
    split
    · next h => simp [h]
    · next h => simp [ih, Ne.symm h]

theorem Memory.isSome_read_of_range {m : Memory α} {n : Nat} (h : m.map Prod.fst = List.range n) {i : Nat} :
    (m.read i).isSome ↔ i < n := by
  rw [Memory.isSome_read_iff, h, List.mem_range]

theorem Memory.exists_read_of_range {m : Memory α} {n i : Nat} (h : m.map Prod.fst = List.range n) (hi : i < n) :
    ∃ x, m.read i = some x :=
  Option.isSome_iff_exists.1 ((Memory.isSome_read_of_range h).2 hi)

theorem Memory.lt_of_read_of_range {m : Memory α} {n i : Nat} {x : α} (h : m.map Prod.fst = List.range n)
    (hr : m.read i = some x) : i < n :=
  (Memory.isSome_read_of_range h).1 (by simp [hr])

/-- Writing the first free index appends the record. -/
theorem Memory.write_append {m : Memory α} {n : Nat} (h : ∀ c ∈ m, c.1 < n) (x : α) :
    m.write n x = m ++ [(n, x)] := by
  induction m with
  | nil => rfl
  | cons c m ih =>
    obtain ⟨k, y⟩ := c
    have hk : k < n := h (k, y) (by simp)
    simp only [Memory.write]
    rw [if_neg (by omega), if_neg (by omega), ih (fun c hc => h c (List.mem_cons_of_mem _ hc)), List.cons_append]

theorem Memory.lt_of_mem_of_range {m : Memory α} {n : Nat} (h : m.map Prod.fst = List.range n) :
    ∀ c ∈ m, c.1 < n := fun c hc => by
  have : c.1 ∈ m.map Prod.fst := List.mem_map.2 ⟨c, hc, rfl⟩
  rw [h, List.mem_range] at this
  exact this

theorem Memory.write_range {m : Memory α} {n : Nat} (h : m.map Prod.fst = List.range n) (x : α) :
    m.write n x = m ++ [(n, x)] ∧ (m.write n x).map Prod.fst = List.range (n + 1) := by
  have e := Memory.write_append (Memory.lt_of_mem_of_range h) x
  exact ⟨e, by rw [e]; simp [h, List.range_succ]⟩

/-- Overwriting a listed record keeps the indices. -/
theorem Memory.write_listed_indices {m : Memory α} (hm : (m.map Prod.fst).Pairwise (· < ·)) {i : Nat}
    (h : i ∈ m.map Prod.fst) (x : α) : (m.write i x).map Prod.fst = m.map Prod.fst := by
  induction m with
  | nil => simp at h
  | cons c m ih =>
    obtain ⟨k, y⟩ := c
    simp only [List.map_cons, List.pairwise_cons, List.mem_cons] at hm h
    simp only [Memory.write]
    rcases h with rfl | h
    · simp
    · have hlt : k < i := hm.1 i h
      rw [if_neg (by omega), if_neg (by omega), List.map_cons, ih hm.2 h, List.map_cons]

/-- An array with indices 0 to `n - 1` reads as the list of its records. -/
theorem Memory.read_of_range {m : Memory α} {n : Nat} (h : m.map Prod.fst = List.range n) (i : Nat) :
    m.read i = (m.map Prod.snd)[i]? := by
  by_cases hi : i < n
  · have hl := Memory.length_of_range h
    have hmem : m[i]'(by omega) ∈ m := List.getElem_mem _
    have h1 : (m[i]'(by omega)).1 = i := by
      have : (m.map Prod.fst)[i]'(by simpa [hl] using hi) = i := by simp [h]
      simpa using this
    have := Memory.read_of_mem (Memory.nodup_of_range h) hmem
    rw [h1] at this
    rw [this]
    simp [List.getElem?_eq_getElem (show i < m.length by omega)]
  · have hl := Memory.length_of_range h
    rw [List.getElem?_eq_none (by simp; omega)]
    rcases hr : m.read i with _ | x
    · rfl
    · exact absurd (Memory.lt_of_read_of_range h hr) hi

theorem Memory.readAll_of_range {m : Memory α} {n k : Nat} (h : m.map Prod.fst = List.range n) (hk : k ≤ n) :
    m.readAll k = some ((m.map Prod.snd).take k) := by
  have hl := Memory.length_of_range h
  induction k with
  | zero => simp [Memory.readAll]
  | succ k ih =>
    have hk' : k < (m.map Prod.snd).length := by simp; omega
    rw [Memory.readAll, ih (by omega), Memory.read_of_range h, List.getElem?_eq_getElem hk']
    simp [List.take_add_one, List.getElem?_eq_getElem (show k < m.length by omega)]

theorem Memory.fetchAll_of_range {m : Memory α} {n : Nat} (h : m.map Prod.fst = List.range n) :
    m.fetchAll n = .ok (m.map Prod.snd) := by
  have hl := Memory.length_of_range h
  have := Memory.readAll_of_range h (Nat.le_refl n)
  rw [List.take_of_length_le (by simp [hl])] at this
  simp [Memory.fetchAll, this]

/-- What a successful read of every valid record says: the records, one per position. -/
theorem Memory.readAll_some {m : Memory α} {n : Nat} {l : List α} (h : m.readAll n = some l) :
    l.length = n ∧ ∀ i < n, m.read i = l[i]? := by
  induction n generalizing l with
  | zero => simp [Memory.readAll] at h; simp [← h]
  | succ n ih =>
    simp only [Memory.readAll] at h
    split at h
    · next l' x h1 h2 =>
      obtain ⟨hl, hr⟩ := ih h1
      cases h
      refine ⟨by simp [hl], fun i hi => ?_⟩
      rcases Nat.lt_succ_iff_lt_or_eq.1 hi with hi | rfl
      · rw [hr i hi, List.getElem?_append_left (by omega)]
      · rw [h2, List.getElem?_append_right (by omega)]; simp [hl]
    · cases h

end Sys2Proof.Machine
end

