-- ==== Sys2Proof/Laws/Queue.lean ====
section
/-! SUPPORT. The priority queue: its order is total, `pq_remove_min` takes the one least member, and `pq_insert` adds one. -/

namespace Sys2Proof.Machine

/-! ### The order of 41_tree_builder.md R140 -/

theorem before_iff (x y : Key) : before x y = true ↔ x.1.toNat < y.1.toNat ∨ (x.1 = y.1 ∧ x.2 < y.2) := by
  simp [before, BitVec.lt_def]

theorem before_trans {x y z : Key} (h1 : before x y = true) (h2 : before y z = true) : before x z = true := by
  rw [before_iff] at *
  rcases h1 with h1 | ⟨e1, h1⟩ <;> rcases h2 with h2 | ⟨e2, h2⟩
  · exact .inl (by omega)
  · exact .inl (e2 ▸ h1)
  · exact .inl (e1 ▸ h2)
  · exact .inr ⟨e1.trans e2, by omega⟩

theorem before_total {x y : Key} (h : x ≠ y) (hb : before x y ≠ true) : before y x = true := by
  rw [Ne, before_iff] at hb
  rw [before_iff]
  push Not at hb
  rcases Nat.lt_or_eq_of_le hb.1 with h1 | h1
  · exact .inl h1
  · have e : x.1 = y.1 := (BitVec.eq_of_toNat_eq h1).symm
    refine .inr ⟨e.symm, ?_⟩
    have := hb.2 e
    have hne : x.2 ≠ y.2 := fun e2 => h (Prod.ext e e2)
    omega

/-- The least key is a key, and is before every other one. -/
theorem leastKey_some {ks : List Key} {m : Key} (h : leastKey ks = some m) :
    m ∈ ks ∧ ∀ k ∈ ks, k ≠ m → before m k = true := by
  induction ks generalizing m with
  | nil => cases h
  | cons k ks ih =>
    simp only [leastKey] at h
    split at h
    · next hn =>
      cases h
      refine ⟨by simp, fun j hj hne => ?_⟩
      rcases List.mem_cons.1 hj with rfl | hj
      · exact absurd rfl hne
      · cases ks with
        | nil => simp at hj
        | cons a as =>
          simp only [leastKey] at hn
          split at hn <;> cases hn
    · next m' hm' =>
      obtain ⟨hin, hall⟩ := ih hm'
      split at h
      · next hb =>
        cases h
        refine ⟨by simp, fun j hj hne => ?_⟩
        rcases List.mem_cons.1 hj with rfl | hj
        · exact absurd rfl hne
        · by_cases e : j = m'
          · exact e ▸ hb
          · exact before_trans hb (hall j hj e)
      · next hb =>
        cases h
        refine ⟨List.mem_cons_of_mem _ hin, fun j hj hne => ?_⟩
        rcases List.mem_cons.1 hj with rfl | hj
        · exact before_total hne hb
        · exact hall j hj hne

theorem leastKey_isSome {ks : List Key} (h : ks ≠ []) : ∃ m, leastKey ks = some m := by
  cases ks with
  | nil => exact absurd rfl h
  | cons k ks =>
    simp only [leastKey]
    split
    · exact ⟨_, rfl⟩
    · exact ⟨_, rfl⟩

/-! ### Reading the keys -/

theorem queueKeys_ok {nm : Memory Node} {pq : List Nat} {ks : List Key} (h : queueKeys nm pq = .ok ks) :
    (∀ i ∈ pq, ∃ n, nm.read i = some n ∧ (n.weight, i) ∈ ks) ∧
    (∀ k ∈ ks, k.2 ∈ pq ∧ ∃ n, nm.read k.2 = some n ∧ k.1 = n.weight) := by
  induction pq generalizing ks with
  | nil => cases h; simp
  | cons i pq ih =>
    simp only [queueKeys, bind, Except.bind] at h
    split at h
    · cases h
    · next n hn =>
      split at h
      · cases h
      · next ks' hk =>
        cases h
        obtain ⟨h1, h2⟩ := ih hk
        have hr := Memory.fetch_ok.1 hn
        constructor
        · intro j hj
          rcases List.mem_cons.1 hj with rfl | hj
          · exact ⟨n, hr, by simp⟩
          · obtain ⟨m, hm, hin⟩ := h1 j hj
            exact ⟨m, hm, List.mem_cons_of_mem _ hin⟩
        · intro k hk
          rcases List.mem_cons.1 hk with rfl | hk
          · exact ⟨by simp, n, hr, rfl⟩
          · obtain ⟨hp, hx⟩ := h2 k hk
            exact ⟨List.mem_cons_of_mem _ hp, hx⟩

theorem queueKeys_exists {nm : Memory Node} {pq : List Nat} (h : ∀ i ∈ pq, (nm.read i).isSome) :
    ∃ ks, queueKeys nm pq = .ok ks ∧ ks.length = pq.length := by
  induction pq with
  | nil => exact ⟨[], rfl, rfl⟩
  | cons i pq ih =>
    obtain ⟨ks, hk, hl⟩ := ih (fun j hj => h j (List.mem_cons_of_mem _ hj))
    obtain ⟨n, hn⟩ := Option.isSome_iff_exists.1 (h i (by simp))
    refine ⟨(n.weight, i) :: ks, ?_, by simp [hl]⟩
    simp [queueKeys, bind, Except.bind, pure, Except.pure, Memory.fetch_of_read hn, hk]

/-! ### `pq_remove_min` and `pq_insert` -/

/-- All that `pq_remove_min` does when it answers (41_tree_builder.md R142). -/
theorem pqRemoveMin_ok {b c : Builder} {i : Nat} (h : pqRemoveMin b = .ok (i, c)) :
    c = { b with pq := b.pq.erase i } ∧ i ∈ b.pq ∧ ∃ x, b.nm.read i = some x ∧
      ∀ j ∈ b.pq, ∀ y, b.nm.read j = some y → j ≠ i →
        x.weight.toNat < y.weight.toNat ∨ (x.weight = y.weight ∧ i < j) := by
  simp only [pqRemoveMin, bind, Except.bind] at h
  split at h
  · cases h
  · next ks hk =>
    split at h
    · cases h
    · next m hm =>
      cases h
      obtain ⟨hin, hall⟩ := leastKey_some hm
      obtain ⟨h1, h2⟩ := queueKeys_ok hk
      obtain ⟨hp, x, hx, hw⟩ := h2 m hin
      refine ⟨rfl, hp, x, hx, fun j hj y hy hne => ?_⟩
      obtain ⟨n, hn, hjn⟩ := h1 j hj
      rw [hy] at hn
      cases hn
      have := (before_iff _ _).1 (hall _ hjn (fun e => hne (by rw [← e])))
      simpa [hw] using this

/-- `pq_remove_min` answers whenever the queue is not empty and its nodes hold records. -/
theorem pqRemoveMin_exists {b : Builder} (h : b.pq ≠ []) (hr : ∀ i ∈ b.pq, (b.nm.read i).isSome) :
    ∃ i, pqRemoveMin b = .ok (i, { b with pq := b.pq.erase i }) := by
  obtain ⟨ks, hk, hl⟩ := queueKeys_exists hr
  have hne : ks ≠ [] := by
    intro e
    rw [e] at hl
    exact h (List.length_eq_zero_iff.1 hl.symm)
  obtain ⟨m, hm⟩ := leastKey_isSome hne
  exact ⟨m.2, by simp [pqRemoveMin, bind, Except.bind, hk, hm]⟩

theorem insertIndex_perm (i : Nat) (pq : List Nat) : (insertIndex i pq).Perm (i :: pq) := by
  induction pq with
  | nil => exact .refl _
  | cons j pq ih =>
    simp only [insertIndex]
    split
    · exact .refl _
    · exact (ih.cons j).trans (.swap i j pq)

/-- A rising queue stays rising. -/
theorem insertIndex_rising {i : Nat} {pq : List Nat} (h : pq.Pairwise (· < ·)) (hi : i ∉ pq) :
    (insertIndex i pq).Pairwise (· < ·) := by
  induction pq with
  | nil => simp [insertIndex]
  | cons j pq ih =>
    simp only [List.pairwise_cons, List.mem_cons, not_or] at h hi
    simp only [insertIndex]
    split
    · next hij =>
      simp only [List.pairwise_cons, List.mem_cons]
      refine ⟨?_, h⟩
      rintro a (rfl | ha)
      · exact hij
      · exact lt_trans hij (h.1 a ha)
    · next hij =>
      simp only [List.pairwise_cons]
      refine ⟨fun a ha => ?_, ih h.2 hi.2⟩
      rcases List.mem_cons.1 ((insertIndex_perm i pq).mem_iff.1 ha) with rfl | ha
      · omega
      · exact h.1 a ha

/-- Inserting an index above all queued ones appends it. -/
theorem insertIndex_append {i : Nat} {pq : List Nat} (h : ∀ j ∈ pq, j < i) : insertIndex i pq = pq ++ [i] := by
  induction pq with
  | nil => rfl
  | cons j pq ih =>
    have hj := h j (by simp)
    simp only [insertIndex]
    rw [if_neg (by omega), ih (fun k hk => h k (List.mem_cons_of_mem _ hk)), List.cons_append]

/-- All that `pq_insert` does (41_tree_builder.md R141). -/
theorem pqInsert_ok {i : Nat} {b c : Builder} : pqInsert i b = .ok c ↔
    i ∉ b.pq ∧ b.pq.length < 257 ∧ c = { b with pq := insertIndex i b.pq } := by
  unfold pqInsert
  split
  · next h =>
    constructor
    · intro e; cases e
    · rintro ⟨h1, h2, -⟩
      rcases h with h | h
      · exact absurd h h1
      · simp only [Config.nSym] at h; omega
  · next h =>
    push Not at h
    simp only [Config.nSym] at h
    constructor
    · intro e; cases e; exact ⟨h.1, h.2, rfl⟩
    · rintro ⟨-, -, rfl⟩; rfl

end Sys2Proof.Machine
end

