-- ==== Sys2Proof/Laws/Build.lean ====
section
/-! SUPPORT. The build: one invariant of the builder, the forest it holds, kept by the leaves and by every merge, from
which every property of 10_state.md R32 follows. -/

namespace Sys2Proof.Machine

/-- The indices that are children of some node. -/
def childIndices (nm : Memory Node) : List Nat := nm.flatMap (fun c => childrenOf c.2)

/-- The leaf the builder makes of an entry is the one 10_state.md R32 (b) gives. -/
theorem leafOf_eq_leafRecord : leafOf = leafRecord := rfl

theorem leafOf_isLeaf {r : FtRec} (h : r.sym.toNat ≤ 256) : (leafOf r).isLeaf = true := by
  simp only [Node.isLeaf, leafOf, bne_iff_ne, ne_eq]
  intro e
  rw [e] at h
  exact absurd h (by decide)

theorem childrenOf_leafOf {r : FtRec} (h : r.sym.toNat ≤ 256) : childrenOf (leafOf r) = [] := by
  simp [childrenOf, leafOf_isLeaf h]

theorem weightAt_of_read {nm : Memory Node} {i : Nat} {n : Node} (h : nm.read i = some n) :
    weightAt nm i = n.weight.toNat := by simp [weightAt, h]

theorem weightAt_write_ne {nm : Memory Node} {i j : Nat} (n : Node) (h : j ≠ i) :
    weightAt (nm.write i n) j = weightAt nm j := by simp [weightAt, Memory.read_write_ne nm n h]

/-- A node made later changes nothing about an earlier merge. -/
theorem mergesTheLeast_write {nm : Memory Node} {k l : Nat} {n m : Node} (hl : ∀ c ∈ nm, c.1 < l) (hk : k ≤ l)
    (h : MergesTheLeast nm k n) : MergesTheLeast (nm.write l m) k n := by
  have hr : rootsBefore (nm.write l m) k = rootsBefore nm k := by
    have : (nm.write l m).filter (fun c => decide (c.1 < k)) = nm.filter (fun c => decide (c.1 < k)) := by
      rw [Memory.write_append hl, List.filter_append]
      simp [show ¬ l < k by omega]
    rw [rootsBefore, rootsBefore, this]
  have hw : ∀ j ∈ rootsBefore nm k, weightAt (nm.write l m) j = weightAt nm j := by
    intro j hj
    have := List.mem_range.1 (List.mem_filter.1 hj).1
    exact weightAt_write_ne m (by omega)
  obtain ⟨h1, h2, h3, h4, h5⟩ := h
  refine ⟨by rw [hr]; exact h1, by rw [hr]; exact h2, h3, ?_, ?_⟩
  · intro j hj hne
    rw [hr] at hj
    simp only [outBefore, hw _ h1, hw _ hj]
    exact h4 j hj hne
  · intro j hj hne hne'
    rw [hr] at hj
    simp only [outBefore, hw _ h2, hw _ hj]
    exact h5 j hj hne hne'

/-- The builder holds a forest over the leaves of `recs`, whose roots are the queue. -/
structure Forest (recs : List FtRec) (b : Builder) : Prop where
  indices : b.nm.map Prod.fst = List.range b.nodeCnt.toNat
  leaves_le : recs.length ≤ b.nodeCnt.toNat
  leaf : ∀ p, p < recs.length → b.nm.read p = (recs[p]?).map leafOf
  inner : ∀ i n, recs.length ≤ i → b.nm.read i = some n → n.sym = Config.symInt ∧ n.zero.toNat < i ∧ n.one.toNat < i ∧
    n.weight.toNat = weightAt b.nm n.zero.toNat + weightAt b.nm n.one.toNat
  least : ∀ k n, recs.length ≤ k → b.nm.read k = some n → MergesTheLeast b.nm k n
  owned : (childIndices b.nm ++ b.pq).Perm (List.range b.nodeCnt.toNat)
  total : (b.pq.map (weightAt b.nm)).sum = (recs.map (fun r => r.count.toNat)).sum
  size : b.pq.length + b.nodeCnt.toNat = 2 * recs.length

namespace Forest

variable {recs : List FtRec} {b : Builder}

theorem lt_of_queued (F : Forest recs b) {i : Nat} (h : i ∈ b.pq) : i < b.nodeCnt.toNat :=
  List.mem_range.1 (F.owned.mem_iff.1 (List.mem_append_right _ h))

theorem read_of_queued (F : Forest recs b) {i : Nat} (h : i ∈ b.pq) : (b.nm.read i).isSome :=
  (Memory.isSome_read_of_range F.indices).2 (F.lt_of_queued h)

/-- The queue holds exactly the roots. -/
theorem mem_pq_iff (F : Forest recs b) (i : Nat) : i ∈ b.pq ↔ i ∈ rootsBefore b.nm b.nodeCnt.toNat := by
  have hall : b.nm.filter (fun c => decide (c.1 < b.nodeCnt.toNat)) = b.nm :=
    List.filter_eq_self.2 fun c hc => by simpa using Memory.lt_of_mem_of_range F.indices c hc
  rw [rootsBefore, hall, List.mem_filter, List.mem_range, decide_eq_true_eq]
  change _ ↔ _ ∧ i ∉ childIndices b.nm
  obtain ⟨-, -, hdis⟩ := List.nodup_append.1 (F.owned.nodup_iff.2 List.nodup_range)
  constructor
  · exact fun h => ⟨F.lt_of_queued h, fun hc => hdis i hc i h rfl⟩
  · rintro ⟨hlt, hc⟩
    rcases List.mem_append.1 (F.owned.mem_iff.2 (List.mem_range.2 hlt)) with h | h
    · exact absurd h hc
    · exact h

theorem nodup_pq (F : Forest recs b) : b.pq.Nodup :=
  (List.nodup_append.1 (F.owned.nodup_iff.2 List.nodup_range)).2.1

end Forest

theorem sum_counts_lt (recs : List FtRec) (h : recs.length ≤ 257) :
    (recs.map (fun r => r.count.toNat)).sum < 2 ^ 41 := by
  have key : ∀ l : List FtRec, (l.map (fun r => r.count.toNat)).sum ≤ l.length * (2 ^ 32 - 1) := by
    intro l
    induction l with
    | nil => simp
    | cons r l ih =>
      have := r.count.isLt
      simp only [List.map_cons, List.sum_cons, List.length_cons, Nat.add_mul, Nat.one_mul]
      omega
  have := key recs
  have : recs.length * (2 ^ 32 - 1) ≤ 257 * (2 ^ 32 - 1) := Nat.mul_le_mul_right _ h
  omega

/-- A merge of a forest with more than one root answers, and makes a forest with one root less (41_tree_builder.md R145,
R153). -/
theorem mergeOnce_forest {recs : List FtRec} {b : Builder} (F : Forest recs b) (hn : recs.length ≤ 257)
    (h1 : 1 < b.pq.length) :
    ∃ c, mergeOnce b = .ok c ∧ Forest recs c ∧ c.pq.length + 1 = b.pq.length := by
  obtain ⟨idx, lle, leaf, inner, least, owned, total, size⟩ := id F
  obtain ⟨i, hi⟩ := pqRemoveMin_exists (b := b) (by intro e; simp [e] at h1) (fun j hj => F.read_of_queued hj)
  have hin : i ∈ b.pq := (pqRemoveMin_ok hi).2.1
  have hl1 : (b.pq.erase i).length + 1 = b.pq.length := by
    rw [List.length_erase_of_mem hin]; omega
  obtain ⟨j, hj⟩ := pqRemoveMin_exists (b := { b with pq := b.pq.erase i })
    (by intro e; simp only at e; simp [e] at hl1; omega) (fun k hk => F.read_of_queued (List.mem_of_mem_erase hk))
  have hjn : j ∈ b.pq.erase i := (pqRemoveMin_ok hj).2.1
  have hl2 : ((b.pq.erase i).erase j).length + 1 = (b.pq.erase i).length := by
    rw [List.length_erase_of_mem hjn]
    have : 0 < (b.pq.erase i).length := List.length_pos_of_mem hjn
    omega
  obtain ⟨x, hx⟩ := Option.isSome_iff_exists.1 (F.read_of_queued hin)
  obtain ⟨y, hy⟩ := Option.isSome_iff_exists.1 (F.read_of_queued (List.mem_of_mem_erase hjn))
  have hik := F.lt_of_queued hin
  have hjk := F.lt_of_queued (List.mem_of_mem_erase hjn)
  generalize hk : b.nodeCnt.toNat = k at *
  have hk512 : k < 513 := by omega
  have hpq : b.pq.Perm (i :: j :: (b.pq.erase i).erase j) :=
    (List.perm_cons_erase hin).trans ((List.perm_cons_erase hjn).cons i)
  have hkp : k ∉ (b.pq.erase i).erase j := fun h =>
    absurd (F.lt_of_queued (List.mem_of_mem_erase (List.mem_of_mem_erase h))) (by omega)
  have hzi : (BitVec.ofNat 10 i).toNat = i := by simp; omega
  have hzj : (BitVec.ofNat 10 j).toNat = j := by simp; omega
  let nd : Node := ⟨x.weight + y.weight, Config.symInt, BitVec.ofNat 10 i, BitVec.ofNat 10 j⟩
  have hcnt : (b.nodeCnt + 1).toNat = k + 1 := by
    rw [BitVec.toNat_add, hk]; simp; omega
  have hwr := Memory.write_range idx nd
  have hchild : childIndices (b.nm.write k nd) = childIndices b.nm ++ [i, j] := by
    rw [hwr.1]
    simp [childIndices, childrenOf, Node.isLeaf, nd, hzi, hzj]
  -- the two weights do not overflow
  have hsum : weightAt b.nm i + weightAt b.nm j + (((b.pq.erase i).erase j).map (weightAt b.nm)).sum =
      (recs.map (fun r => r.count.toNat)).sum := by
    rw [← total, (hpq.map (weightAt b.nm)).sum_eq]
    simp [Nat.add_assoc]
  have hlt := sum_counts_lt recs hn
  have hwx := weightAt_of_read hx
  have hwy := weightAt_of_read hy
  have hw : nd.weight.toNat = weightAt b.nm i + weightAt b.nm j := by
    show (x.weight + y.weight).toNat = _
    rw [BitVec.toNat_add, hwx, hwy]
    apply Nat.mod_eq_of_lt
    omega
  have hleast : MergesTheLeast b.nm k nd := by
    have hroots : ∀ q, q ∈ rootsBefore b.nm k ↔ q ∈ b.pq := fun q => by rw [F.mem_pq_iff, hk]
    have hne : i ≠ j := fun e => (F.nodup_pq.mem_erase_iff.1 hjn).1 e.symm
    have ho : ∀ (p q : Nat) (u v : Node), b.nm.read p = some u → b.nm.read q = some v →
        (u.weight.toNat < v.weight.toNat ∨ (u.weight = v.weight ∧ p < q)) → outBefore b.nm p q := by
      intro p q u v hu hv h
      simp only [outBefore, weightAt_of_read hu, weightAt_of_read hv]
      rcases h with h | ⟨h, h'⟩
      · exact .inl h
      · exact .inr ⟨by rw [h], h'⟩
    obtain ⟨-, -, x', hx', hi'⟩ := pqRemoveMin_ok hi
    obtain ⟨-, -, y', hy', hj'⟩ := pqRemoveMin_ok hj
    simp only [MergesTheLeast, nd, hzi, hzj, hroots]
    refine ⟨hin, List.mem_of_mem_erase hjn, fun e => hne ?_, ?_, ?_⟩
    · rw [← hzi, ← hzj, e]
    · intro q hq hqi
      obtain ⟨z, hz⟩ := Option.isSome_iff_exists.1 (F.read_of_queued hq)
      exact ho _ _ _ _ hx' hz (hi' q hq z hz hqi)
    · intro q hq hqi hqj
      obtain ⟨z, hz⟩ := Option.isSome_iff_exists.1 (F.read_of_queued hq)
      exact ho _ _ _ _ hy' hz (hj' q ((List.mem_erase_of_ne hqi).2 hq) z hz hqj)
  refine ⟨{ nm := b.nm.write k nd, nodeCnt := b.nodeCnt + 1, pq := insertIndex k ((b.pq.erase i).erase j) }, ?_, ?_, ?_⟩
  · have hins : pqInsert k { nm := b.nm.write k nd, nodeCnt := b.nodeCnt + 1, pq := (b.pq.erase i).erase j } =
        .ok { nm := b.nm.write k nd, nodeCnt := b.nodeCnt + 1, pq := insertIndex k ((b.pq.erase i).erase j) } :=
      pqInsert_ok.2 ⟨hkp, by simp only; omega, rfl⟩
    simp only [mergeOnce, bind, Except.bind, hi, hj, Memory.fetch_of_read hx, Memory.fetch_of_read hy, hk,
      Memory.store_of_lt b.nm _ hk512]
    exact hins
  · refine ⟨?_, ?_, ?_, ?_, ?_, ?_, ?_, ?_⟩
    · show (b.nm.write k nd).map Prod.fst = List.range (b.nodeCnt + 1).toNat
      rw [hcnt]; exact hwr.2
    · show recs.length ≤ (b.nodeCnt + 1).toNat
      omega
    · intro p hp
      show (b.nm.write k nd).read p = _
      rw [Memory.read_write_ne _ _ (by omega), leaf p hp]
    · intro p n hp hr
      have hwne : ∀ q, q < k → weightAt (b.nm.write k nd) q = weightAt b.nm q :=
        fun q hq => weightAt_write_ne nd (by omega)
      simp only at hr ⊢
      rw [Memory.read_write] at hr
      split at hr
      · next e =>
        cases hr
        refine ⟨rfl, ?_, ?_, ?_⟩
        · show (BitVec.ofNat 10 i).toNat < p; omega
        · show (BitVec.ofNat 10 j).toNat < p; omega
        · show nd.weight.toNat = weightAt _ (BitVec.ofNat 10 i).toNat + weightAt _ (BitVec.ofNat 10 j).toNat
          rw [hzi, hzj, hwne i hik, hwne j hjk, hw]
      · next e =>
        have hpk : p < k := Memory.lt_of_read_of_range idx hr
        obtain ⟨a1, a2, a3, a4⟩ := inner p n hp hr
        exact ⟨a1, a2, a3, by rw [hwne _ (by omega), hwne _ (by omega)]; exact a4⟩
    · intro p n hp hr
      simp only at hr ⊢
      have hlt := Memory.lt_of_mem_of_range idx
      rw [Memory.read_write] at hr
      split at hr
      · next e => cases hr; rw [e]; exact mergesTheLeast_write hlt (Nat.le_refl k) hleast
      · have hpk : p < k := Memory.lt_of_read_of_range idx hr
        exact mergesTheLeast_write hlt (by omega) (least p n hp hr)
    · show (childIndices (b.nm.write k nd) ++ insertIndex k ((b.pq.erase i).erase j)).Perm
        (List.range (b.nodeCnt + 1).toNat)
      rw [hchild, hcnt, List.range_succ]
      have e1 : (childIndices b.nm ++ [i, j] ++ insertIndex k ((b.pq.erase i).erase j)).Perm
          (childIndices b.nm ++ [i, j] ++ (k :: (b.pq.erase i).erase j)) :=
        (insertIndex_perm k _).append_left _
      have e2 : (childIndices b.nm ++ [i, j] ++ (k :: (b.pq.erase i).erase j)).Perm
          (k :: (childIndices b.nm ++ [i, j] ++ (b.pq.erase i).erase j)) := List.perm_middle
      have e3 : (childIndices b.nm ++ [i, j] ++ (b.pq.erase i).erase j).Perm (childIndices b.nm ++ b.pq) := by
        rw [List.append_assoc]
        exact (hpq.symm).append_left _
      exact e1.trans (e2.trans (((e3.trans owned).cons k).trans (List.perm_append_singleton k _).symm))
    · show ((insertIndex k ((b.pq.erase i).erase j)).map (weightAt (b.nm.write k nd))).sum = _
      rw [((insertIndex_perm k ((b.pq.erase i).erase j)).map _).sum_eq, List.map_cons, List.sum_cons,
        weightAt_of_read (Memory.read_write_same b.nm k nd), hw, ← hsum]
      congr 2
      apply List.map_congr_left
      intro q hq
      exact weightAt_write_ne nd (fun e => hkp (e ▸ hq))
    · show (insertIndex k ((b.pq.erase i).erase j)).length + (b.nodeCnt + 1).toNat = 2 * recs.length
      rw [(insertIndex_perm k _).length_eq, hcnt, List.length_cons]
      omega
  · show (insertIndex k ((b.pq.erase i).erase j)).length + 1 = b.pq.length
    rw [(insertIndex_perm k _).length_eq, List.length_cons]
    omega

/-- The merge loop ends with exactly one root (41_tree_builder.md R146). -/
theorem mergeAll_forest {recs : List FtRec} (hn : recs.length ≤ 257) :
    ∀ (passes : Nat) (b : Builder), Forest recs b → 1 ≤ b.pq.length → b.pq.length ≤ passes + 1 →
      ∃ c, mergeAll passes b = .ok c ∧ Forest recs c ∧ c.pq.length = 1 := by
  intro passes
  induction passes with
  | zero => exact fun b F h1 h2 => ⟨b, rfl, F, by omega⟩
  | succ passes ih =>
    intro b F h1 h2
    by_cases h : 1 < b.pq.length
    · obtain ⟨c, hc, Fc, hl⟩ := mergeOnce_forest F hn h
      obtain ⟨d, hd, Fd, hd1⟩ := ih c Fc (by omega) (by omega)
      exact ⟨d, by simp [mergeAll, h, bind, Except.bind, hc, hd], Fd, hd1⟩
    · exact ⟨b, by simp [mergeAll, h], F, by omega⟩

/-- What step 1 of the build makes: leaf `p + k` for entry `k`, all queued in order (41_tree_builder.md R144). -/
theorem addLeaves_eq (recs : List FtRec) : ∀ (p : Nat) (b : Builder),
    b.nm.map Prod.fst = List.range p → b.pq = List.range p → p + recs.length ≤ 257 →
    ∃ nm, addLeaves recs p b = .ok { b with nm := nm, pq := List.range (p + recs.length) } ∧
      nm.map Prod.fst = List.range (p + recs.length) ∧
      nm.map Prod.snd = b.nm.map Prod.snd ++ recs.map leafOf := by
  induction recs with
  | nil => exact fun p b h1 h2 _ => ⟨b.nm, by simp [addLeaves, ← h2], by simpa using h1, by simp⟩
  | cons r recs ih =>
    intro p b h1 h2 hl
    simp only [List.length_cons] at hl ⊢
    have hw := Memory.write_range h1 (leafOf r)
    have hins : pqInsert p { b with nm := b.nm.write p (leafOf r) } =
        .ok { b with nm := b.nm.write p (leafOf r), pq := List.range (p + 1) } := by
      refine pqInsert_ok.2 ⟨by simp [h2], by simp [h2]; omega, ?_⟩
      simp only [h2]
      rw [insertIndex_append (fun j hj => List.mem_range.1 hj), ← List.range_succ]
    obtain ⟨nm, e, i1, i2⟩ := ih (p + 1) { b with nm := b.nm.write p (leafOf r), pq := List.range (p + 1) } hw.2 rfl
      (by omega)
    refine ⟨nm, ?_, ?_, ?_⟩
    · simp only [addLeaves, bind, Except.bind, Memory.store_of_lt b.nm _ (show p < Config.nNode by show p < 513; omega), hins]
      rw [e]
      simp [Nat.add_assoc, Nat.add_comm 1]
    · rw [i1]; congr 1; omega
    · rw [i2]
      simp only
      rw [hw.1]
      simp

/-- What the build makes of a non-empty table (41_tree_builder.md R143 to R147): node memory with every property of
10_state.md R32, the root the last node, and an empty queue. -/
theorem buildTree_ok {recs : List FtRec} (hne : recs ≠ []) (hn : recs.length ≤ 257)
    (hs : ∀ r ∈ recs, r.sym.toNat ≤ 256) (cnt : Index) :
    ∃ b, buildTree recs { nm := [], nodeCnt := cnt, pq := [] } = .ok (2 * recs.length - 2, b) ∧
      b.pq = [] ∧ b.nodeCnt.toNat = 2 * recs.length - 1 ∧
      b.nm.map Prod.fst = List.range (2 * recs.length - 1) ∧
      (∀ p, p < recs.length → b.nm.read p = (recs[p]?).map leafOf) ∧
      (∀ i n, recs.length ≤ i → b.nm.read i = some n → n.sym = Config.symInt ∧ n.zero.toNat < i ∧ n.one.toNat < i ∧
        n.weight.toNat = weightAt b.nm n.zero.toNat + weightAt b.nm n.one.toNat) ∧
      (childIndices b.nm).Perm (List.range (2 * recs.length - 2)) ∧
      (∀ k n, recs.length ≤ k → b.nm.read k = some n → MergesTheLeast b.nm k n) ∧
      weightAt b.nm (2 * recs.length - 2) = (recs.map (fun r => r.count.toNat)).sum := by
  have hpos : 0 < recs.length := List.length_pos_iff.2 hne
  obtain ⟨nm, e, i1, i2⟩ := addLeaves_eq recs 0 { nm := [], nodeCnt := cnt, pq := [] } rfl rfl (by omega)
  simp only [Nat.zero_add, List.map_nil, List.nil_append] at e i1 i2
  have hcn : (BitVec.ofNat 10 recs.length).toNat = recs.length := by simp; omega
  have hread : ∀ p, p < recs.length → nm.read p = (recs[p]?).map leafOf := by
    intro p hp
    rw [Memory.read_of_range i1, i2]
    simp
  have F0 : Forest recs { nm := nm, nodeCnt := BitVec.ofNat 10 recs.length, pq := List.range recs.length } := by
    refine ⟨by simpa only [hcn] using i1, by simp only [hcn]; omega, hread, ?_, ?_, ?_, ?_, ?_⟩
    · intro i n hi hr
      exact absurd (Memory.lt_of_read_of_range i1 hr) (by omega)
    · intro i n hi hr
      exact absurd (Memory.lt_of_read_of_range i1 hr) (by omega)
    · have : childIndices nm = [] := by
        simp only [childIndices, List.flatMap_eq_nil_iff]
        intro c hc
        have hm : c.2 ∈ recs.map leafOf := by rw [← i2]; exact List.mem_map.2 ⟨c, hc, rfl⟩
        obtain ⟨r, hr, hc2⟩ := List.mem_map.1 hm
        rw [← hc2]
        exact childrenOf_leafOf (hs r hr)
      simp only [this, hcn, List.nil_append]
      exact .refl _
    · have hw : (List.range recs.length).map (weightAt nm) = recs.map (fun r => r.count.toNat) := by
        apply List.ext_getElem
        · simp
        · intro p h1 h2
          simp only [List.length_map, List.length_range] at h1
          have := hread p h1
          rw [List.getElem?_eq_getElem h1, Option.map_some] at this
          have hc := (recs[p]).count.isLt
          simp only [List.getElem_map, List.getElem_range, weightAt_of_read this, leafOf, BitVec.toNat_setWidth]
          omega
      simp only [hw]
    · simp only [List.length_range, hcn]; omega
  obtain ⟨c, hc, Fc, hc1⟩ := mergeAll_forest hn recs.length _ F0 (by simp only [List.length_range]; omega) (by simp)
  obtain ⟨r, hr⟩ := List.length_eq_one_iff.1 hc1
  have hsize := Fc.size
  rw [hc1] at hsize
  have hcnt : c.nodeCnt.toNat = 2 * recs.length - 1 := by omega
  -- the last node is the child of none, so it is the one queued
  have hroot : r = 2 * recs.length - 2 := by
    have hmem : 2 * recs.length - 2 ∈ childIndices c.nm ++ c.pq :=
      Fc.owned.mem_iff.2 (List.mem_range.2 (by omega))
    rcases List.mem_append.1 hmem with hm | hm
    · obtain ⟨d, hd, hch⟩ := List.mem_flatMap.1 hm
      have hrd := Memory.read_of_mem (Memory.nodup_of_range Fc.indices) hd
      have hdlt := Memory.lt_of_mem_of_range Fc.indices d hd
      exfalso
      by_cases hleaf : d.1 < recs.length
      · have hl := Fc.leaf d.1 hleaf
        rw [hrd, List.getElem?_eq_getElem hleaf, Option.map_some] at hl
        rw [Option.some_inj.1 hl, childrenOf_leafOf (hs _ (List.getElem_mem _))] at hch
        simp at hch
      · obtain ⟨-, h2, h3, -⟩ := Fc.inner d.1 d.2 (by omega) hrd
        simp only [childrenOf] at hch
        split at hch
        · simp at hch
        · simp only [List.mem_cons, List.not_mem_nil, or_false] at hch
          omega
    · rw [hr] at hm
      exact (List.mem_singleton.1 hm).symm
  have hrm : pqRemoveMin c = .ok (2 * recs.length - 2, { c with pq := [] }) := by
    obtain ⟨i, hi⟩ := pqRemoveMin_exists (b := c) (by simp [hr]) (fun j hj => Fc.read_of_queued hj)
    have hii := (pqRemoveMin_ok hi).2.1
    rw [hr] at hii
    have : i = r := by simpa using hii
    subst this
    rw [hi]
    simp [hr, hroot]
  refine ⟨{ c with pq := [] }, ?_, rfl, hcnt, by rw [← hcnt]; exact Fc.indices, Fc.leaf, Fc.inner, ?_, Fc.least, ?_⟩
  · simp only [buildTree, bind, Except.bind, e, List.length_range, hc, hrm]
  · have hp := Fc.owned
    rw [hr, hcnt, hroot, show 2 * recs.length - 1 = 2 * recs.length - 2 + 1 by omega, List.range_succ] at hp
    exact (List.perm_append_right_iff _).1 hp
  · have ht := Fc.total
    rw [hr, hroot] at ht
    simpa using ht

end Sys2Proof.Machine
end

