-- ==== Sys2Proof/Laws/Tree.lean ====
section
/-! SUPPORT. Facts of a live tree: what reads as a leaf, how deep paths go, that every node is reached by exactly one
path, and that the invariant `TreeOk` gives them. -/

namespace Sys2Proof.Machine

/-- `nm` holds a tree over the leaves of `recs` (10_state.md R32 (a) to (f), (h)). -/
structure IsTree (recs : List FtRec) (nm : Memory Node) : Prop where
  pos : 1 ≤ recs.length
  bound : recs.length ≤ 257
  syms : ∀ r ∈ recs, r.sym.toNat ≤ 256
  keys : (recs.map FtRec.sym).Nodup
  indices : nm.map Prod.fst = List.range (2 * recs.length - 1)
  leaf : ∀ p, p < recs.length → nm.read p = (recs[p]?).map leafOf
  inner : ∀ i n, recs.length ≤ i → nm.read i = some n → n.sym = Config.symInt ∧ n.zero.toNat < i ∧ n.one.toNat < i
  owned : (childIndices nm).Perm (List.range (2 * recs.length - 2))

/-- The index of the root. -/
abbrev rootOf (recs : List FtRec) : Nat := 2 * recs.length - 2

/-- The child a bit leads to. -/
def childOf (n : Node) (b : Bool) : Nat := if b then n.one.toNat else n.zero.toNat

namespace IsTree

variable {recs : List FtRec} {nm : Memory Node}

theorem exists_read (T : IsTree recs nm) {i : Nat} (h : i ≤ rootOf recs) : ∃ n, nm.read i = some n := by
  have := T.pos
  exact Memory.exists_read_of_range T.indices (by simp only [rootOf] at h; omega)

theorem le_of_read (T : IsTree recs nm) {i : Nat} {n : Node} (h : nm.read i = some n) : i ≤ rootOf recs := by
  have := Memory.lt_of_read_of_range T.indices h
  have := T.pos
  simp only [rootOf]
  omega

theorem read_leaf (T : IsTree recs nm) {i : Nat} {n : Node} (h : nm.read i = some n) (hi : i < recs.length) :
    n = leafOf recs[i] ∧ n.isLeaf = true ∧ n.sym = recs[i].sym := by
  have hl := T.leaf i hi
  rw [h, List.getElem?_eq_getElem hi, Option.map_some] at hl
  have e := Option.some_inj.1 hl
  exact ⟨e, by rw [e]; exact leafOf_isLeaf (T.syms _ (List.getElem_mem _)), by rw [e]; rfl⟩

/-- Exactly the first `n` nodes are leaves. -/
theorem isLeaf_iff (T : IsTree recs nm) {i : Nat} {n : Node} (h : nm.read i = some n) :
    n.isLeaf = true ↔ i < recs.length := by
  constructor
  · intro hl
    by_contra hi
    have := (T.inner i n (by omega) h).1
    simp [Node.isLeaf, this] at hl
  · exact fun hi => (T.read_leaf h hi).2.1

theorem sym_le (T : IsTree recs nm) {i : Nat} {n : Node} (h : nm.read i = some n) : n.sym.toNat ≤ 257 := by
  by_cases hi : i < recs.length
  · rw [(T.read_leaf h hi).2.2]
    exact Nat.le_succ_of_le (T.syms _ (List.getElem_mem _))
  · rw [(T.inner i n (by omega) h).1]; decide

theorem leaf_sym_le (T : IsTree recs nm) {i : Nat} {n : Node} (h : nm.read i = some n) (hl : n.isLeaf = true) :
    n.sym.toNat ≤ 256 := by
  rw [(T.read_leaf h ((T.isLeaf_iff h).1 hl)).2.2]
  exact T.syms _ (List.getElem_mem _)

/-- Two leaves with one symbol are one leaf (10_state.md R32 (h)). -/
theorem leaf_unique (T : IsTree recs nm) {i j : Nat} {n m : Node} (hi : nm.read i = some n) (hj : nm.read j = some m)
    (hn : n.isLeaf = true) (hm : m.isLeaf = true) (h : n.sym = m.sym) : i = j := by
  have hi' := (T.isLeaf_iff hi).1 hn
  have hj' := (T.isLeaf_iff hj).1 hm
  rw [(T.read_leaf hi hi').2.2, (T.read_leaf hj hj').2.2] at h
  exact (List.Nodup.getElem_inj_iff T.keys (hi := by simpa using hi') (hj := by simpa using hj')).1 (by simpa using h)

theorem child_lt (T : IsTree recs nm) {i : Nat} {n : Node} (h : nm.read i = some n) (hl : n.isLeaf ≠ true) (b : Bool) :
    childOf n b < i ∧ recs.length ≤ i := by
  have hi : ¬ i < recs.length := fun hi => hl ((T.isLeaf_iff h).2 hi)
  obtain ⟨-, h0, h1⟩ := T.inner i n (by omega) h
  cases b
  · exact ⟨h0, by omega⟩
  · exact ⟨h1, by omega⟩

theorem exists_child (T : IsTree recs nm) {i : Nat} {n : Node} (h : nm.read i = some n) (hl : n.isLeaf ≠ true)
    (b : Bool) : ∃ m, nm.read (childOf n b) = some m := by
  have := (T.child_lt h hl b).1
  have := T.le_of_read h
  exact T.exists_read (by omega)

end IsTree

/-! ### Paths -/

theorem follow_nil (nm : Memory Node) (i : Nat) : follow nm i [] = if (nm.read i).isSome then some i else none := rfl

theorem follow_cons {nm : Memory Node} {i : Nat} {b : Bool} {bs : List Bool} {j : Nat} :
    follow nm i (b :: bs) = some j ↔
      ∃ n, nm.read i = some n ∧ n.isLeaf ≠ true ∧ follow nm (childOf n b) bs = some j := by
  rw [follow]
  constructor
  · intro h
    split at h
    · cases h
    · next n hn =>
      split at h
      · cases h
      · next hl => exact ⟨n, hn, hl, h⟩
  · rintro ⟨n, hn, hl, h⟩
    rw [hn]
    simp only [if_neg hl]
    exact h

theorem follow_append {nm : Memory Node} {i : Nat} {p q : List Bool} {j : Nat} :
    follow nm i (p ++ q) = some j ↔ ∃ k, follow nm i p = some k ∧ follow nm k q = some j := by
  induction p generalizing i with
  | nil =>
    rw [List.nil_append]
    constructor
    · intro h
      have : (nm.read i).isSome := by
        cases q with
        | nil =>
          rw [follow_nil] at h
          split at h
          · assumption
          · cases h
        | cons b bs =>
          obtain ⟨n, hn, -⟩ := follow_cons.1 h
          simp [hn]
      exact ⟨i, by simp [follow_nil, this], h⟩
    · rintro ⟨k, hk, h⟩
      rw [follow_nil] at hk
      split at hk
      · cases hk; exact h
      · cases hk
  | cons b p ih =>
    rw [List.cons_append]
    constructor
    · intro h
      obtain ⟨n, hn, hl, h⟩ := follow_cons.1 h
      obtain ⟨k, hk, h⟩ := ih.1 h
      exact ⟨k, follow_cons.2 ⟨n, hn, hl, hk⟩, h⟩
    · rintro ⟨k, hk, h⟩
      obtain ⟨n, hn, hl, hk⟩ := follow_cons.1 hk
      exact follow_cons.2 ⟨n, hn, hl, ih.2 ⟨k, hk, h⟩⟩

theorem follow_read {nm : Memory Node} {i : Nat} {p : List Bool} {j : Nat} (h : follow nm i p = some j) :
    ∃ n, nm.read j = some n := by
  have h' : follow nm i (p ++ []) = some j := by rw [List.append_nil]; exact h
  obtain ⟨k, hk, hj⟩ := follow_append.1 h'
  rw [follow_nil] at hj
  split at hj
  · next hs => cases hj; exact Option.isSome_iff_exists.1 hs
  · cases hj

/-- Nothing lies below a leaf. -/
theorem follow_leaf {nm : Memory Node} {i : Nat} {n : Node} {p : List Bool} {j : Nat} (h : nm.read i = some n)
    (hl : n.isLeaf = true) (hf : follow nm i p = some j) : p = [] ∧ j = i := by
  cases p with
  | nil => simp [follow_nil, h] at hf; exact ⟨rfl, hf.symm⟩
  | cons b p =>
    obtain ⟨m, hm, hml, -⟩ := follow_cons.1 hf
    rw [h] at hm
    cases hm
    exact absurd hl hml

theorem follow_nil_of_read {nm : Memory Node} {i : Nat} {n : Node} (h : nm.read i = some n) :
    follow nm i [] = some i := by simp [follow_nil, h]

namespace IsTree

variable {recs : List FtRec} {nm : Memory Node}

/-- How deep a path can go (10_state.md R32 (i)). -/
theorem follow_length (T : IsTree recs nm) {p : List Bool} : ∀ {i j : Nat}, follow nm i p = some j →
    p.length ≤ i + 1 - recs.length := by
  induction p with
  | nil => simp
  | cons b p ih =>
    intro i j h
    obtain ⟨n, hn, hl, h⟩ := follow_cons.1 h
    have h1 := T.child_lt hn hl b
    have h2 := ih h
    simp only [List.length_cons]
    omega

theorem follow_root_length (T : IsTree recs nm) {p : List Bool} {j : Nat} (h : follow nm (rootOf recs) p = some j) :
    p.length ≤ recs.length - 1 := by
  have := T.follow_length h
  have := T.pos
  simp only [rootOf] at *
  omega

/-- The parent of a node, and the side it hangs on, are unique (10_state.md R32 (e)). -/
theorem parent_unique (T : IsTree recs nm) {k l : Nat} {n m : Node} {b c : Bool} (hk : nm.read k = some n)
    (hl : nm.read l = some m) (hn : n.isLeaf ≠ true) (hm : m.isLeaf ≠ true) (h : childOf n b = childOf m c) :
    k = l ∧ b = c := by
  have hnd : (childIndices nm).Nodup := T.owned.nodup_iff.2 List.nodup_range
  obtain ⟨h1, h2⟩ := List.nodup_flatMap.1 hnd
  have mem : ∀ (x : Node) (d : Bool), x.isLeaf ≠ true → childOf x d ∈ childrenOf x := by
    intro x d hx
    cases d <;> simp [childrenOf, childOf, hx]
  have hsym : Std.Symm (Function.onFun List.Disjoint fun c : Nat × Node => childrenOf c.2) :=
    ⟨fun _ _ h => List.Disjoint.symm h⟩
  have hkl : (k, n) = (l, m) := by
    by_contra hne
    exact h2.forall (Memory.mem_of_read hk) (Memory.mem_of_read hl) hne (mem n b hn) (h ▸ mem m c hm)
  cases hkl
  refine ⟨rfl, ?_⟩
  have hz := h1 (k, n) (Memory.mem_of_read hk)
  simp only [childrenOf, if_neg hn, List.nodup_cons, List.mem_singleton] at hz
  cases b <;> cases c <;> first | rfl | exact absurd h hz.1 | exact absurd h.symm hz.1

/-- The root is no node's child. -/
theorem child_ne_root (T : IsTree recs nm) {k : Nat} {n : Node} (hk : nm.read k = some n) (hn : n.isLeaf ≠ true)
    (b : Bool) : childOf n b ≠ rootOf recs := by
  have := (T.child_lt hk hn b).1
  have := T.le_of_read hk
  omega

/-- Two paths from the root to one node are one path. -/
theorem path_unique (T : IsTree recs nm) : ∀ {p q : List Bool} {j : Nat},
    follow nm (rootOf recs) p = some j → follow nm (rootOf recs) q = some j → p = q := by
  intro p
  induction p using List.reverseRecOn with
  | nil =>
    intro q j hp hq
    rcases List.eq_nil_or_concat q with rfl | ⟨q, c, rfl⟩
    · rfl
    · rw [List.concat_eq_append] at hq
      obtain ⟨n, hn⟩ := T.exists_read (Nat.le_refl (rootOf recs))
      rw [follow_nil_of_read hn] at hp
      cases hp
      rw [follow_append] at hq
      obtain ⟨k, -, hk⟩ := hq
      obtain ⟨m, hm, hml, hk⟩ := follow_cons.1 hk
      have := T.child_ne_root hm hml c
      rw [follow_nil] at hk
      split at hk
      · exact absurd (Option.some_inj.1 hk) this
      · cases hk
  | append_singleton p b ih =>
    intro q j hp hq
    obtain ⟨k, hk, hp⟩ := follow_append.1 hp
    obtain ⟨n, hn, hnl, hp⟩ := follow_cons.1 hp
    rw [follow_nil] at hp
    split at hp <;> cases hp
    rcases List.eq_nil_or_concat q with rfl | ⟨q, c, rfl⟩
    · obtain ⟨r, hr⟩ := T.exists_read (Nat.le_refl (rootOf recs))
      rw [follow_nil_of_read hr] at hq
      exact absurd (Option.some_inj.1 hq).symm (T.child_ne_root hn hnl b)
    · rw [List.concat_eq_append] at hq ⊢
      obtain ⟨l, hl, hq⟩ := follow_append.1 hq
      obtain ⟨m, hm, hml, hq⟩ := follow_cons.1 hq
      rw [follow_nil] at hq
      split at hq
      · have e := Option.some_inj.1 hq
        obtain ⟨rfl, rfl⟩ := T.parent_unique hn hm hnl hml e.symm
        rw [ih hk hl]
      · cases hq

/-- Every node is reached from the root (10_state.md R32 (e)). -/
theorem reached (T : IsTree recs nm) : ∀ (d j : Nat), j ≤ rootOf recs → rootOf recs - j ≤ d →
    ∃ p, follow nm (rootOf recs) p = some j := by
  intro d
  induction d with
  | zero =>
    intro j hj hd
    obtain rfl : j = rootOf recs := by omega
    obtain ⟨n, hn⟩ := T.exists_read (Nat.le_refl (rootOf recs))
    exact ⟨[], follow_nil_of_read hn⟩
  | succ d ih =>
    intro j hj hd
    by_cases hr : j = rootOf recs
    · exact ih j hj (by omega)
    · have hm : j ∈ childIndices nm := T.owned.mem_iff.2 (List.mem_range.2 (by simp only [rootOf] at *; omega))
      obtain ⟨⟨k, n⟩, hk, hch⟩ := List.mem_flatMap.1 hm
      have hkr := Memory.read_of_mem (Memory.nodup_of_range T.indices) hk
      simp only at hkr hch
      have hnl : n.isLeaf ≠ true := by
        intro h
        simp [childrenOf, h] at hch
      have hb : ∃ b, j = childOf n b := by
        simp only [childrenOf, if_neg hnl, List.mem_cons, List.not_mem_nil, or_false] at hch
        rcases hch with h | h
        · exact ⟨false, h⟩
        · exact ⟨true, h⟩
      obtain ⟨b, rfl⟩ := hb
      have hlt := (T.child_lt hkr hnl b).1
      obtain ⟨p, hp⟩ := ih k (T.le_of_read hkr) (by omega)
      obtain ⟨m, hm⟩ := T.exists_child hkr hnl b
      exact ⟨p ++ [b], follow_append.2 ⟨k, hp, follow_cons.2 ⟨n, hkr, hnl, follow_nil_of_read hm⟩⟩⟩

theorem exists_path (T : IsTree recs nm) {j : Nat} (h : j ≤ rootOf recs) : ∃ p, follow nm (rootOf recs) p = some j :=
  T.reached _ j h (Nat.le_refl _)

end IsTree

/-! ### The invariant gives a tree -/

/-- The valid records of FT, in position order. -/
abbrev State.recs (s : State) : List FtRec := s.ft.map Prod.snd

theorem State.FtOk.length_recs {s : State} (h : s.FtOk) : s.recs.length = s.ftLen.toNat := by
  have := Memory.length_of_range h.1
  simpa using this

theorem State.FtOk.read {s : State} (h : s.FtOk) (p : Nat) : s.ft.read p = s.recs[p]? := Memory.read_of_range h.1 p

theorem State.FtOk.keys_nodup {s : State} (h : s.FtOk) : (s.recs.map FtRec.sym).Nodup := by
  have := h.2.1
  rwa [State.recs, List.map_map]

theorem State.FtOk.syms_le {s : State} (h : s.FtOk) : ∀ r ∈ s.recs, r.sym.toNat ≤ 256 := by
  intro r hr
  obtain ⟨c, hc, rfl⟩ := List.mem_map.1 hr
  exact h.2.2.2.1 c hc

theorem State.FtOk.ftRecords {s : State} (h : s.FtOk) : Machine.ftRecords s = .ok s.recs :=
  Memory.fetchAll_of_range h.1

/-- A live tree that keeps `TreeOk` is a tree over FT's entries, its root the last node. -/
theorem State.TreeOk.isTree {s : State} (hf : s.FtOk) (h : s.TreeOk) :
    IsTree s.recs s.nm ∧ s.root.toNat = rootOf s.recs ∧ s.nodeCnt.toNat = 2 * s.recs.length - 1 := by
  obtain ⟨h1, h2, h3, h4, h5, h6, h7, -⟩ := h
  have hl := hf.length_recs
  have hroot : s.root.toNat = rootOf s.recs := by simp only [rootOf]; omega
  refine ⟨⟨by omega, by have := hf.2.2.2.2; omega, hf.syms_le, hf.keys_nodup, ?_, ?_, ?_, ?_⟩, hroot, by omega⟩
  · rw [h4]; congr 1; omega
  · intro p hp
    obtain ⟨n, hn⟩ := Memory.exists_read_of_range h4 (i := p) (by omega)
    have := h5 (p, n) (Memory.mem_of_read hn) (by simp only; omega)
    rw [hn, ← this, hf.read, leafOf_eq_leafRecord]
  · intro i n hi hr
    obtain ⟨a, b, c, -⟩ := h6 (i, n) (Memory.mem_of_read hr) (by simp only; omega)
    exact ⟨a, b, c⟩
  · have := h7
    rw [hroot] at this
    exact this

end Sys2Proof.Machine
end

