-- ==== Sys2Proof/Laws/Walk.lean ====
section
/-! SUPPORT. The code-generation walk: it completes on every tree and records exactly the root-to-leaf paths; the codes
it makes keep the invariant of the code table. -/

namespace Sys2Proof.Machine

namespace IsTree

variable {recs : List FtRec} {nm : Memory Node}

/-- What one walk does: the path of every leaf below the node is recorded, every other entry stays. -/
theorem walk_ok (T : IsTree recs nm) : ∀ (room i : Nat) (path : Code) (ct : Memory Code),
    follow nm (rootOf recs) path = some i → Memory.wf Config.nSym ct → 1 ≤ room → i + 2 ≤ room + recs.length →
    ∃ ct', walk nm room i path ct = .ok ct' ∧ Memory.wf Config.nSym ct' ∧
      (∀ q j n, follow nm i q = some j → nm.read j = some n → n.isLeaf = true →
        ct'.read n.sym.toNat = some (path ++ q)) ∧
      (∀ k, (∀ q j n, follow nm i q = some j → nm.read j = some n → n.isLeaf = true → n.sym.toNat ≠ k) →
        ct'.read k = ct.read k) := by
  intro room
  induction room with
  | zero => intro i path ct _ _ h1; omega
  | succ room ih =>
    intro i path ct hf hwf _ hr
    obtain ⟨n, hn⟩ := follow_read hf
    by_cases hl : n.isLeaf = true
    · have hs := T.leaf_sym_le hn hl
      refine ⟨ct.write n.sym.toNat path, ?_, ?_, ?_, ?_⟩
      · simp only [walk, Memory.fetch_of_read hn, bind, Except.bind, if_pos hl]
        exact Memory.store_of_lt _ _ (show n.sym.toNat < 257 by omega)
      · exact Memory.wf_write _ hwf (show n.sym.toNat < 257 by omega)
      · intro q j m hq hm _
        obtain ⟨rfl, rfl⟩ := follow_leaf hn hl hq
        rw [hn] at hm
        cases hm
        simp
      · intro k hk
        exact Memory.read_write_ne _ _ (Ne.symm (hk [] i n (follow_nil_of_read hn) hn hl))
    · have hc0 := T.child_lt hn hl false
      have hc1 := T.child_lt hn hl true
      obtain ⟨m0, hm0⟩ := T.exists_child hn hl false
      obtain ⟨m1, hm1⟩ := T.exists_child hn hl true
      have hp : ∀ b m, nm.read (childOf n b) = some m → follow nm (rootOf recs) (path ++ [b]) = some (childOf n b) :=
        fun b m hm => follow_append.2 ⟨i, hf, follow_cons.2 ⟨n, hn, hl, follow_nil_of_read hm⟩⟩
      obtain ⟨ct0, e0, w0, r0, u0⟩ := ih (childOf n false) (path ++ [false]) ct (hp _ _ hm0) hwf (by omega) (by omega)
      obtain ⟨ct1, e1, w1, r1, u1⟩ := ih (childOf n true) (path ++ [true]) ct0 (hp _ _ hm1) w0 (by omega) (by omega)
      refine ⟨ct1, ?_, w1, ?_, ?_⟩
      · simp only [walk, Memory.fetch_of_read hn, bind, Except.bind, if_neg hl]
        simp only [childOf, Bool.false_eq_true, if_false, if_true] at e0 e1
        rw [e0]
        exact e1
      · intro q j m hq hm hml
        cases q with
        | nil =>
          rw [follow_nil_of_read hn] at hq
          cases hq
          rw [hn] at hm
          cases hm
          exact absurd hml hl
        | cons b q =>
          obtain ⟨n', hn', -, hq⟩ := follow_cons.1 hq
          rw [hn] at hn'
          cases hn'
          cases b with
          | true => rw [r1 q j m hq hm hml, List.append_assoc]; rfl
          | false =>
            rw [u1, r0 q j m hq hm hml, List.append_assoc]
            · rfl
            · intro q' j' m' hq' hm' hml' e
              have hj : j' = j := T.leaf_unique hm' hm hml' hml (BitVec.eq_of_toNat_eq e)
              subst hj
              have f0 : follow nm (rootOf recs) (path ++ false :: q) = some j' :=
                follow_append.2 ⟨i, hf, follow_cons.2 ⟨n, hn, hl, hq⟩⟩
              have f1 : follow nm (rootOf recs) (path ++ true :: q') = some j' :=
                follow_append.2 ⟨i, hf, follow_cons.2 ⟨n, hn, hl, hq'⟩⟩
              have := T.path_unique f0 f1
              simp at this
      · intro k hk
        rw [u1, u0]
        · exact fun q j m hq => hk (false :: q) j m (follow_cons.2 ⟨n, hn, hl, hq⟩)
        · exact fun q j m hq => hk (true :: q) j m (follow_cons.2 ⟨n, hn, hl, hq⟩)

/-- A path and a longer one cannot both end in a leaf. -/
theorem leaf_prefix (T : IsTree recs nm) {p q : Code} {i j : Nat} {n : Node}
    (hp : follow nm (rootOf recs) p = some i) (hn : nm.read i = some n) (hl : n.isLeaf = true)
    (hq : follow nm (rootOf recs) q = some j) (h : p <+: q) : i = j ∧ p = q := by
  obtain ⟨r, rfl⟩ := h
  obtain ⟨k, hk, hr⟩ := follow_append.1 hq
  rw [hp] at hk
  cases hk
  obtain ⟨rfl, rfl⟩ := follow_leaf hn hl hr
  simp

/-- Every key of the frequency table is the symbol of a leaf. -/
theorem leaf_of_key (T : IsTree recs nm) {r : FtRec} (h : r ∈ recs) :
    ∃ j p, nm.read j = some (leafOf r) ∧ (leafOf r).isLeaf = true ∧ follow nm (rootOf recs) p = some j := by
  obtain ⟨j, hj, rfl⟩ := List.getElem_of_mem h
  have hr : nm.read j = some (leafOf recs[j]) := by rw [T.leaf j hj, List.getElem?_eq_getElem hj]; rfl
  obtain ⟨p, hp⟩ := T.exists_path (T.le_of_read hr)
  exact ⟨j, p, hr, leafOf_isLeaf (T.syms _ h), hp⟩

/-- The symbol of a leaf is a key of the frequency table. -/
theorem key_of_leaf (T : IsTree recs nm) {j : Nat} {n : Node} (hn : nm.read j = some n) (hl : n.isLeaf = true) :
    n.sym ∈ recs.map FtRec.sym := by
  have hj := (T.isLeaf_iff hn).1 hl
  rw [(T.read_leaf hn hj).2.2]
  exact List.mem_map.2 ⟨recs[j], List.getElem_mem _, rfl⟩

/-- The codes of a tree with one leaf (42_code_table.md R174). -/
theorem codesOfTree_one (T : IsTree recs nm) (h1 : recs.length = 1) :
    ∃ ct' n, codesOfTree nm (rootOf recs) = .ok ct' ∧ nm.read (rootOf recs) = some n ∧ n.isLeaf = true ∧
      ct' = [(n.sym.toNat, [false])] := by
  obtain ⟨n, hn⟩ := T.exists_read (Nat.le_refl (rootOf recs))
  have hl := (T.isLeaf_iff hn).2 (by simp only [rootOf]; omega)
  have hs := T.leaf_sym_le hn hl
  refine ⟨_, n, ?_, hn, hl, rfl⟩
  simp only [codesOfTree, Memory.fetch_of_read hn, bind, Except.bind, if_pos hl]
  exact Memory.store_of_lt _ _ (show n.sym.toNat < 257 by omega)

/-- The codes of a tree with two or more leaves are its root-to-leaf paths (42_code_table.md R171, R172). -/
theorem codesOfTree_many (T : IsTree recs nm) (h2 : 2 ≤ recs.length) :
    ∃ ct', codesOfTree nm (rootOf recs) = .ok ct' ∧ Memory.wf Config.nSym ct' ∧
      ∀ k c, ct'.read k = some c ↔
        ∃ j n, follow nm (rootOf recs) c = some j ∧ nm.read j = some n ∧ n.isLeaf = true ∧ n.sym.toNat = k := by
  obtain ⟨n, hn⟩ := T.exists_read (Nat.le_refl (rootOf recs))
  have hl : ¬ n.isLeaf = true := fun h => by
    have := (T.isLeaf_iff hn).1 h
    simp only [rootOf] at this
    omega
  have hb := T.bound
  obtain ⟨ct', e, w, r, u⟩ := T.walk_ok (Config.codeMax + 1) (rootOf recs) [] [] (follow_nil_of_read hn)
    (Memory.wf_nil _) (by omega) (by simp only [rootOf, Config.codeMax]; omega)
  refine ⟨ct', ?_, w, fun k c => ⟨fun h => ?_, ?_⟩⟩
  · simp only [codesOfTree, Memory.fetch_of_read hn, bind, Except.bind, if_neg hl]
    exact e
  · by_contra hno
    by_cases hk : ∃ q j n, follow nm (rootOf recs) q = some j ∧ nm.read j = some n ∧ n.isLeaf = true ∧ n.sym.toNat = k
    · obtain ⟨q, j, m, hq, hm, hml, rfl⟩ := hk
      have := r q j m hq hm hml
      rw [h, List.nil_append] at this
      cases this
      exact hno ⟨j, m, hq, hm, hml, rfl⟩
    · have := u k (fun q j m hq hm hml e => hk ⟨q, j, m, hq, hm, hml, e⟩)
      rw [h] at this
      cases this
  · rintro ⟨j, m, hq, hm, hml, rfl⟩
    simpa using r c j m hq hm hml

/-- The keys of the code table are the keys of the frequency table. -/
theorem codes_keys (T : IsTree recs nm) {ct : Memory Code} (h : codesOfTree nm (rootOf recs) = .ok ct) (k : Nat) :
    k ∈ ct.map Prod.fst ↔ k ∈ recs.map (fun r => r.sym.toNat) := by
  have hpos := T.pos
  rcases Nat.lt_or_ge recs.length 2 with h1 | h2
  · obtain ⟨ct', n, e, hn, hl, rfl⟩ := T.codesOfTree_one (by omega)
    rw [h] at e
    cases e
    match recs, h1, hpos, T, hn with
    | [r], _, _, T, hn =>
      have := (T.read_leaf hn (by simp)).2.2
      simp [this]
  · obtain ⟨ct', e, w, r⟩ := T.codesOfTree_many h2
    rw [h] at e
    cases e
    rw [← Memory.isSome_read_iff, Option.isSome_iff_exists]
    constructor
    · rintro ⟨c, hc⟩
      obtain ⟨j, n, -, hn, hl, rfl⟩ := (r k c).1 hc
      obtain ⟨x, hx, e⟩ := List.mem_map.1 (T.key_of_leaf hn hl)
      exact List.mem_map.2 ⟨x, hx, by rw [e]⟩
    · intro hk
      obtain ⟨x, hx, rfl⟩ := List.mem_map.1 hk
      obtain ⟨j, p, hr, hl, hp⟩ := T.leaf_of_key hx
      exact ⟨p, (r _ p).2 ⟨j, leafOf x, hp, hr, hl, rfl⟩⟩

/-- Code generation completes; the table it makes has one entry per leaf and keeps 10_state.md R35. -/
theorem codesOfTree_ok (T : IsTree recs nm) :
    ∃ ct, codesOfTree nm (rootOf recs) = .ok ct ∧ ct.length = recs.length ∧ Memory.wf Config.nSym ct ∧
      (∀ c ∈ ct, 1 ≤ c.2.length ∧ c.2.length ≤ Config.codeMax) ∧
      ct.Pairwise (fun c d => ¬ c.2 <+: d.2 ∧ ¬ d.2 <+: c.2) ∧
      (∀ c ∈ ct, ct.length = 1 → c.2 = [false]) := by
  have hpos := T.pos
  have hb := T.bound
  rcases Nat.lt_or_ge recs.length 2 with h1 | h2
  · obtain ⟨ct', n, e, hn, hl, rfl⟩ := T.codesOfTree_one (by omega)
    have hs := T.leaf_sym_le hn hl
    refine ⟨_, e, by simp; omega, ⟨by simp, ?_⟩, ?_, by simp, by simp⟩
    · simp only [List.mem_singleton, forall_eq, Config.nSym]; omega
    · simp [Config.codeMax]
  · obtain ⟨ct', e, w, r⟩ := T.codesOfTree_many h2
    have hnd := Memory.nodup_of_wf w
    have hlen : ct'.length = recs.length := by
      have hk : (recs.map (fun r => r.sym.toNat)).Nodup := by
        have := T.keys.map (f := BitVec.toNat) (fun a b h => BitVec.eq_of_toNat_eq h)
        rwa [List.map_map] at this
      have := (List.perm_ext_iff_of_nodup hnd hk).2 (fun k => T.codes_keys e k)
      simpa using this.length_eq
    refine ⟨ct', e, hlen, w, ?_, ?_, fun c _ h => by omega⟩
    · intro c hc
      obtain ⟨j, n, hf, hn, hl, -⟩ := (r c.1 c.2).1 (Memory.read_of_mem hnd hc)
      have := T.follow_root_length hf
      refine ⟨?_, by simp only [Config.codeMax]; omega⟩
      by_contra h0
      have : c.2 = [] := List.length_eq_zero_iff.1 (by omega)
      rw [this] at hf
      obtain ⟨m, hm⟩ := T.exists_read (Nat.le_refl (rootOf recs))
      rw [follow_nil_of_read hm] at hf
      cases hf
      have := (T.isLeaf_iff hn).1 hl
      simp only [rootOf] at this
      omega
    · have hlt := w.1
      rw [List.pairwise_map] at hlt
      refine hlt.imp_of_mem ?_
      intro c d hc hd hcd
      obtain ⟨i, n, hfc, hn, hln, ec⟩ := (r c.1 c.2).1 (Memory.read_of_mem hnd hc)
      obtain ⟨j, m, hfd, hm, hlm, ed⟩ := (r d.1 d.2).1 (Memory.read_of_mem hnd hd)
      refine ⟨fun hp => ?_, fun hp => ?_⟩
      · obtain ⟨rfl, -⟩ := T.leaf_prefix hfc hn hln hfd hp
        rw [hn] at hm
        cases hm
        omega
      · obtain ⟨rfl, -⟩ := T.leaf_prefix hfd hm hlm hfc hp
        rw [hn] at hm
        cases hm
        omega

end IsTree

end Sys2Proof.Machine
end

