-- ==== Sys2Proof/Laws/DecodeStep.lean ====
section
/-! SUPPORT. One decoder step: what it changes, that it runs wherever a session is open on a live tree, and the loop of
`DEC.BYTE` as a sequence of steps. -/

namespace Sys2Proof.Machine

/-- The state after a step that counts one bit and lands on node `t`, whose record is `n` (44_decoder.md R224, R225). -/
def landed (t : Nat) (n : Node) (s : State) : State :=
  if n.isLeaf = true then
    if n.sym = Config.symEos then
      { s with decBitcnt := s.decBitcnt + 1, decCur := s.root, decState := .done }
    else
      { s with decBitcnt := s.decBitcnt + 1, decCur := s.root, decCnt := s.decCnt + 1,
               decOut := s.decOut ++ [n.sym.setWidth 8] }
  else { s with decBitcnt := s.decBitcnt + 1, decCur := BitVec.ofNat 10 t }

/-- The event of a step that lands on a node with this record. -/
def eventOf (n : Node) : DecEvent :=
  if n.isLeaf = true then if n.sym = Config.symEos then .eos else .lit (n.sym.setWidth 8) else .desc

/-- Everything a decoder step can do. -/
theorem decStep_ok {b : Bool} {s u : State} {ev : DecEvent} (h : decStep b s = .ok (u, ev)) :
    ∃ t n, decTarget b s = .ok t ∧ s.nm.read t = some n ∧ u = landed t n s ∧ ev = eventOf n := by
  simp only [decStep, bind, Except.bind] at h
  have hb : decTarget b { s with decBitcnt := s.decBitcnt + 1 } = decTarget b s := rfl
  rw [hb] at h
  cases ht : decTarget b s with
  | error e => rw [ht] at h; cases h
  | ok t =>
    rw [ht] at h
    simp only at h
    cases hn : s.nm.fetch t with
    | error e => rw [hn] at h; cases h
    | ok n =>
      rw [hn] at h
      simp only at h
      refine ⟨t, n, rfl, Memory.fetch_ok.1 hn, ?_⟩
      unfold landed eventOf
      split at h
      · next hl =>
        rw [if_pos hl, if_pos hl]
        unfold demux at h
        split at h
        · next he => rw [if_pos he, if_pos he]; cases h; exact ⟨rfl, rfl⟩
        · next he => rw [if_neg he, if_neg he]; cases h; exact ⟨rfl, rfl⟩
      · next hl => rw [if_neg hl, if_neg hl]; cases h; exact ⟨rfl, rfl⟩

theorem decStep_of_target {b : Bool} {s : State} {t : Nat} {n : Node} (ht : decTarget b s = .ok t)
    (hn : s.nm.read t = some n) : decStep b s = .ok (landed t n s, eventOf n) := by
  have ht' : decTarget b { s with decBitcnt := s.decBitcnt + 1 } = .ok t := ht
  have hn' : s.nm.fetch t = .ok n := Memory.fetch_of_read hn
  simp only [decStep, bind, Except.bind, ht', hn', landed, eventOf, demux, pure, Except.pure]
  split
  · split <;> rfl
  · rfl

/-- Where a bit leads: R226 for a root that is a leaf, R224 otherwise. -/
theorem decTarget_eq {b : Bool} {s : State} {r c : Node} (hr : s.nm.read s.root.toNat = some r)
    (hc : s.nm.read s.decCur.toNat = some c) :
    decTarget b s = .ok (if r.isLeaf then s.root.toNat else if b then c.one.toNat else c.zero.toNat) := by
  simp only [decTarget, bind, Except.bind, Memory.fetch_of_read hr, Memory.fetch_of_read hc, pure, Except.pure]
  split <;> rfl

/-- A step changes only the decoder's registers and its output stream. -/
theorem landed_frame (t : Nat) (n : Node) (s : State) :
    ∃ cur cnt st out, landed t n s =
      { s with decBitcnt := s.decBitcnt + 1, decCur := cur, decCnt := cnt, decState := st, decOut := s.decOut ++ out } ∧
      (st = s.decState ∨ st = .done) ∧ out.length ≤ 1 := by
  unfold landed
  split
  · split
    · exact ⟨s.root, s.decCnt, .done, [], by simp, .inr rfl, by simp⟩
    · exact ⟨_, s.decCnt + 1, s.decState, [n.sym.setWidth 8], rfl, .inl rfl, by simp⟩
  · exact ⟨BitVec.ofNat 10 t, s.decCnt, s.decState, [], by simp, .inl rfl, by simp⟩

/-- Everything the loop of `DEC.BYTE` can change. -/
theorem feedBits_frame (bits : List Bool) : ∀ (c : Fed) (s u : State) (c' : Fed), feedBits bits c s = .ok (u, c') →
    ∃ bc cur cnt st out, u =
      { s with decBitcnt := bc, decCur := cur, decCnt := cnt, decState := st, decOut := s.decOut ++ out } ∧
      (st = s.decState ∨ st = .done) := by
  induction bits with
  | nil =>
    intro c s u c' h
    cases h
    exact ⟨s.decBitcnt, s.decCur, s.decCnt, s.decState, [], by simp, .inl rfl⟩
  | cons b bits ih =>
    intro c s u c' h
    simp only [feedBits] at h
    split at h
    · simp only [bind, Except.bind] at h
      cases hd : decStep b s with
      | error e => rw [hd] at h; cases h
      | ok p =>
        obtain ⟨m, ev⟩ := p
        rw [hd] at h
        simp only at h
        obtain ⟨t, n, -, -, rfl, -⟩ := decStep_ok hd
        obtain ⟨cur, cnt, st, out, e, hst, -⟩ := landed_frame t n s
        obtain ⟨bc', cur', cnt', st', out', rfl, hst'⟩ := ih _ _ _ _ h
        rw [e] at hst'
        refine ⟨bc', cur', cnt', st', out ++ out', by rw [e]; simp, ?_⟩
        rcases hst' with h1 | h1
        · simp only at h1; rw [h1]; exact hst
        · exact .inr h1
    · exact ih _ _ _ _ h

/-! ### An open session on a live tree -/

/-- The nodes a step reads, where a session is open and the invariants hold. -/
theorem open_session_reads {s : State} (hf : s.FtOk) (ht : s.treeValid = true → s.TreeOk) (hd : s.DecOk)
    (hrun : s.decState = .run) :
    ∃ r c, s.nm.read s.root.toNat = some r ∧ s.nm.read s.decCur.toNat = some c ∧
      (s.decCur = s.root ∨ c.isLeaf ≠ true) := by
  obtain ⟨hv, hlt, hcur⟩ := hd hrun
  obtain ⟨T, hroot, hcnt⟩ := (ht hv).isTree hf
  have hpos := T.pos
  obtain ⟨r, hr⟩ := T.exists_read (Nat.le_refl (rootOf s.recs))
  obtain ⟨c, hc⟩ := T.exists_read (i := s.decCur.toNat) (by simp only [rootOf]; omega)
  refine ⟨r, c, by rw [hroot]; exact hr, hc, ?_⟩
  rcases hcur with h | h
  · exact .inl h
  · rw [hc] at h
    exact .inr (by simpa using h)

/-- A step runs, and lands on a node of the tree: on the root where the root is a leaf, else on a child of the
cursor's node. -/
theorem decStep_runs {s : State} (hf : s.FtOk) (ht : s.treeValid = true → s.TreeOk) (hd : s.DecOk)
    (hrun : s.decState = .run) (b : Bool) :
    ∃ r c t n, s.nm.read s.root.toNat = some r ∧ s.nm.read s.decCur.toNat = some c ∧
      t = (if r.isLeaf then s.root.toNat else if b then c.one.toNat else c.zero.toNat) ∧
      s.nm.read t = some n ∧ decStep b s = .ok (landed t n s, eventOf n) := by
  obtain ⟨r, c, hr, hc, hcur⟩ := open_session_reads hf ht hd hrun
  obtain ⟨T, hroot, -⟩ := (ht (hd hrun).1).isTree hf
  have htar := decTarget_eq (b := b) hr hc
  by_cases hl : r.isLeaf = true
  · rw [if_pos hl] at htar
    exact ⟨r, c, _, r, hr, hc, by rw [if_pos hl], hr, decStep_of_target htar hr⟩
  · rw [if_neg hl] at htar
    have hcl : c.isLeaf ≠ true := by
      rcases hcur with h | h
      · rw [h, hr] at hc; cases hc; exact hl
      · exact h
    obtain ⟨m, hm⟩ := T.exists_child hc hcl b
    exact ⟨r, c, _, m, hr, hc, by rw [if_neg hl]; rfl, hm, decStep_of_target htar hm⟩

/-- A step keeps the decoder's invariant. -/
theorem decOk_landed {s : State} (hf : s.FtOk) (ht : s.treeValid = true → s.TreeOk) (hv : s.treeValid = true)
    {t : Nat} {n : Node} (hn : s.nm.read t = some n) : (landed t n s).DecOk := by
  obtain ⟨T, hroot, hcnt⟩ := (ht hv).isTree hf
  have hpos := T.pos
  have hb := T.bound
  unfold landed
  split
  · split
    · exact fun h => by cases h
    · exact fun _ => ⟨hv, by simp only [rootOf] at hroot; show s.root.toNat < s.nodeCnt.toNat; omega, .inl rfl⟩
  · next hl =>
    have hle := T.le_of_read hn
    simp only [rootOf] at hle
    have ht10 : (BitVec.ofNat 10 t).toNat = t := by rw [BitVec.toNat_ofNat]; omega
    refine fun _ => ⟨hv, ?_, .inr ?_⟩
    · show (BitVec.ofNat 10 t).toNat < s.nodeCnt.toNat
      omega
    · show (s.nm.read (BitVec.ofNat 10 t).toNat).any (fun n => !n.isLeaf) = true
      rw [ht10, hn]
      simpa using hl

/-- The loop of `DEC.BYTE` runs to its end, and keeps the decoder's invariant. -/
theorem feedBits_runs (bits : List Bool) : ∀ (c : Fed) (s : State), s.FtOk → (s.treeValid = true → s.TreeOk) →
    s.DecOk → ∃ u c', feedBits bits c s = .ok (u, c') ∧ u.DecOk := by
  induction bits with
  | nil => exact fun c s _ _ hd => ⟨s, c, rfl, hd⟩
  | cons b bits ih =>
    intro c s hf ht hd
    simp only [feedBits]
    split
    · next hrun =>
      obtain ⟨-, -, t, n, -, -, -, hn, e⟩ := decStep_runs hf ht hd hrun b
      rw [e]
      simp only [bind, Except.bind]
      have hdok := decOk_landed hf ht (hd hrun).1 hn
      obtain ⟨cur, cnt, st, out, el, -, -⟩ := landed_frame t n s
      refine ih _ _ ?_ ?_ hdok
      · rw [el]; exact hf
      · rw [el]; exact ht
    · exact ih c s hf ht hd

end Sys2Proof.Machine
end

