-- ==== Sys2Proof/Laws/FrequencyTable.lean ====
section
/-! SUPPORT. The frequency table: where a key is found, and what a put makes of a table that keeps the invariant. -/

namespace Sys2Proof.Machine

theorem ftFind_none {recs : List FtRec} {x : Sym} : ftFind recs x = none ↔ ∀ r ∈ recs, r.sym ≠ x := by
  simp [ftFind, List.findIdx?_eq_none_iff]

theorem ftFind_some {recs : List FtRec} {x : Sym} {p : Nat} (h : ftFind recs x = some p) :
    ∃ r, recs[p]? = some r ∧ r.sym = x := by
  obtain ⟨hp, he, -⟩ := List.findIdx?_eq_some_iff_getElem.1 h
  exact ⟨recs[p], List.getElem?_eq_getElem hp, by simpa using he⟩

/-- A key stands at one position only (10_state.md R26 (a)). -/
theorem ftFind_eq {recs : List FtRec} (hk : (recs.map FtRec.sym).Nodup) {p : Nat} {r : FtRec}
    (hr : recs[p]? = some r) : ftFind recs r.sym = some p := by
  cases hf : ftFind recs r.sym with
  | none => exact absurd rfl (ftFind_none.1 hf r (List.mem_of_getElem? hr))
  | some q =>
    obtain ⟨r', hr', e⟩ := ftFind_some hf
    obtain ⟨hp, e1⟩ := List.getElem?_eq_some_iff.1 hr
    obtain ⟨hq, e2⟩ := List.getElem?_eq_some_iff.1 hr'
    have := (List.Nodup.getElem_inj_iff hk (i := q) (j := p) (hi := by simpa using hq) (hj := by simpa using hp)).1
      (by simp [e1, e2, e])
    rw [this]

/-- Overwriting a listed record of an array with indices 0 to `n - 1`. -/
theorem Memory.snd_write_listed {α : Type} {m : Memory α} {n p : Nat} (h : m.map Prod.fst = List.range n) (hp : p < n)
    (x : α) : (m.write p x).map Prod.fst = List.range n ∧ (m.write p x).map Prod.snd = (m.map Prod.snd).set p x := by
  have hi : (m.write p x).map Prod.fst = List.range n := by
    rw [Memory.write_listed_indices (by rw [h]; exact List.pairwise_lt_range) (by rw [h]; exact List.mem_range.2 hp), h]
  refine ⟨hi, List.ext_getElem? fun i => ?_⟩
  have hl := Memory.length_of_range h
  rw [← Memory.read_of_range hi, Memory.read_write, Memory.read_of_range h, List.getElem?_set]
  by_cases e : i = p
  · subst e
    simp [hl, hp]
  · simp [e, Ne.symm e]

/-- A table without a key has room for it (10_state.md R26 (d)). -/
theorem State.FtOk.room {s : State} (h : s.FtOk) {x : Sym} (hx : x.toNat ≤ 256) (hn : ∀ r ∈ s.recs, r.sym ≠ x) :
    s.ftLen.toNat < 257 := by
  have hnd : ((x :: s.recs.map FtRec.sym).map BitVec.toNat).Nodup := by
    refine List.Nodup.map (fun a b e => BitVec.eq_of_toNat_eq e) (List.nodup_cons.2 ⟨?_, h.keys_nodup⟩)
    intro hm
    obtain ⟨r, hr, e⟩ := List.mem_map.1 hm
    exact hn r hr e
  have hsub : (x :: s.recs.map FtRec.sym).map BitVec.toNat ⊆ List.range 257 := by
    intro k hk
    rw [List.mem_range]
    simp only [List.map_cons, List.mem_cons, List.map_map, List.mem_map, Function.comp_apply] at hk
    rcases hk with rfl | ⟨r, hr, rfl⟩
    · omega
    · have := h.2.2.2.1 r hr
      omega
  have := (hnd.subperm hsub).length_le
  have hl := h.length_recs
  simp only [List.length_map, List.length_cons, List.length_range] at this hl
  omega

/-- A put of a new key appends its record. -/
theorem ftPut_new {s : State} (h : s.FtOk) {x : Sym} {c : Count} (hx : x.toNat ≤ 256) (hc : c ≠ 0)
    (hn : ∀ r ∈ s.recs, r.sym ≠ x) :
    ftPut x c s = .ok (respond .ok (field 0 s.ftLen)
      { s with ft := s.ft.write s.ftLen.toNat { sym := x, count := c }, ftLen := s.ftLen + 1 }) ∧
    State.FtOk { s with ft := s.ft.write s.ftLen.toNat { sym := x, count := c }, ftLen := s.ftLen + 1 } := by
  have hroom := h.room hx hn
  obtain ⟨e1, e2⟩ := Memory.write_range h.1 { sym := x, count := c }
  have hlen : (s.ftLen + 1).toNat = s.ftLen.toNat + 1 := by rw [BitVec.toNat_add]; simp; omega
  constructor
  · simp only [ftPut, bind, Except.bind, h.ftRecords, ftFind_none.2 hn, pure, Except.pure]
    rw [Memory.store_of_lt _ _ (show s.ftLen.toNat < Config.nSym from hroom)]
  · refine ⟨by simp only [hlen]; exact e2, ?_, ?_, ?_, by simp only [hlen]; omega⟩
    · simp only [e1, List.map_append, List.map_cons, List.map_nil]
      refine List.nodup_append.2 ⟨h.2.1, by simp, ?_⟩
      intro a ha b hb
      simp only [List.mem_singleton] at hb
      subst hb
      obtain ⟨d, hd, rfl⟩ := List.mem_map.1 ha
      exact hn d.2 (List.mem_map.2 ⟨d, hd, rfl⟩)
    · simp only [e1]
      intro d hd
      rcases List.mem_append.1 hd with hd | hd
      · exact h.2.2.1 d hd
      · simp only [List.mem_singleton] at hd
        subst hd
        exact hc
    · simp only [e1]
      intro d hd
      rcases List.mem_append.1 hd with hd | hd
      · exact h.2.2.2.1 d hd
      · simp only [List.mem_singleton] at hd
        subst hd
        exact hx

/-- A put of a key already present overwrites its record in place. -/
theorem ftPut_old {s : State} (h : s.FtOk) {c : Count} (hc : c ≠ 0) {p : Nat} {r : FtRec}
    (hr : s.ft.read p = some r) :
    ftPut r.sym c s = .ok (respond .ok (field 0 (BitVec.ofNat 10 p) ||| field 16 1#1)
      { s with ft := s.ft.write p { sym := r.sym, count := c } }) ∧
    State.FtOk { s with ft := s.ft.write p { sym := r.sym, count := c } } := by
  have hp := Memory.lt_of_read_of_range h.1 hr
  have hb := h.2.2.2.2
  have hr' : s.recs[p]? = some r := by rw [← h.read]; exact hr
  obtain ⟨e1, e2⟩ := Memory.snd_write_listed h.1 hp { sym := r.sym, count := c }
  have hmem : ∀ d ∈ s.ft.write p { sym := r.sym, count := c }, d.2 = { sym := r.sym, count := c } ∨ d ∈ s.ft := by
    intro d hd
    rcases Memory.mem_write hd with rfl | hd
    · exact .inl rfl
    · exact .inr hd
  constructor
  · simp only [ftPut, bind, Except.bind, h.ftRecords, ftFind_eq h.keys_nodup hr', pure, Except.pure]
    rw [Memory.store_of_lt _ _ (show p < Config.nSym by simp only [Config.nSym]; omega)]
  · refine ⟨e1, ?_, ?_, ?_, hb⟩
    · have hk : (s.ft.write p { sym := r.sym, count := c }).map (fun d => d.2.sym) = s.recs.map FtRec.sym := by
        have : (s.ft.write p { sym := r.sym, count := c }).map (fun d => d.2.sym) =
            ((s.ft.write p { sym := r.sym, count := c }).map Prod.snd).map FtRec.sym := by rw [List.map_map]; rfl
        rw [this, e2, List.map_set]
        refine List.ext_getElem? fun i => ?_
        rw [List.getElem?_set]
        split
        · next e =>
          subst e
          split
          · rw [List.getElem?_map, hr']
            rfl
          · next hl => rw [List.getElem?_eq_none (Nat.le_of_not_lt hl)]
        · rfl
      rw [hk]
      exact h.keys_nodup
    · intro d hd
      rcases hmem d hd with e | hd
      · rw [e]; exact hc
      · exact h.2.2.1 d hd
    · intro d hd
      rcases hmem d hd with e | hd
      · rw [e]; exact h.syms_le r (List.mem_of_getElem? hr')
      · exact h.2.2.2.1 d hd

/-- Any put of a legal key and count runs, and keeps the invariant of the table. -/
theorem ftPut_runs {s : State} (h : s.FtOk) {x : Sym} {c : Count} (hx : x.toNat ≤ 256) (hc : c ≠ 0) :
    ∃ p u, ftPut x c s = .ok (respond .ok p u) ∧ u.FtOk ∧ ∃ ft' len', u = { s with ft := ft', ftLen := len' } := by
  cases hf : ftFind s.recs x with
  | none =>
    obtain ⟨e, ok⟩ := ftPut_new h hx hc (ftFind_none.1 hf)
    exact ⟨_, _, e, ok, _, _, rfl⟩
  | some p =>
    obtain ⟨r, hr, rfl⟩ := ftFind_some hf
    obtain ⟨e, ok⟩ := ftPut_old h hc (by rw [h.read]; exact hr)
    exact ⟨_, _, e, ok, _, s.ftLen, rfl⟩

end Sys2Proof.Machine
end

