-- ==== Sys2Proof/Laws/Pack.lean ====
section
/-! SUPPORT. The bit packer: what emitting a list of bits does, and what flushing does. -/

namespace Sys2Proof.Machine

theorem getLsbD_setBit (acc : Byte) {k i : Nat} (b : Bool) (hi : i < 8) :
    (setBit acc k b).getLsbD i = if i = k then b else acc.getLsbD i := by
  unfold setBit
  simp only [BitVec.getLsbD_or, BitVec.getLsbD_and, BitVec.getLsbD_not, BitVec.getLsbD_shiftLeft,
    BitVec.getLsbD_setWidth, BitVec.getLsbD_one, BitVec.getLsbD_ofBool]
  rcases Nat.lt_trichotomy i k with h | rfl | h
  · simp [hi, h, Nat.ne_of_lt h]
  · simp [hi]
  · have h0 : i - k ≠ 0 := by omega
    have h1 : ¬ i < k := by omega
    have h2 : i ≠ k := by omega
    simp [hi, h0, h1, h2]

/-- The bits of the packer's byte not yet taken are zero (10_state.md R36). -/
abbrev LowZero (n : BitVec 3) (acc : Byte) : Prop := ∀ k < 8 - n.toNat, acc.getLsbD k = false

/-- The first `n` bits of the packer's byte, oldest first. -/
def topBits (n : BitVec 3) (acc : Byte) : List Bool := (List.range n.toNat).map (fun k => acc.getLsbD (7 - k))

theorem pendingBits_eq (s : State) : pendingBits s = topBits s.pkN s.pkAcc := rfl

@[simp] theorem topBits_length (n : BitVec 3) (acc : Byte) : (topBits n acc).length = n.toNat := by simp [topBits]

@[simp] theorem topBits_zero (acc : Byte) : topBits 0 acc = [] := rfl

theorem lowZero_zero : LowZero 0 0 := by simp [LowZero]

theorem topBits_getD {n : BitVec 3} {acc : Byte} (h : LowZero n acc) {j : Nat} (hj : j < 8) :
    (topBits n acc).getD j false = acc.getLsbD (7 - j) := by
  by_cases hjn : j < n.toNat
  · rw [List.getD_eq_getElem _ _ (by simpa using hjn)]
    simp [topBits]
  · rw [List.getD_eq_default _ _ (by simpa using hjn)]
    exact (h _ (by omega)).symm

/-- One more bit into a byte that stays unfinished. -/
theorem setBit_more {n : BitVec 3} {acc : Byte} (h : LowZero n acc) (hn : n ≠ 7) (b : Bool) :
    LowZero (n + 1) (setBit acc (7 - n.toNat) b) ∧
      topBits (n + 1) (setBit acc (7 - n.toNat) b) = topBits n acc ++ [b] := by
  have hlt : n.toNat < 7 := by
    have := n.isLt
    have : n.toNat ≠ 7 := fun e => hn (BitVec.eq_of_toNat_eq e)
    omega
  have hs : (n + 1).toNat = n.toNat + 1 := by rw [BitVec.toNat_add]; simp; omega
  constructor
  · intro k hk
    rw [hs] at hk
    rw [getLsbD_setBit _ _ (by omega), if_neg (by omega)]
    exact h k (by omega)
  · simp only [topBits, hs, List.range_succ, List.map_append, List.map_cons, List.map_nil]
    congr 1
    · apply List.map_congr_left
      intro k hk
      rw [List.mem_range] at hk
      rw [getLsbD_setBit _ _ (by omega), if_neg (by omega)]
    · rw [getLsbD_setBit _ _ (by omega), if_pos rfl]

/-- The bit that finishes a byte. -/
theorem setBit_last {acc : Byte} (b : Bool) {j : Nat} (hj : j < 8) :
    (setBit acc 0 b).getLsbD (7 - j) = (topBits 7 acc ++ [b]).getD j false := by
  rw [getLsbD_setBit _ _ (by omega)]
  split
  · next h => obtain rfl : j = 7 := by omega
              rfl
  · next h =>
    have h7 : j < 7 := by omega
    rw [List.getD_append _ _ _ _ (by simpa using h7), List.getD_eq_getElem _ _ (by simpa using h7)]
    simp [topBits]

theorem PacksTo_nil (B : List Bool) : PacksTo B [] := by simp [PacksTo]

/-- Eight bits and the byte that holds them, before a packed stream. -/
theorem PacksTo_cons {B C : List Bool} {v : Byte} {bytes : List Byte} (hB : B.length = 8)
    (hv : ∀ j < 8, v.getLsbD (7 - j) = B.getD j false) (h : PacksTo C bytes) : PacksTo (B ++ C) (v :: bytes) := by
  intro j hj
  by_cases h8 : j < 8
  · rw [List.getD_append _ _ _ _ (by omega)]
    simp [packedBit, Nat.div_eq_of_lt h8, Nat.mod_eq_of_lt h8, hv j h8]
  · rw [List.getD_append_right _ _ _ _ (by omega), hB, ← h (j - 8) (by simp only [List.length_cons] at hj; omega)]
    have e1 : j / 8 = (j - 8) / 8 + 1 := by omega
    have e2 : j % 8 = (j - 8) % 8 := by omega
    rw [packedBit, packedBit, e1, e2, List.getElem?_cons_succ]

/-- The unfinished byte holds the waiting bits. -/
theorem PacksTo_top {n : BitVec 3} {acc : Byte} (h : LowZero n acc) : PacksTo (topBits n acc) [acc] := by
  intro j hj
  have h8 : j < 8 := by simpa using hj
  rw [topBits_getD h h8]
  simp [packedBit, Nat.div_eq_of_lt h8, Nat.mod_eq_of_lt h8]

theorem ofNat_succ48 (x : Counter) (k : Nat) : x + 1 + BitVec.ofNat 48 k = x + BitVec.ofNat 48 (k + 1) := by
  rw [BitVec.ofNat_add, BitVec.add_assoc, BitVec.add_comm 1 (BitVec.ofNat 48 k)]
  rfl

/-- What `emit_bit` of a list of bits can change, in any state. -/
theorem emitBits_frame (bits : List Bool) : ∀ s : State, ∃ bc n acc out, emitBits bits s =
    { s with tapLog := s.tapLog ++ bits, encBitcnt := bc, pkN := n, pkAcc := acc, encOut := s.encOut ++ out } := by
  induction bits with
  | nil => exact fun s => ⟨s.encBitcnt, s.pkN, s.pkAcc, [], by simp [emitBits]⟩
  | cons b bits ih =>
    intro s
    have h1 : ∃ bc n acc out, emitBit b s =
        { s with tapLog := s.tapLog ++ [b], encBitcnt := bc, pkN := n, pkAcc := acc, encOut := s.encOut ++ out } := by
      unfold emitBit
      simp only
      split
      · exact ⟨s.encBitcnt + 1, s.pkN, s.pkAcc, [], by simp⟩
      · unfold packBit
        simp only
        split
        · exact ⟨s.encBitcnt + 1, 0, 0, [_], rfl⟩
        · exact ⟨s.encBitcnt + 1, s.pkN + 1, _, [], by simp; rfl⟩
    obtain ⟨bc, n, acc, out, e⟩ := h1
    obtain ⟨bc', n', acc', out', e'⟩ := ih (emitBit b s)
    refine ⟨bc', n', acc', out ++ out', ?_⟩
    have : emitBits (b :: bits) s = emitBits bits (emitBit b s) := rfl
    rw [this, e', e]
    simp

/-- What the end of a session can change, in any state. -/
theorem closeEncode_frame (c : Code) (s : State) : ∃ bc n acc out, closeEncode c s =
    { s with tapLog := s.tapLog ++ c, encBitcnt := bc, pkN := n, pkAcc := acc, encOut := s.encOut ++ out,
             encState := .done } := by
  obtain ⟨bc, n, acc, out, e⟩ := emitBits_frame c s
  unfold closeEncode flush
  split
  · refine ⟨bc, 0, 0, out ++ [acc], ?_⟩
    rw [e]
    simp [pushEnc]
  · exact ⟨bc, n, acc, out, by rw [e]⟩

/-- Everything `emit_bit` of a list of bits does in a live session (43_encoder.md R195). -/
theorem emitBits_live (bits : List Bool) : ∀ s : State, s.encDry = false → LowZero s.pkN s.pkAcc →
    ∃ (n : BitVec 3) (acc : Byte) (out : List Byte),
      emitBits bits s = { s with tapLog := s.tapLog ++ bits, encBitcnt := s.encBitcnt + BitVec.ofNat 48 bits.length,
                                 pkN := n, pkAcc := acc, encOut := s.encOut ++ out } ∧
      LowZero n acc ∧
      out.length = (pendingBits s ++ bits).length / 8 ∧ n.toNat = (pendingBits s ++ bits).length % 8 ∧
      PacksTo (pendingBits s ++ bits) (out ++ [acc]) ∧ topBits n acc <:+ pendingBits s ++ bits := by
  induction bits with
  | nil =>
    intro s _ hz
    have hlt := s.pkN.isLt
    refine ⟨s.pkN, s.pkAcc, [], by simp [emitBits], hz, ?_, ?_, ?_, ?_⟩
    · simp [pendingBits_eq]; omega
    · simp [pendingBits_eq]; omega
    · simpa [pendingBits_eq] using PacksTo_top hz
    · simp [pendingBits_eq]
  | cons b bits ih =>
    intro s hd hz
    by_cases h7 : s.pkN = 7
    · obtain ⟨n, acc, out, e, z, l, m, p, q⟩ := ih
        { s with tapLog := s.tapLog ++ [b], encBitcnt := s.encBitcnt + 1,
                 encOut := s.encOut ++ [setBit s.pkAcc 0 b], pkAcc := 0, pkN := 0 } hd lowZero_zero
      simp only [pendingBits_eq, topBits_zero, List.nil_append] at l m p q
      have hl : (pendingBits s ++ [b]).length = 8 := by simp [pendingBits_eq, h7]
      have hB : pendingBits s ++ b :: bits = (pendingBits s ++ [b]) ++ bits := by simp
      refine ⟨n, acc, setBit s.pkAcc 0 b :: out, ?_, z, ?_, ?_, ?_, ?_⟩
      · have : emitBits (b :: bits) s = emitBits bits
            { s with tapLog := s.tapLog ++ [b], encBitcnt := s.encBitcnt + 1,
                     encOut := s.encOut ++ [setBit s.pkAcc 0 b], pkAcc := 0, pkN := 0 } := by
          simp [emitBits, emitBit, packBit, pushEnc, hd, h7]
        rw [this, e]
        simp only [List.append_assoc, List.cons_append, List.nil_append, List.length_cons, ofNat_succ48]
      · rw [hB, List.length_append, hl, List.length_cons, l]; omega
      · rw [hB, List.length_append, hl, m]; omega
      · rw [hB, List.cons_append]
        refine PacksTo_cons hl (fun j hj => ?_) p
        rw [pendingBits_eq, h7]
        exact setBit_last b hj
      · rw [hB]; exact q.trans (List.suffix_append _ _)
    · obtain ⟨z1, t1⟩ := setBit_more hz h7 b
      obtain ⟨n, acc, out, e, z, l, m, p, q⟩ := ih
        { s with tapLog := s.tapLog ++ [b], encBitcnt := s.encBitcnt + 1,
                 pkAcc := setBit s.pkAcc (7 - s.pkN.toNat) b, pkN := s.pkN + 1 } hd z1
      have hB : pendingBits s ++ b :: bits = topBits (s.pkN + 1) (setBit s.pkAcc (7 - s.pkN.toNat) b) ++ bits := by
        rw [t1, pendingBits_eq]; simp
      rw [pendingBits_eq] at l m p q
      simp only at l m p q
      rw [← hB] at l m p q
      refine ⟨n, acc, out, ?_, z, l, m, p, q⟩
      have : emitBits (b :: bits) s = emitBits bits
          { s with tapLog := s.tapLog ++ [b], encBitcnt := s.encBitcnt + 1,
                   pkAcc := setBit s.pkAcc (7 - s.pkN.toNat) b, pkN := s.pkN + 1 } := by
        simp only [emitBits, List.foldl_cons, emitBit, packBit, hd, if_neg h7, Bool.false_eq_true, if_false]
      rw [this, e]
      simp only [List.append_assoc, List.cons_append, List.nil_append, List.length_cons, ofNat_succ48]

/-- Everything `emit_bit` of a list of bits does in a dry run (43_encoder.md R195, R197). -/
theorem emitBits_dry (bits : List Bool) : ∀ s : State, s.encDry = true →
    emitBits bits s =
      { s with tapLog := s.tapLog ++ bits, encBitcnt := s.encBitcnt + BitVec.ofNat 48 bits.length } := by
  induction bits with
  | nil => intro s _; simp [emitBits]
  | cons b bits ih =>
    intro s hd
    have : emitBits (b :: bits) s = emitBits bits
        { s with tapLog := s.tapLog ++ [b], encBitcnt := s.encBitcnt + 1 } := by
      simp [emitBits, emitBit, hd]
    rw [this, ih { s with tapLog := s.tapLog ++ [b], encBitcnt := s.encBitcnt + 1 } hd]
    simp only [List.append_assoc, List.cons_append, List.nil_append, List.length_cons, ofNat_succ48]

theorem flush_dry {s : State} (h : s.encDry = true) : flush s = s := by simp [flush, h]

theorem flush_empty {s : State} (h : s.pkN = 0) : flush s = s := by simp [flush, h]

theorem flush_live {s : State} (h : s.encDry = false) (hn : s.pkN ≠ 0) :
    flush s = { s with encOut := s.encOut ++ [s.pkAcc], pkAcc := 0, pkN := 0 } := by
  unfold flush
  rw [if_pos ⟨h, hn⟩]
  rfl

/-- Dropping the last byte of a packed stream. -/
theorem PacksTo_append_left {B : List Bool} {xs ys : List Byte} (h : PacksTo B (xs ++ ys)) : PacksTo B xs := by
  intro j hj
  rw [← h j (by simp; omega), packedBit, packedBit, List.getElem?_append_left (by omega)]

/-- A packed stream of whole bytes, and another after it. -/
theorem PacksTo_append {B C : List Bool} {xs ys : List Byte} (hB : B.length = 8 * xs.length) (hx : PacksTo B xs)
    (hy : PacksTo C ys) : PacksTo (B ++ C) (xs ++ ys) := by
  intro j hj
  rw [List.length_append] at hj
  by_cases h : j < 8 * xs.length
  · rw [packedBit, List.getElem?_append_left (by omega), List.getD_append _ _ _ _ (by omega)]
    exact hx j h
  · rw [packedBit, List.getElem?_append_right (by omega), List.getD_append_right _ _ _ _ (by omega), hB]
    have := hy (j - 8 * xs.length) (by omega)
    rw [packedBit] at this
    rw [show j / 8 - xs.length = (j - 8 * xs.length) / 8 by omega,
      show j % 8 = (j - 8 * xs.length) % 8 by omega]
    exact this

/-- The whole bytes of a stream, with the waiting bits, hold all its bits. -/
theorem split_waiting {B P : List Bool} {out : List Byte} (hs : P <:+ B) (hl : out.length = B.length / 8)
    (hn : P.length = B.length % 8) : B = B.take (8 * out.length) ++ P ∧ (B.take (8 * out.length)).length = 8 * out.length := by
  obtain ⟨F, rfl⟩ := hs
  rw [List.length_append] at hl hn
  have hF : 8 * out.length = F.length := by omega
  rw [hF, List.take_left]
  exact ⟨rfl, rfl⟩

/-- The first bits of a packed stream fill its first bytes. -/
theorem PacksTo_take {B : List Bool} {xs ys : List Byte} (h : PacksTo B (xs ++ ys)) :
    PacksTo (B.take (8 * xs.length)) xs := by
  intro j hj
  rw [PacksTo_append_left h j hj]
  simp [List.getD_eq_getElem?_getD, hj]

/-- An empty packer holds the byte 0. -/
theorem acc_zero_of_lowZero {acc : Byte} (h : LowZero 0 acc) : acc = 0 := by
  apply BitVec.eq_of_getLsbD_eq
  intro i hi
  simpa using h i (by simpa using hi)

/-- Everything the end of a session does, with the packer's bytes (43_encoder.md R194, R196). -/
theorem closeEncode_live {s : State} (c : Code) (hd : s.encDry = false) (hz : LowZero s.pkN s.pkAcc) :
    ∃ out : List Byte,
      closeEncode c s = { s with tapLog := s.tapLog ++ c, encBitcnt := s.encBitcnt + BitVec.ofNat 48 c.length,
                                 pkN := 0, pkAcc := 0, encOut := s.encOut ++ out, encState := .done } ∧
      out.length = ((pendingBits s ++ c).length + 7) / 8 ∧ PacksTo (pendingBits s ++ c) out := by
  obtain ⟨n, acc, out, e, z, l, m, p, -⟩ := emitBits_live c s hd hz
  by_cases hn : n = 0
  · subst hn
    have ha := acc_zero_of_lowZero z
    subst ha
    refine ⟨out, ?_, ?_, PacksTo_append_left p⟩
    · rw [closeEncode, flush_empty (by rw [e]), e]
    · rw [l]
      have : (pendingBits s ++ c).length % 8 = 0 := by rw [← m]; rfl
      omega
  · refine ⟨out ++ [acc], ?_, ?_, p⟩
    · rw [closeEncode, flush_live (by rw [e]; exact hd) (by rw [e]; exact hn), e]
      simp
    · have : n.toNat ≠ 0 := fun h => hn (BitVec.eq_of_toNat_eq h)
      rw [List.length_append, l, List.length_singleton]
      omega

theorem closeEncode_dry {s : State} (c : Code) (hd : s.encDry = true) :
    closeEncode c s = { s with tapLog := s.tapLog ++ c, encBitcnt := s.encBitcnt + BitVec.ofNat 48 c.length,
                               encState := .done } := by
  rw [closeEncode, flush_dry (by rw [emitBits_dry c s hd]; exact hd), emitBits_dry c s hd]

end Sys2Proof.Machine
end

