-- ==== Sys2Proof/Laws/Commands.lean ====
section
/-! SUPPORT. Everything a command can do, once: a command that answers either fails, with one of its statuses and the
effects of an error, or succeeds with the effect `Effect` says. The rules of the whole machine are read off from it. -/

namespace Sys2Proof.Machine

/-- The session changes of an error (60_exceptions.md R274 (c)). -/
def sessionsAfter (st : Status) (s : State) : State :=
  { s with encState := if st = .nocode then .fail else s.encState,
           decState := if st = .trunc then .fail else s.decState }

/-- What a command that succeeds makes of the state, its response aside. -/
def Effect (i : Instr) (s u : State) : Prop :=
  match i with
  | .nop | .statRd _ | .ftGet _ | .ftRd _ | .nmRd _ _ | .ctRd _ _ => u = s
  | .srst => u = resetBlock s
  | .ftClr => s.treeValid = false ∧ u = { s with ft := [], ftLen := 0 }
  | .ftPut _ _ => s.treeValid = false ∧ ∃ ft' len', u = { s with ft := ft', ftLen := len' }
  | .tbBuild => s.treeValid = false ∧ s.ftLen ≠ 0 ∧
      ∃ nm' cnt pq' r, u = { s with nm := nm', nodeCnt := cnt, pq := pq', root := r, treeValid := true }
  | .treeFree => s.treeValid = true ∧ s.decState ≠ .run ∧
      u = { s with nm := [], nodeCnt := 0, root := Config.nil, treeValid := false }
  | .ctGen => s.treeValid = true ∧ s.encState ≠ .run ∧
      ∃ ct', codesOfTree s.nm s.root.toNat = .ok ct' ∧ u = { s with ct := ct', codesValid := true }
  | .encStart _ => s.codesValid = true ∧ ∃ dry,
      u = { s with encDry := dry, encBitcnt := 0, pkAcc := 0, pkN := 0, encState := .run }
  | .encPut d => s.encState = .run ∧ ∃ c, s.ct.read d = some c ∧ u = emitBits c s
  | .encFin => s.encState = .run ∧ ∃ c, s.ct.read 256 = some c ∧ u = closeEncode c s
  | .decStart => s.treeValid = true ∧ u = { s with decCur := s.root, decCnt := 0, decBitcnt := 0, decState := .run }
  | .decBit _ => s.decState = .run ∧ ∃ b ev, decStep b s = .ok (u, ev)
  | .decByte _ => s.decState = .run ∧ ∃ bits c, feedBits bits { used := 0, lits := 0 } s = .ok (u, c)
  | .decEof => s.decState = .done ∧ u = s

/-- The two ways a command answers. -/
def Answers (i : Instr) (s t : State) : Prop :=
  (∃ st ∈ possibleErrors i, t = fail st (sessionsAfter st s) ∧
    (st = .nocode → s.encState = .run) ∧ (st = .trunc → s.decState = .run)) ∨
  (∃ p u, t = respond .ok p u ∧ Effect i s u)

theorem sessionsAfter_other {st : Status} (h1 : st ≠ .nocode) (h2 : st ≠ .trunc) (s : State) :
    sessionsAfter st s = s := by simp [sessionsAfter, h1, h2]

theorem answers_fail {i : Instr} {s : State} {st : Status} (h : st ∈ possibleErrors i) (h1 : st ≠ .nocode)
    (h2 : st ≠ .trunc) : Answers i s (fail st s) :=
  .inl ⟨st, h, by rw [sessionsAfter_other h1 h2], fun e => absurd e h1, fun e => absurd e h2⟩

theorem answers_ok {i : Instr} {s u : State} (p : Payload) (h : Effect i s u) : Answers i s (respond .ok p u) :=
  .inr ⟨p, u, rfl, h⟩

theorem byteOf_some {d : Nat} {v : Byte} (h : byteOf d = some v) : v.toNat = d ∧ d ≤ 255 := by
  unfold byteOf at h
  split at h
  · next hd => cases h; exact ⟨by rw [BitVec.toNat_ofNat]; omega, hd⟩
  · cases h

theorem byteOf_of_le {d : Nat} (h : d ≤ 255) : byteOf d = some (BitVec.ofNat 8 d) := if_pos h

theorem byteOf_toNat (v : Byte) : byteOf v.toNat = some v := by
  rw [byteOf_of_le (by have := v.isLt; omega), BitVec.ofNat_toNat, BitVec.setWidth_eq]

theorem symbolOf_of_le {a : Nat} (h : a ≤ 256) : symbolOf a = some (BitVec.ofNat 9 a) := if_pos h

theorem symbolOf_some {a : Nat} {x : Sym} (h : symbolOf a = some x) : x.toNat = a ∧ a ≤ 256 := by
  unfold symbolOf at h
  split at h
  · next ha =>
    have ha' : a ≤ 256 := ha
    cases h
    exact ⟨by rw [BitVec.toNat_ofNat]; omega, ha'⟩
  · cases h

theorem symbolOf_none {a : Nat} (h : 256 < a) : symbolOf a = none := if_neg (by have : Config.symEos.toNat = 256 := rfl
                                                                                omega)

theorem finish_bind {α : Type} {r : Except Fault α} {f : α → Except Fault State} {t : State}
    (h : finish (r.bind f) = .next t) : ∃ x, r = .ok x ∧ f x = .ok t := by
  rw [finish_next] at h
  cases r with
  | error e => cases h
  | ok x => exact ⟨x, rfl, h⟩

/-- Everything `exec` can answer with a next state. -/
theorem exec_cases {i : Instr} {s t : State} (h : exec i s = .next t) : Answers i s t := by
  cases i with
  | nop => cases h; exact answers_ok 0 rfl
  | srst => cases h; exact answers_ok 0 rfl
  | statRd sel =>
    simp only [exec, execStatRd] at h
    split at h <;> cases h
    · exact answers_fail (by simp [possibleErrors]) (by decide) (by decide)
    · exact answers_ok _ rfl
  | ftClr =>
    simp only [exec, execFtClr] at h
    split at h <;> cases h
    · exact answers_fail (by simp [possibleErrors]) (by decide) (by decide)
    · next hv => exact answers_ok _ ⟨by simpa using hv, rfl⟩
  | ftPut a d =>
    simp only [exec, execFtPut] at h
    split at h
    · split at h
      · cases h; exact answers_fail (by simp [possibleErrors]) (by decide) (by decide)
      · next hv =>
        obtain ⟨recs, -, h⟩ := finish_bind h
        split at h
        · cases hst : Memory.store Config.nSym s.ft s.ftLen.toNat { sym := ‹Sym›, count := ‹Count› } with
          | error e => rw [hst] at h; cases h
          | ok ft' => rw [hst] at h; cases h; exact answers_ok _ ⟨by simpa using hv, ft', _, rfl⟩
        · next p _ =>
          cases hst : Memory.store Config.nSym s.ft p { sym := ‹Sym›, count := ‹Count› } with
          | error e => rw [hst] at h; cases h
          | ok ft' => rw [hst] at h; cases h; exact answers_ok _ ⟨by simpa using hv, ft', _, rfl⟩
    · cases h; exact answers_fail (by simp [possibleErrors]) (by decide) (by decide)
  | ftGet a =>
    simp only [exec, execFtGet] at h
    split at h
    · cases h; exact answers_fail (by simp [possibleErrors]) (by decide) (by decide)
    · obtain ⟨recs, -, h⟩ := finish_bind h
      cases h
      exact answers_ok _ rfl
  | ftRd a =>
    simp only [exec, execFtRd] at h
    split at h
    · cases h; exact answers_fail (by simp [possibleErrors]) (by decide) (by decide)
    · obtain ⟨r, -, h⟩ := finish_bind h
      cases h
      exact answers_ok _ rfl
  | tbBuild =>
    simp only [exec, execTbBuild] at h
    split at h
    · cases h; exact answers_fail (by simp [possibleErrors]) (by decide) (by decide)
    · next hv =>
      split at h
      · cases h; exact answers_fail (by simp [possibleErrors]) (by decide) (by decide)
      · next hl =>
        obtain ⟨recs, -, h⟩ := finish_bind h
        cases hb : buildTree recs { nm := s.nm, nodeCnt := s.nodeCnt, pq := s.pq } with
        | error e => rw [hb] at h; cases h
        | ok x =>
          obtain ⟨r, b⟩ := x
          rw [hb] at h
          cases h
          exact answers_ok _ ⟨by simpa using hv, hl, _, _, _, _, rfl⟩
  | treeFree =>
    simp only [exec, execTreeFree] at h
    split at h
    · cases h; exact answers_fail (by simp [possibleErrors]) (by decide) (by decide)
    · next hv =>
      split at h <;> cases h
      · exact answers_fail (by simp [possibleErrors]) (by decide) (by decide)
      · next hd => exact answers_ok _ ⟨by simpa using hv, hd, rfl⟩
  | nmRd sel a =>
    simp only [exec, execNmRd] at h
    split at h
    · obtain ⟨r, -, h⟩ := finish_bind h
      cases h
      exact answers_ok _ rfl
    · cases h; exact answers_fail (by simp [possibleErrors]) (by decide) (by decide)
  | ctGen =>
    simp only [exec, execCtGen] at h
    split at h
    · cases h; exact answers_fail (by simp [possibleErrors]) (by decide) (by decide)
    · next hv =>
      split at h
      · cases h; exact answers_fail (by simp [possibleErrors]) (by decide) (by decide)
      · next he =>
        obtain ⟨ct', hc, h⟩ := finish_bind h
        cases h
        exact answers_ok _ ⟨by simpa using hv, he, ct', hc, rfl⟩
  | ctRd sel a =>
    simp only [exec, execCtRd] at h
    split at h
    · split at h <;> cases h <;> exact answers_ok _ rfl
    · cases h; exact answers_fail (by simp [possibleErrors]) (by decide) (by decide)
  | encStart sel =>
    simp only [exec, execEncStart] at h
    split at h
    · cases h; exact answers_fail (by simp [possibleErrors]) (by decide) (by decide)
    · split at h <;> cases h
      · exact answers_fail (by simp [possibleErrors]) (by decide) (by decide)
      · next hv => exact answers_ok _ ⟨by simpa using hv, _, rfl⟩
  | encPut d =>
    simp only [exec, execEncPut] at h
    split at h
    · cases h; exact answers_fail (by simp [possibleErrors]) (by decide) (by decide)
    · next v hv =>
      split at h
      · cases h; exact answers_fail (by simp [possibleErrors]) (by decide) (by decide)
      · next hr =>
        have hr : s.encState = .run := not_not.1 hr
        rw [(byteOf_some hv).1] at h
        split at h <;> cases h
        · exact .inl ⟨.nocode, by simp [possibleErrors], rfl, fun _ => hr, fun e => by cases e⟩
        · next c hc => exact answers_ok _ ⟨hr, c, hc, rfl⟩
  | encFin =>
    simp only [exec, execEncFin] at h
    split at h
    · cases h; exact answers_fail (by simp [possibleErrors]) (by decide) (by decide)
    · next hr =>
      have hr : s.encState = .run := not_not.1 hr
      split at h <;> cases h
      · exact .inl ⟨.nocode, by simp [possibleErrors], rfl, fun _ => hr, fun e => by cases e⟩
      · next c hc => exact answers_ok _ ⟨hr, c, hc, rfl⟩
  | decStart =>
    simp only [exec, execDecStart] at h
    split at h <;> cases h
    · exact answers_fail (by simp [possibleErrors]) (by decide) (by decide)
    · next hv => exact answers_ok _ ⟨by simpa using hv, rfl⟩
  | decBit d =>
    simp only [exec, execDecBit] at h
    split at h
    · cases h; exact answers_fail (by simp [possibleErrors]) (by decide) (by decide)
    · split at h
      · cases h; exact answers_fail (by simp [possibleErrors]) (by decide) (by decide)
      · next b _ hr =>
        obtain ⟨⟨u, ev⟩, hd, h⟩ := finish_bind h
        cases h
        exact answers_ok _ ⟨not_not.1 hr, b, ev, hd⟩
  | decByte d =>
    simp only [exec, execDecByte] at h
    split at h
    · cases h; exact answers_fail (by simp [possibleErrors]) (by decide) (by decide)
    · split at h
      · cases h; exact answers_fail (by simp [possibleErrors]) (by decide) (by decide)
      · next hr =>
        obtain ⟨⟨u, c⟩, hd, h⟩ := finish_bind h
        cases h
        exact answers_ok _ ⟨not_not.1 hr, _, c, hd⟩
  | decEof =>
    simp only [exec, execDecEof] at h
    split at h <;> cases h
    · next hr => exact .inl ⟨.trunc, by simp [possibleErrors], rfl, (fun e => by cases e), fun _ => hr⟩
    · next hr => exact answers_ok _ ⟨hr, rfl⟩
    · exact answers_fail (by simp [possibleErrors]) (by decide) (by decide)
    · exact answers_fail (by simp [possibleErrors]) (by decide) (by decide)

end Sys2Proof.Machine
end

