-- ==== Sys2Proof/Laws/Encoding.lean ====
section
/-! SUPPORT. The fields of a word as numbers, and that a word and its fields determine each other. -/

namespace Sys2Proof

theorem slice_eq (w : Word) (hi lo : Nat) : slice w hi lo = w.toNat / 2 ^ lo % 2 ^ (hi - lo + 1) := by
  simp [slice, BitVec.extractLsb_toNat, Nat.shiftRight_eq_div_pow]

/-- The layout of 30_encoding.md R91 as arithmetic on the word. -/
theorem fieldsOf_eq (w : Word) : fieldsOf w =
    ⟨w.toNat / 2 ^ 56, w.toNat / 2 ^ 48 % 2 ^ 8, w.toNat / 2 ^ 32 % 2 ^ 16, w.toNat % 2 ^ 32⟩ := by
  have hw := w.isLt
  simp only [fieldsOf, slice_eq, Fields.mk.injEq, true_and]
  refine ⟨?_, ?_⟩
  · have : w.toNat / 2 ^ 56 < 2 ^ 8 := by omega
    exact Nat.mod_eq_of_lt this
  · simp

theorem toNat_wordOf (f : Fields) : (wordOf f).toNat =
    f.op % 2 ^ 8 * 2 ^ 56 + f.sel % 2 ^ 8 * 2 ^ 48 + f.a % 2 ^ 16 * 2 ^ 32 + f.d % 2 ^ 32 := by
  unfold wordOf
  rw [BitVec.toNat_append, ← Nat.shiftLeft_add_eq_or_of_lt (BitVec.isLt _), BitVec.toNat_append,
    ← Nat.shiftLeft_add_eq_or_of_lt (BitVec.isLt _), BitVec.toNat_append,
    ← Nat.shiftLeft_add_eq_or_of_lt (BitVec.isLt _)]
  simp only [Nat.shiftLeft_eq, BitVec.toNat_ofNat]
  ring

/-- Fields that fit survive the word. -/
theorem fieldsOf_wordOf (f : Fields) (ho : f.op < 2 ^ 8) (hs : f.sel < 2 ^ 8) (ha : f.a < 2 ^ 16) (hd : f.d < 2 ^ 32) :
    fieldsOf (wordOf f) = f := by
  obtain ⟨op, sel, a, d⟩ := f
  rw [fieldsOf_eq, toNat_wordOf]
  simp only at ho hs ha hd
  simp only [Fields.mk.injEq]
  refine ⟨?_, ?_, ?_, ?_⟩ <;> omega

/-- A word is the word of its fields: no bit lies outside them. -/
theorem wordOf_fieldsOf (w : Word) : wordOf (fieldsOf w) = w := by
  have hw := w.isLt
  apply BitVec.eq_of_toNat_eq
  rw [toNat_wordOf, fieldsOf_eq]
  simp only
  omega

theorem op_fieldsOf (w : Word) : (fieldsOf w).op = w.toNat / 2 ^ 56 := by rw [fieldsOf_eq]

/-- The fields of every word fit. -/
theorem fieldsOf_fit (w : Word) :
    (fieldsOf w).op < 2 ^ 8 ∧ (fieldsOf w).sel < 2 ^ 8 ∧ (fieldsOf w).a < 2 ^ 16 ∧ (fieldsOf w).d < 2 ^ 32 := by
  have hw := w.isLt
  rw [fieldsOf_eq]
  refine ⟨?_, ?_, ?_, ?_⟩ <;> simp only <;> omega

/-- What a word that decodes to a command says: a row of the map has its opcode, its must-be-zero fields are zero, and
the command is the row's. -/
theorem decode_instr {w : Word} {i : Instr} (h : decode w = .instr i) :
    ∃ r ∈ rows, r.opcode = (fieldsOf w).op ∧ r.format.mbzOk (fieldsOf w) = true ∧ i = r.build (fieldsOf w) := by
  unfold decode at h
  split at h
  · cases h
  · next r hr =>
    split at h
    · next hm =>
      cases h
      exact ⟨r, List.mem_of_find?_eq_some hr, by simpa using List.find?_some hr, hm, rfl⟩
    · cases h

/-- The opcodes of the map are pairwise different (30_encoding.md R96). -/
theorem opcodes_nodup : (rows.map Row.opcode).Nodup := by decide

/-- The row an opcode selects is the only one with it. -/
theorem find_row {r : Row} (hr : r ∈ rows) : rows.find? (fun q => q.opcode == r.opcode) = some r := by
  have key : ∀ (l : List Row), (l.map Row.opcode).Nodup → r ∈ l →
      l.find? (fun q => q.opcode == r.opcode) = some r := by
    intro l
    induction l with
    | nil => simp
    | cons q l ih =>
      intro hn hm
      simp only [List.map_cons, List.nodup_cons] at hn
      rcases List.mem_cons.1 hm with rfl | hm
      · simp
      · have : q.opcode ≠ r.opcode := fun e => hn.1 (e ▸ List.mem_map.2 ⟨r, hm, rfl⟩)
        simp [this, ih hn.2 hm]
  exact key rows opcodes_nodup hr

/-- A word with a row's opcode and zero must-be-zero fields is that row's command. -/
theorem decode_of_row {w : Word} {r : Row} (hr : r ∈ rows) (ho : r.opcode = (fieldsOf w).op)
    (hm : r.format.mbzOk (fieldsOf w) = true) : decode w = .instr (r.build (fieldsOf w)) := by
  have h := find_row hr
  rw [ho] at h
  simp [decode, h, hm]

end Sys2Proof
end

