-- ==== Sys2Proof/Laws/Feed.lean ====
section
/-! SUPPORT. Feeding bits to an open decode session: a run of decoder steps, what `DEC.BIT` commands and the loop of
`DEC.BYTE` make of it, and that the bits of a code take the decoder to the code's leaf. -/

namespace Sys2Proof.Machine

/-- The bits take the decoder from `s` to `u`, the session being open before each of them. -/
def Steps : List Bool → State → State → Prop
  | [], s, u => u = s
  | b :: bs, s, u => s.decState = .run ∧ ∃ m ev, decStep b s = .ok (m, ev) ∧ Steps bs m u

theorem Steps.append {bs cs : List Bool} : ∀ {s m u : State}, Steps bs s m → Steps cs m u → Steps (bs ++ cs) s u := by
  induction bs with
  | nil => intro s m u h k; cases h; exact k
  | cons b bs ih =>
    rintro s m u ⟨hr, x, ev, hx, h⟩ k
    exact ⟨hr, x, ev, hx, ih h k⟩

/-- The decoder's registers and its output stream are all that steps change. -/
theorem Steps.frame {bs : List Bool} : ∀ {s u : State}, Steps bs s u →
    ∃ bc cur cnt st out, u =
      { s with decBitcnt := bc, decCur := cur, decCnt := cnt, decState := st, decOut := s.decOut ++ out } := by
  induction bs with
  | nil =>
    intro s u h
    cases h
    exact ⟨s.decBitcnt, s.decCur, s.decCnt, s.decState, [], by simp⟩
  | cons b bs ih =>
    rintro s u ⟨hr, m, ev, hm, h⟩
    obtain ⟨t, n, -, -, rfl, -⟩ := decStep_ok hm
    obtain ⟨cur, cnt, st, out, e, -, -⟩ := landed_frame t n s
    obtain ⟨bc', cur', cnt', st', out', e'⟩ := ih h
    refine ⟨bc', cur', cnt', st', out ++ out', ?_⟩
    rw [e', e]
    simp

/-- The response log plays no part in a step. -/
theorem decStep_rspLog {b : Bool} {s u : State} {ev : DecEvent} (l : List Word) (h : decStep b s = .ok (u, ev)) :
    decStep b { s with rspLog := l } = .ok ({ u with rspLog := l }, ev) := by
  obtain ⟨t, n, ht, hn, rfl, rfl⟩ := decStep_ok h
  have ht' : decTarget b { s with rspLog := l } = .ok t := ht
  rw [decStep_of_target ht' (show ({ s with rspLog := l } : State).nm.read t = some n from hn)]
  unfold landed
  split
  · split <;> rfl
  · rfl

theorem Steps.rspLog {bs : List Bool} : ∀ {s u : State} (l : List Word), Steps bs s u →
    Steps bs { s with rspLog := l } { u with rspLog := l } := by
  induction bs with
  | nil => intro s u l h; cases h; rfl
  | cons b bs ih =>
    rintro s u l ⟨hr, m, ev, hm, h⟩
    exact ⟨hr, _, ev, decStep_rspLog l hm, ih l h⟩

theorem bitOf_toNat (b : Bool) : bitOf b.toNat = some b := by cases b <;> rfl

theorem execDecBit_of_step {b : Bool} {s u : State} {ev : DecEvent} (hr : s.decState = .run)
    (h : decStep b s = .ok (u, ev)) : exec (.decBit b.toNat) s = .next (respond .ok (bitPayload ev) u) := by
  simp only [exec, execDecBit, bitOf_toNat, hr, ne_eq, not_true_eq_false, if_false, h, bind, Except.bind, finish, pure,
    Except.pure]

/-- `DEC.BIT` commands make the steps, and answer `OK` each. -/
theorem Steps.execBits {bs : List Bool} : ∀ {s u : State}, Steps bs s u →
    ∃ rsps : List Word, execList (bs.map (fun b => .decBit b.toNat)) s = .next { u with rspLog := s.rspLog ++ rsps } ∧
      rsps.length = bs.length ∧ ∀ r ∈ rsps, statusOf r = 0 := by
  induction bs with
  | nil => intro s u h; cases h; exact ⟨[], by simp [execList], rfl, by simp⟩
  | cons b bs ih =>
    rintro s u ⟨hr, m, ev, hm, h⟩
    obtain ⟨t, n, -, -, e, -⟩ := decStep_ok hm
    have hl : m.rspLog = s.rspLog := by
      obtain ⟨_, _, _, _, e', -⟩ := landed_frame t n s
      rw [e, e']
    obtain ⟨rsps, e2, e3, e4⟩ := ih (h.rspLog (s.rspLog ++ [responseWord .ok (bitPayload ev)]))
    refine ⟨responseWord .ok (bitPayload ev) :: rsps, ?_, by simp [e3], by simpa [statusCode] using e4⟩
    have hs : respond .ok (bitPayload ev) m =
        { m with rspLog := s.rspLog ++ [responseWord .ok (bitPayload ev)] } := by
      rw [← hl]; rfl
    simp only [List.map_cons, execList, execDecBit_of_step hr hm, hs]
    rw [e2]
    simp

/-- The loop of `DEC.BYTE` makes the steps. -/
theorem Steps.feedBits {bs : List Bool} (rest : List Bool) : ∀ {s u : State} (c : Fed), Steps bs s u →
    ∃ c', feedBits (bs ++ rest) c s = feedBits rest c' u := by
  induction bs with
  | nil => intro s u c h; cases h; exact ⟨c, rfl⟩
  | cons b bs ih =>
    rintro s u c ⟨hr, m, ev, hm, h⟩
    obtain ⟨c', e⟩ := ih (countEvent c ev) h
    refine ⟨c', ?_⟩
    rw [List.cons_append, Machine.feedBits, if_pos hr, hm]
    exact e

/-- After the end marker the loop does nothing more. -/
theorem feedBits_closed (bs : List Bool) {s : State} (h : s.decState ≠ .run) (c : Fed) :
    feedBits bs c s = .ok (s, c) := by
  induction bs with
  | nil => rfl
  | cons b bs ih => rw [feedBits, if_neg h, ih]

theorem Steps.split {bs cs : List Bool} : ∀ {s u : State}, Steps (bs ++ cs) s u → ∃ m, Steps bs s m ∧ Steps cs m u := by
  induction bs with
  | nil => intro s u h; exact ⟨s, rfl, h⟩
  | cons b bs ih =>
    rintro s u ⟨hr, x, ev, hx, h⟩
    obtain ⟨m, h1, h2⟩ := ih h
    exact ⟨m, ⟨hr, x, ev, hx, h1⟩, h2⟩

/-- How far the loop of `DEC.BYTE` gets, and what it counts. -/
theorem feedBits_steps (bs : List Bool) : ∀ {c c' : Fed} {s u : State}, feedBits bs c s = .ok (u, c') →
    s.decState = .run →
    ∃ used, used ≤ bs.length ∧ (bs ≠ [] → 1 ≤ used) ∧ Steps (bs.take used) s u ∧
      (used = bs.length ∨ u.decState ≠ .run) ∧ c'.used = c.used + used ∧
      c'.lits = c.lits + (u.decOut.length - s.decOut.length) ∧ s.decOut.length ≤ u.decOut.length := by
  induction bs with
  | nil =>
    intro c c' s u h _
    cases h
    exact ⟨0, Nat.le_refl 0, fun h => absurd rfl h, rfl, .inl rfl, by simp, by simp, Nat.le_refl _⟩
  | cons b bs ih =>
    intro c c' s u h hr
    rw [feedBits, if_pos hr] at h
    simp only [bind, Except.bind] at h
    cases hd : decStep b s with
    | error e => rw [hd] at h; cases h
    | ok x =>
      obtain ⟨m, ev⟩ := x
      rw [hd] at h
      simp only at h
      -- the literals one step counts are the bytes it emits
      have hone : (countEvent c ev).used = c.used + 1 ∧
          (countEvent c ev).lits = c.lits + (m.decOut.length - s.decOut.length) ∧
          s.decOut.length ≤ m.decOut.length := by
        obtain ⟨t, n, -, -, rfl, rfl⟩ := decStep_ok hd
        unfold landed eventOf
        split
        · split <;> simp [countEvent]
        · simp [countEvent]
      by_cases hm : m.decState = .run
      · obtain ⟨used, h1, -, h3, h4, h5, h6, h7⟩ := ih h hm
        refine ⟨used + 1, by simp only [List.length_cons]; omega, fun _ => by omega, ?_, ?_, by omega, by omega, by omega⟩
        · exact ⟨hr, m, ev, hd, h3⟩
        · exact h4.imp (fun e => by rw [e, List.length_cons]) id
      · rw [feedBits_closed bs hm] at h
        cases h
        refine ⟨1, by simp, fun _ => Nat.le_refl 1, ?_, .inr hm, hone.1, hone.2.1, hone.2.2⟩
        exact ⟨hr, u, ev, hd, rfl⟩

theorem execDecByte_of_feed {v : Byte} {s u : State} {c : Fed} (hr : s.decState = .run)
    (h : feedBits (byteBits v) { used := 0, lits := 0 } s = .ok (u, c)) :
    exec (.decByte v.toNat) s = .next (respond .ok (field 0 (BitVec.ofNat 4 c.used) |||
      field 4 (BitVec.ofNat 4 c.lits) ||| field 8 (BitVec.ofBool (decide (u.decState = .done)))) u) := by
  simp only [exec, execDecByte, byteOf_toNat, hr, ne_eq, not_true_eq_false, if_false, h, bind, Except.bind, finish,
    pure, Except.pure]

/-- The bits of the first byte of a packed stream: the stream's, and padding where it is shorter (20_memory.md R64). -/
theorem byteBits_packed {B : List Bool} {v : Byte} {body : List Byte} (h : PacksTo B (v :: body)) :
    byteBits v = B.take 8 ++ (byteBits v).drop B.length := by
  refine List.ext_getElem? fun j => ?_
  have hlen : (byteBits v).length = 8 := rfl
  by_cases hj : j < 8
  · have hv : (byteBits v)[j]? = some (v.getLsbD (7 - j)) := by
      interval_cases j <;> rfl
    have hp := h j (by simp only [List.length_cons]; omega)
    simp only [packedBit, Nat.div_eq_of_lt hj, Nat.mod_eq_of_lt hj, List.getElem?_cons_zero, Option.map_some] at hp
    by_cases hB : j < B.length
    · rw [List.getElem?_append_left (by rw [List.length_take]; omega), List.getElem?_take, if_pos hj, hv, hp,
        List.getD_eq_getElem?_getD, List.getElem?_eq_getElem hB]
      rfl
    · rw [List.getElem?_append_right (by rw [List.length_take]; omega), List.getElem?_drop, List.length_take,
        show B.length + (j - min 8 B.length) = j by omega]
  · rw [List.getElem?_eq_none (by omega), List.getElem?_eq_none]
    rw [List.length_append, List.length_take, List.length_drop, hlen]
    omega

theorem PacksTo_tail {B : List Bool} {v : Byte} {body : List Byte} (h : PacksTo B (v :: body)) :
    PacksTo (B.drop 8) body := by
  intro j hj
  have := h (j + 8) (by simp only [List.length_cons]; omega)
  rw [packedBit, show (j + 8) / 8 = j / 8 + 1 by omega, show (j + 8) % 8 = j % 8 by omega,
    List.getElem?_cons_succ] at this
  rw [packedBit, this]
  simp [List.getD_eq_getElem?_getD, Nat.add_comm]

/-- `DEC.BYTE` commands over the packed bytes of a stream make the stream's steps, when these close the session: the
padding is not consumed (44_decoder.md R227, 20_memory.md R63), and each command answers `OK`. -/
theorem decBytes_of_steps (body : List Byte) : ∀ {B : List Bool} {s u : State}, Steps B s u → u.decState ≠ .run →
    body.length = (B.length + 7) / 8 → PacksTo B body →
    ∃ rsps : List Word, execList (body.map (fun v => .decByte v.toNat)) s = .next { u with rspLog := s.rspLog ++ rsps } ∧
      rsps.length = body.length ∧ ∀ r ∈ rsps, statusOf r = 0 := by
  induction body with
  | nil =>
    intro B s u h _ hl _
    have : B = [] := List.length_eq_zero_iff.1 (by simp only [List.length_nil] at hl; omega)
    subst this
    cases h
    exact ⟨[], by simp [execList], rfl, by simp⟩
  | cons v body ih =>
    intro B s u h hu hl hp
    have hr : s.decState = .run := by
      cases B with
      | nil => simp at hl
      | cons b B => exact h.1
    have hB : B = B.take 8 ++ B.drop 8 := (List.take_append_drop 8 B).symm
    rw [hB] at h
    obtain ⟨m, h1, h2⟩ := h.split
    obtain ⟨bc, cur, cnt, st, out, hmf⟩ := h1.frame
    have hml : m.rspLog = s.rspLog := by rw [hmf]
    obtain ⟨c', e⟩ := h1.feedBits ((byteBits v).drop B.length) { used := 0, lits := 0 }
    rw [← byteBits_packed hp] at e
    have hfeed : ∃ c'', feedBits (byteBits v) { used := 0, lits := 0 } s = .ok (m, c'') := by
      by_cases h8 : 8 ≤ B.length
      · have : (byteBits v).drop B.length = [] := List.drop_eq_nil_of_le h8
        rw [this] at e
        exact ⟨c', e⟩
      · have hd : B.drop 8 = [] := List.drop_eq_nil_of_le (by omega)
        rw [hd] at h2
        cases h2
        rw [feedBits_closed _ hu] at e
        exact ⟨c', e⟩
    obtain ⟨c'', hf⟩ := hfeed
    generalize hpay : (field 0 (BitVec.ofNat 4 c''.used) ||| field 4 (BitVec.ofNat 4 c''.lits) |||
      field 8 (BitVec.ofBool (decide (m.decState = .done)))) = p at *
    have hex := execDecByte_of_feed hr hf
    rw [hpay] at hex
    have hs : respond .ok p m = { m with rspLog := s.rspLog ++ [responseWord .ok p] } := by rw [← hml]; rfl
    rw [hs] at hex
    have hlen : body.length = ((B.drop 8).length + 7) / 8 := by
      rw [List.length_drop]
      simp only [List.length_cons] at hl
      omega
    obtain ⟨rsps, e2, e3, e4⟩ := ih (h2.rspLog (s.rspLog ++ [responseWord .ok p])) hu hlen (PacksTo_tail hp)
    refine ⟨responseWord .ok p :: rsps, ?_, by simp [e3], by simpa [statusCode] using e4⟩
    simp only [List.map_cons, execList, hex]
    rw [e2]
    simp

/-! ### The bits of a code -/

/-- The state after the bits of a path that ends in a leaf with record `n` (44_decoder.md R224, R225). -/
def emitted (len : Nat) (n : Node) (s : State) : State :=
  if n.sym = Config.symEos then
    { s with decBitcnt := s.decBitcnt + BitVec.ofNat 48 len, decCur := s.root, decState := .done }
  else
    { s with decBitcnt := s.decBitcnt + BitVec.ofNat 48 len, decCur := s.root, decCnt := s.decCnt + 1,
             decOut := s.decOut ++ [n.sym.setWidth 8] }

/-- The bits of a path from the cursor down to a leaf. -/
theorem steps_of_path {recs : List FtRec} {p : List Bool} : ∀ {s : State} {r c n : Node} {j : Nat},
    IsTree recs s.nm → s.root.toNat = rootOf recs → s.decState = .run →
    s.nm.read s.root.toNat = some r → r.isLeaf ≠ true →
    s.nm.read s.decCur.toNat = some c → c.isLeaf ≠ true →
    follow s.nm s.decCur.toNat p = some j → s.nm.read j = some n → n.isLeaf = true →
    Steps p s (emitted p.length n s) := by
  induction p with
  | nil =>
    intro s r c n j T _ _ _ _ hc hcl hf hn hl
    rw [follow_nil_of_read hc] at hf
    cases hf
    rw [hc] at hn
    cases hn
    exact absurd hl hcl
  | cons b p ih =>
    intro s r c n j T hroot hrun hr hrl hc hcl hf hn hl
    obtain ⟨c', hc', -, hf⟩ := follow_cons.1 hf
    rw [hc] at hc'
    cases hc'
    obtain ⟨m, hm⟩ := T.exists_child hc hcl b
    have htar : decTarget b s = .ok (childOf c b) := by rw [decTarget_eq hr hc, if_neg hrl]; rfl
    refine ⟨hrun, landed (childOf c b) m s, eventOf m, decStep_of_target htar hm, ?_⟩
    by_cases hml : m.isLeaf = true
    · obtain ⟨rfl, rfl⟩ := follow_leaf hm hml hf
      have e : n = m := Option.some.inj (hn.symm.trans hm)
      rw [e]
      show emitted 1 m s = landed (childOf c b) m s
      unfold landed emitted
      rw [if_pos hml]
      rfl
    · have hb := T.bound
      have h10 : (BitVec.ofNat 10 (childOf c b)).toNat = childOf c b := by
        have := T.le_of_read hm
        simp only [rootOf] at this
        rw [BitVec.toNat_ofNat]
        omega
      have hland : landed (childOf c b) m s =
          { s with decBitcnt := s.decBitcnt + 1, decCur := BitVec.ofNat 10 (childOf c b) } := by
        rw [landed, if_neg hml]
      rw [hland]
      have := ih (s := { s with decBitcnt := s.decBitcnt + 1, decCur := BitVec.ofNat 10 (childOf c b) })
        (r := r) (c := m) (n := n) (j := j) T hroot hrun hr hrl (by rw [← h10] at hm; exact hm) hml
        (by rw [← h10] at hf; exact hf) hn hl
      have he : emitted p.length n
          { s with decBitcnt := s.decBitcnt + 1, decCur := BitVec.ofNat 10 (childOf c b) } =
          emitted (b :: p).length n s := by
        simp only [emitted, List.length_cons, ofNat_succ48]
      rwa [he] at this

/-- The bits of a code, from the root: the code's symbol comes out and the cursor is the root again
(44_decoder.md R224 to R226). -/
theorem steps_of_code {recs : List FtRec} {s : State} {ct : Memory Code} (T : IsTree recs s.nm)
    (hroot : s.root.toNat = rootOf recs) (hrun : s.decState = .run) (hcur : s.decCur = s.root)
    (hct : codesOfTree s.nm (rootOf recs) = .ok ct) {k : Nat} {c : Code} (hc : ct.read k = some c) :
    ∃ n : Node, n.sym.toNat = k ∧ Steps c s (emitted c.length n s) := by
  have hpos := T.pos
  obtain ⟨r, hr⟩ := T.exists_read (Nat.le_refl (rootOf recs))
  rw [← hroot] at hr
  rcases Nat.lt_or_ge recs.length 2 with h1 | h2
  · obtain ⟨ct', n, e, hn, hl, rfl⟩ := T.codesOfTree_one (by omega)
    rw [hct] at e
    cases e
    rw [← hroot, hr] at hn
    cases hn
    rw [Memory.read_cons] at hc
    split at hc
    · next hk =>
      cases hc
      refine ⟨r, hk, hrun, landed s.root.toNat r s, eventOf r, decStep_of_target ?_ hr, ?_⟩
      · rw [decTarget_eq hr (by rw [hcur]; exact hr), if_pos hl]
      · show emitted 1 r s = landed s.root.toNat r s
        unfold landed emitted
        rw [if_pos hl]
        rfl
    · cases hc
  · obtain ⟨ct', e, -, hiff⟩ := T.codesOfTree_many h2
    rw [hct] at e
    cases e
    obtain ⟨j, n, hf, hn, hl, hk⟩ := (hiff k c).1 hc
    have hrl : r.isLeaf ≠ true := fun h => by
      have := (T.isLeaf_iff hr).1 h
      simp only [rootOf] at hroot
      omega
    refine ⟨n, hk, steps_of_path T hroot hrun hr hrl (by rw [hcur]; exact hr) hrl ?_ hn hl⟩
    rw [hcur, hroot]
    exact hf

/-- The bits of a whole session, from the root: its bytes come out, and the session ends with the end marker. -/
theorem steps_of_session {recs : List FtRec} {ct : Memory Code} (x : List Byte) : ∀ {s : State} {B : List Bool},
    IsTree recs s.nm → s.root.toNat = rootOf recs → s.decState = .run → s.decCur = s.root →
    codesOfTree s.nm (rootOf recs) = .ok ct → sessionBits ct x = some B →
    Steps B s { s with decBitcnt := s.decBitcnt + BitVec.ofNat 48 B.length, decCnt := s.decCnt + BitVec.ofNat 48 x.length,
                       decState := .done, decOut := s.decOut ++ x } := by
  induction x with
  | nil =>
    intro s B T hroot hrun hcur hct hB
    obtain ⟨n, hk, h⟩ := steps_of_code T hroot hrun hcur hct (show ct.read 256 = some B from hB)
    have he : n.sym = Config.symEos := BitVec.eq_of_toNat_eq hk
    have hs : emitted B.length n s = { s with decBitcnt := s.decBitcnt + BitVec.ofNat 48 B.length, decState := .done } := by
      rw [emitted, if_pos he, hcur]
    rw [hs] at h
    simpa using h
  | cons v x ih =>
    intro s B T hroot hrun hcur hct hB
    simp only [sessionBits] at hB
    split at hB
    · next c B' hc hB' =>
      cases hB
      obtain ⟨n, hk, h⟩ := steps_of_code T hroot hrun hcur hct hc
      have hv := v.isLt
      have he : ¬ n.sym = Config.symEos := by
        intro e
        rw [e] at hk
        have : (256#9).toNat = v.toNat := hk
        simp at this
        omega
      have hb : n.sym.setWidth 8 = v := by
        apply BitVec.eq_of_toNat_eq
        rw [BitVec.toNat_setWidth, hk]
        omega
      rw [emitted, if_neg he, hb] at h
      refine h.append ?_
      generalize hm : ({ s with decBitcnt := s.decBitcnt + BitVec.ofNat 48 c.length, decCur := s.root,
                                decCnt := s.decCnt + 1, decOut := s.decOut ++ [v] } : State) = m
      have := ih (s := m) (by rw [← hm]; exact T) (by rw [← hm]; exact hroot) (by rw [← hm]; exact hrun)
        (by rw [← hm]) (by rw [← hm]; exact hct) hB'
      convert this using 1
      rw [← hm]
      have h1 : s.decCnt + 1 + BitVec.ofNat 48 x.length = s.decCnt + BitVec.ofNat 48 (v :: x).length := ofNat_succ48 _ _
      have h2 : s.decBitcnt + BitVec.ofNat 48 c.length + BitVec.ofNat 48 B'.length =
          s.decBitcnt + BitVec.ofNat 48 (c ++ B').length := by
        rw [List.length_append, BitVec.ofNat_add, BitVec.add_assoc]
      simp only [h1, h2, List.append_assoc, List.cons_append, List.nil_append, hcur]
    · cases hB

end Sys2Proof.Machine
end

