-- ==== Sys2Proof/Laws/PerInstr.lean ====
section
/-! SUPPORT. Per-command lemmas. Family EncodesItsRow: the fields of a well-formed command are those of a row of the
opcode map whose command they make, each in its field, the unused ones zero. -/

namespace Sys2Proof.Laws.EncodesItsRow

/-- The command's fields fit, are a row's, and that row makes the command of them (30_encoding.md R91, R92, R96). -/
def Statement (i : Instr) : Prop :=
  i.wellFormed = true →
    (i.fields.op < 2 ^ 8 ∧ i.fields.sel < 2 ^ 8 ∧ i.fields.a < 2 ^ 16 ∧ i.fields.d < 2 ^ 32) ∧
    ∃ r ∈ rows, r.opcode = i.fields.op ∧ r.format.mbzOk i.fields = true ∧ r.build i.fields = i

/-- A command encodes its row when its operands fit and the row is in the map. -/
theorem of_row {i : Instr} {r : Row}
    (fits : i.wellFormed = true →
      i.fields.op < 2 ^ 8 ∧ i.fields.sel < 2 ^ 8 ∧ i.fields.a < 2 ^ 16 ∧ i.fields.d < 2 ^ 32)
    (hr : r ∈ rows) (ho : r.opcode = i.fields.op) (hm : r.format.mbzOk i.fields = true)
    (hb : r.build i.fields = i) : Statement i :=
  fun h => ⟨fits h, r, hr, ho, hm, hb⟩

theorem nop : Statement .nop :=
  of_row (r := ⟨0x00, .z, fun _ => .nop⟩) (by simp_all [Instr.fields, Instr.wellFormed])
    (by simp [rows, rowsLow, rowsHigh]) rfl rfl rfl

theorem srst : Statement .srst :=
  of_row (r := ⟨0x01, .z, fun _ => .srst⟩) (by simp_all [Instr.fields, Instr.wellFormed])
    (by simp [rows, rowsLow, rowsHigh]) rfl rfl rfl

theorem statRd (sel : Nat) : Statement (.statRd sel) :=
  of_row (r := ⟨0x02, .s, fun f => .statRd f.sel⟩) (by simp_all [Instr.fields, Instr.wellFormed])
    (by simp [rows, rowsLow, rowsHigh]) rfl rfl rfl

theorem ftClr : Statement .ftClr :=
  of_row (r := ⟨0x10, .z, fun _ => .ftClr⟩) (by simp_all [Instr.fields, Instr.wellFormed])
    (by simp [rows, rowsLow, rowsHigh]) rfl rfl rfl

theorem ftPut (a d : Nat) : Statement (.ftPut a d) :=
  of_row (r := ⟨0x11, .ad, fun f => .ftPut f.a f.d⟩) (by simp_all [Instr.fields, Instr.wellFormed])
    (by simp [rows, rowsLow, rowsHigh]) rfl rfl rfl

theorem ftGet (a : Nat) : Statement (.ftGet a) :=
  of_row (r := ⟨0x12, .a, fun f => .ftGet f.a⟩) (by simp_all [Instr.fields, Instr.wellFormed])
    (by simp [rows, rowsLow, rowsHigh]) rfl rfl rfl

theorem ftRd (a : Nat) : Statement (.ftRd a) :=
  of_row (r := ⟨0x13, .a, fun f => .ftRd f.a⟩) (by simp_all [Instr.fields, Instr.wellFormed])
    (by simp [rows, rowsLow, rowsHigh]) rfl rfl rfl

theorem tbBuild : Statement .tbBuild :=
  of_row (r := ⟨0x20, .z, fun _ => .tbBuild⟩) (by simp_all [Instr.fields, Instr.wellFormed])
    (by simp [rows, rowsLow, rowsHigh]) rfl rfl rfl

theorem treeFree : Statement .treeFree :=
  of_row (r := ⟨0x21, .z, fun _ => .treeFree⟩) (by simp_all [Instr.fields, Instr.wellFormed])
    (by simp [rows, rowsLow, rowsHigh]) rfl rfl rfl

theorem nmRd (sel a : Nat) : Statement (.nmRd sel a) :=
  of_row (r := ⟨0x22, .sa, fun f => .nmRd f.sel f.a⟩) (by simp_all [Instr.fields, Instr.wellFormed])
    (by simp [rows, rowsLow, rowsHigh]) rfl rfl rfl

theorem ctGen : Statement .ctGen :=
  of_row (r := ⟨0x30, .z, fun _ => .ctGen⟩) (by simp_all [Instr.fields, Instr.wellFormed])
    (by simp [rows, rowsLow, rowsHigh]) rfl rfl rfl

theorem ctRd (sel a : Nat) : Statement (.ctRd sel a) :=
  of_row (r := ⟨0x31, .sa, fun f => .ctRd f.sel f.a⟩) (by simp_all [Instr.fields, Instr.wellFormed])
    (by simp [rows, rowsLow, rowsHigh]) rfl rfl rfl

theorem encStart (sel : Nat) : Statement (.encStart sel) :=
  of_row (r := ⟨0x40, .s, fun f => .encStart f.sel⟩) (by simp_all [Instr.fields, Instr.wellFormed])
    (by simp [rows, rowsLow, rowsHigh]) rfl rfl rfl

theorem encPut (d : Nat) : Statement (.encPut d) :=
  of_row (r := ⟨0x41, .d, fun f => .encPut f.d⟩) (by simp_all [Instr.fields, Instr.wellFormed])
    (by simp [rows, rowsLow, rowsHigh]) rfl rfl rfl

theorem encFin : Statement .encFin :=
  of_row (r := ⟨0x42, .z, fun _ => .encFin⟩) (by simp_all [Instr.fields, Instr.wellFormed])
    (by simp [rows, rowsLow, rowsHigh]) rfl rfl rfl

theorem decStart : Statement .decStart :=
  of_row (r := ⟨0x50, .z, fun _ => .decStart⟩) (by simp_all [Instr.fields, Instr.wellFormed])
    (by simp [rows, rowsLow, rowsHigh]) rfl rfl rfl

theorem decBit (d : Nat) : Statement (.decBit d) :=
  of_row (r := ⟨0x51, .d, fun f => .decBit f.d⟩) (by simp_all [Instr.fields, Instr.wellFormed])
    (by simp [rows, rowsLow, rowsHigh]) rfl rfl rfl

theorem decByte (d : Nat) : Statement (.decByte d) :=
  of_row (r := ⟨0x52, .d, fun f => .decByte f.d⟩) (by simp_all [Instr.fields, Instr.wellFormed])
    (by simp [rows, rowsLow, rowsHigh]) rfl rfl rfl

theorem decEof : Statement .decEof :=
  of_row (r := ⟨0x53, .z, fun _ => .decEof⟩) (by simp_all [Instr.fields, Instr.wellFormed])
    (by simp [rows, rowsLow, rowsHigh]) rfl rfl rfl

end Sys2Proof.Laws.EncodesItsRow
end

