-- ==== Sys2Proof/Tests/Slice0.lean ====
section
/-! SUPPORT. Tests and witnesses. Expected values are the spec's own worked examples (the rule is named at each test);
words are written out from the layout of 30_encoding.md R91: opcode, `sel`, `a`, `d`. Each witness shows that the
hypotheses of an obligation can be met together, clause by clause. -/

namespace Sys2Proof.Machine

/-! ### Small states -/

/-- The table of 41_tree_builder.md R159: 'a' 3, 'b' 1, EOS 1. -/
def table : State :=
  { State.reset with ftLen := 3, ft := [(0, ⟨97, 3⟩), (1, ⟨98, 1⟩), (2, ⟨256, 1⟩)] }

/-- Its tree, as 41_tree_builder.md R159 traces it. -/
def built : State :=
  { table with
    treeValid := true, nodeCnt := 5, root := 4
    nm := [(0, ⟨3, 97, 1023, 1023⟩), (1, ⟨1, 98, 1023, 1023⟩), (2, ⟨1, 256, 1023, 1023⟩), (3, ⟨2, 257, 1, 2⟩),
      (4, ⟨5, 257, 3, 0⟩)] }

/-- Its code table, as 42_code_table.md R177 gives it. -/
def coded : State :=
  { built with codesValid := true, ct := [(97, [true]), (98, [false, false]), (256, [false, true])] }

/-- An encode session after "aaa" (43_encoder.md R200). -/
def encoding : State :=
  { coded with encState := .run, encBitcnt := 3, pkN := 3, pkAcc := 0xE0, tapLog := [true, true, true] }

/-- A dry run after "aaa". -/
def dryRun : State := { encoding with encDry := true, pkN := 0, pkAcc := 0 }

/-- A decode session just opened (44_decoder.md R222). -/
def decoding : State := { built with decState := .run, decCur := 4 }

/-- Both sessions open. -/
def bothOpen : State := { encoding with decState := .run, decCur := 4 }

/-- A code table without 'b' and without EOS: one symbol, 'z', in a session of its own. -/
def poor : State :=
  { State.reset with codesValid := true, ct := [(122, [false])], encState := .run }

/-- The tree of the empty input: one leaf, EOS (41_tree_builder.md R149). -/
def single : State :=
  { State.reset with
    ftLen := 1, ft := [(0, ⟨256, 1⟩)], treeValid := true, nodeCnt := 1, root := 0
    nm := [(0, ⟨1, 256, 1023, 1023⟩)], decState := .run, decCur := 0 }

/-- A tree of two leaves (95_test_vectors.md S2): 'a' 1000, EOS 1. -/
def pair : State :=
  { State.reset with
    ftLen := 2, ft := [(0, ⟨97, 1000⟩), (1, ⟨256, 1⟩)], treeValid := true, nodeCnt := 3, root := 2
    nm := [(0, ⟨1000, 97, 1023, 1023⟩), (1, ⟨1, 256, 1023, 1023⟩), (2, ⟨1001, 257, 1, 0⟩)] }

/-- The next state, if there is one. -/
def after (o : Host.Outcome State Fault Refusal) : Option State :=
  match o with
  | .next t => some t
  | .fault _ | .refused _ => none

theorem next_of_after {o : Host.Outcome State Fault Refusal} {t : State} (h : after o = some t) : o = .next t := by
  cases o <;> simp_all [after]

theorem exists_next {o : Host.Outcome State Fault Refusal} (h : (after o).isSome = true) : ∃ t, o = .next t := by
  cases o <;> simp_all [after]

/-- The last response of the next state. -/
def answer (i : Instr) (s : State) : Option Word := (after (exec i s)).bind (fun t => t.rspLog.getLast?)

/-- What `f` shows of the next state. -/
def seen {α : Type} (f : State → α) (i : Instr) (s : State) : Option α := (after (exec i s)).map f

/-! ### The small states keep the invariants -/

theorem inv_reset : State.reset.Inv :=
  ⟨by decide, by decide, by decide, by decide, by decide, by decide, rfl, by decide, by decide⟩

theorem inv_table : table.Inv :=
  ⟨by decide, by decide, by decide, by decide, by decide, by decide, rfl, by decide, by decide⟩

theorem inv_built : built.Inv :=
  ⟨by decide, by decide, by decide, by decide, by decide, by decide, rfl, by decide, by decide⟩

theorem inv_coded : coded.Inv :=
  ⟨by decide, by decide, by decide, by decide, by decide, by decide, rfl, by decide, by decide⟩

theorem inv_encoding : encoding.Inv :=
  ⟨by decide, by decide, by decide, by decide, by decide, by decide, rfl, by decide, by decide⟩

theorem inv_dryRun : dryRun.Inv :=
  ⟨by decide, by decide, by decide, by decide, by decide, by decide, rfl, by decide, by decide⟩

theorem inv_decoding : decoding.Inv :=
  ⟨by decide, by decide, by decide, by decide, by decide, by decide, rfl, by decide, by decide⟩

theorem inv_bothOpen : bothOpen.Inv :=
  ⟨by decide, by decide, by decide, by decide, by decide, by decide, rfl, by decide, by decide⟩

theorem inv_poor : poor.Inv :=
  ⟨by decide, by decide, by decide, by decide, by decide, by decide, rfl, by decide, by decide⟩

theorem inv_single : single.Inv :=
  ⟨by decide, by decide, by decide, by decide, by decide, by decide, rfl, by decide, by decide⟩

theorem inv_pair : pair.Inv :=
  ⟨by decide, by decide, by decide, by decide, by decide, by decide, rfl, by decide, by decide⟩

/-! ### WellFormed refuses each kind of ill-formed term -/

theorem test_wf_sel : (Instr.statRd 256).wellFormed = false := by decide
theorem test_wf_encStart_sel : (Instr.encStart 256).wellFormed = false := by decide
theorem test_wf_nmRd_sel : (Instr.nmRd 256 0).wellFormed = false := by decide
theorem test_wf_nmRd_a : (Instr.nmRd 0 65536).wellFormed = false := by decide
theorem test_wf_ctRd_sel : (Instr.ctRd 256 0).wellFormed = false := by decide
theorem test_wf_ctRd_a : (Instr.ctRd 0 65536).wellFormed = false := by decide
theorem test_wf_ftGet_a : (Instr.ftGet 65536).wellFormed = false := by decide
theorem test_wf_ftRd_a : (Instr.ftRd 65536).wellFormed = false := by decide
theorem test_wf_ftPut_a : (Instr.ftPut 65536 1).wellFormed = false := by decide
theorem test_wf_ftPut_d : (Instr.ftPut 97 4294967296).wellFormed = false := by decide
theorem test_wf_encPut_d : (Instr.encPut 4294967296).wellFormed = false := by decide
theorem test_wf_decBit_d : (Instr.decBit 4294967296).wellFormed = false := by decide
theorem test_wf_decByte_d : (Instr.decByte 4294967296).wellFormed = false := by decide

/-! ### Decoding: a word for every constructor, from the opcode map of 30_encoding.md R96 -/

/-- The example commands of 30_encoding.md R101 and the words it writes out for them, in both directions. -/
theorem test_words_of_R101 :
    ∀ x ∈ ([(.ftPut 97 3, 0x1100006100000003), (.ftPut 256 1, 0x1100010000000001), (.nmRd 1 4, 0x2201000400000000),
        (.encStart 1, 0x4001000000000000), (.encPut 98, 0x4100000000000062), (.decByte 0xE2, 0x52000000000000E2),
        (.nop, 0x0000000000000000)] : List (Instr × Word)),
      encode x.1 = x.2 ∧ decode x.2 = .instr x.1 := by decide

/-- The operand names of the table of 30_encoding.md R101 and their numbers. -/
theorem test_operand_names_of_R101 :
    (List.range 9).map statRegOf = [some .id, some .status, some .err, some .tree, some .encBits, some .decCnt,
      some .decBits, some .decCur, none] ∧
    (List.range 3).map nodePartOf = [some .weight, some .links, none] ∧
    (List.range 10).map codePartOf = some .len :: (List.range 8).map (fun j => some (.chunk j)) ++ [none] ∧
    (List.range 3).map encModeOf = [some .live, some .dry, none] ∧ symbolOf 256 = some 256 := by decide

theorem test_decode_nop : decode 0x0000000000000000 = .instr .nop := by decide
theorem test_decode_srst : decode 0x0100000000000000 = .instr .srst := by decide
theorem test_decode_statRd : decode 0x0207000000000000 = .instr (.statRd 7) := by decide
theorem test_decode_ftClr : decode 0x1000000000000000 = .instr .ftClr := by decide
theorem test_decode_ftPut : decode 0x1100006180000001 = .instr (.ftPut 97 0x80000001) := by decide
theorem test_decode_ftGet : decode 0x1200010000000000 = .instr (.ftGet 256) := by decide
theorem test_decode_ftRd : decode 0x1300800100000000 = .instr (.ftRd 0x8001) := by decide
theorem test_decode_tbBuild : decode 0x2000000000000000 = .instr .tbBuild := by decide
theorem test_decode_treeFree : decode 0x2100000000000000 = .instr .treeFree := by decide
theorem test_decode_nmRd : decode 0x2201020000000000 = .instr (.nmRd 1 512) := by decide
theorem test_decode_ctGen : decode 0x3000000000000000 = .instr .ctGen := by decide
theorem test_decode_ctRd : decode 0x3108006200000000 = .instr (.ctRd 8 98) := by decide
theorem test_decode_encStart : decode 0x4001000000000000 = .instr (.encStart 1) := by decide
theorem test_decode_encPut : decode 0x4100000000000061 = .instr (.encPut 0x61) := by decide
theorem test_decode_encFin : decode 0x4200000000000000 = .instr .encFin := by decide
theorem test_decode_decStart : decode 0x5000000000000000 = .instr .decStart := by decide
theorem test_decode_decBit : decode 0x5100000000000001 = .instr (.decBit 1) := by decide
theorem test_decode_decByte : decode 0x52000000000000E2 = .instr (.decByte 0xE2) := by decide
theorem test_decode_decEof : decode 0x5300000000000000 = .instr .decEof := by decide
/-- 30_encoding.md R95: `ENC.PUT` with `a = 1` is not a command, with `d = 0x100` it is one. -/
theorem test_decode_mbz :
    decode 0x4100000100000061 = .illegal (.mbzField 0x41) ∧ decode 0x4100000000000100 = .instr (.encPut 0x100) := by
  decide
theorem test_table_word : decodeTableWord 64 0x2201000400000000 = some (.nmRd 1 4) ∧ decodeTableWord 8 0 = some .nop ∧
    decodeTableWord 72 0x010000000000000000 = none := by decide

/-! ### One step each, against the spec's examples -/

theorem test_nop : answer .nop table = some 0 := by decide
/-- 45_system.md R251: after `SRST`, STATUS reads 0 and TREE reads 0x3FF. -/
theorem test_srst : seen statusRegister .srst bothOpen = some 0 ∧ seen treeRegister .srst bothOpen = some 0x3FF := by
  decide
/-- 45_system.md R254. -/
theorem test_statRd : answer (.statRd 1) built = some 0x403 ∧ answer (.statRd 3) built = some 0x1404 := by decide
theorem test_statRd_arg : answer (.statRd 8) built = some 0x0200000000000000 ∧
    seen State.err (.statRd 8) built = some 4 := by decide
/-- 40_frequency_table.md R122. -/
theorem test_ftClr : answer .ftClr table = some 0 ∧ seen State.ftLen .ftClr table = some 0 := by decide
/-- 40_frequency_table.md R123: a key put again keeps its position. -/
theorem test_ftPut_replaces : answer (.ftPut 97 4) table = some 0x10000 ∧
    seen (fun t => (t.ftLen, t.ft.read 0)) (.ftPut 97 4) table = some (3, some ⟨97, 4⟩) := by decide
/-- 40_frequency_table.md R123 and 60_exceptions.md R273: the operand check comes before the phase check. -/
theorem test_ftPut_order : answer (.ftPut 300 0) built = some 0x0200000000000000 ∧
    answer (.ftPut 97 4) built = some 0x0300000000000000 := by decide
/-- 40_frequency_table.md R125. -/
theorem test_ftGet : answer (.ftGet 98) table = some 0x0000000300000001 ∧ answer (.ftGet 122) table = some 0 := by decide
/-- 40_frequency_table.md R126. -/
theorem test_ftRd : answer (.ftRd 0) table = some 0x0000006100000003 ∧
    answer (.ftRd 3) table = some 0x0200000000000000 := by decide
/-- 41_tree_builder.md R143, R159: the whole tree, node for node. -/
theorem test_tbBuild : answer .tbBuild table = some 0x1404 ∧ seen State.nm .tbBuild table = some built.nm := by decide
/-- 41_tree_builder.md R150. -/
theorem test_tbBuild_empty : answer .tbBuild State.reset = some 0x0400000000000000 ∧
    seen State.err .tbBuild State.reset = some 0x10 := by decide
/-- 41_tree_builder.md R155. -/
theorem test_treeFree : answer .treeFree built = some 5 ∧ answer .treeFree decoding = some 0x0300000000000000 := by
  decide
/-- 41_tree_builder.md R157. -/
theorem test_nmRd : answer (.nmRd 0 4) built = some 5 ∧ answer (.nmRd 1 4) built = some 0x10100C00 := by decide
theorem test_nmRd_leaf : answer (.nmRd 1 1) built = some 0x062FFFFF ∧
    answer (.nmRd 0 5) built = some 0x0200000000000000 := by decide
/-- 42_code_table.md R171, R177. -/
theorem test_ctGen : answer .ctGen built = some 3 ∧ seen State.ct .ctGen built = some coded.ct := by decide
/-- 42_code_table.md R174. -/
theorem test_ctGen_single : answer .ctGen single = some 1 ∧ seen State.ct .ctGen single = some [(256, [false])] := by
  decide
/-- 42_code_table.md R175. -/
theorem test_ctRd : answer (.ctRd 0 97) coded = some 0x201 ∧ answer (.ctRd 1 256) coded = some 2 := by decide
theorem test_ctRd_absent : answer (.ctRd 0 122) coded = some 0 ∧
    answer (.ctRd 9 97) coded = some 0x0200000000000000 := by decide
/-- 43_encoder.md R192. -/
theorem test_encStart : answer (.encStart 0) encoding = some 0 ∧
    seen (fun t => (t.encState, t.encBitcnt, t.pkN, t.encDry)) (.encStart 0) encoding = some (.run, 0, 0, false) := by
  decide
/-- 43_encoder.md R200: "b" after "aaa". -/
theorem test_encPut : answer (.encPut 98) encoding = some 2 ∧
    seen (fun t => (t.encBitcnt, t.pkN, t.pkAcc, t.encOut)) (.encPut 98) encoding = some (5, 5, 0xE0, []) := by decide
/-- 43_encoder.md R193: `ERR_NOCODE` ends the session. -/
theorem test_encPut_nocode : answer (.encPut 113) encoding = some 0x0500000000000000 ∧
    seen State.encState (.encPut 113) encoding = some .fail := by decide
/-- 43_encoder.md R200: the end of "aaab". -/
theorem test_encFin :
    seen (fun t => (t.rspLog, t.encOut, t.tapLog.length, t.pkN, t.encState)) .encFin
      { encoding with encBitcnt := 5, pkN := 5, tapLog := encoding.tapLog ++ [false, false] } =
    some ([7], [0xE2], 7, 0, .done) := by decide
/-- 44_decoder.md R222. -/
theorem test_decStart : answer .decStart built = some 0 ∧ seen State.decCur .decStart built = some 4 := by decide
/-- 44_decoder.md R223. -/
theorem test_decBit : answer (.decBit 1) decoding = some 0x6101 ∧
    seen State.decCur (.decBit 0) decoding = some 3 := by decide
theorem test_decBit_eos : answer (.decBit 1) { decoding with decCur := 3 } = some 2 ∧
    answer (.decBit 1) single = some 2 := by decide
/-- 44_decoder.md R227, R232. -/
theorem test_decByte : answer (.decByte 0xE2) decoding = some 0x147 ∧
    seen State.decOut (.decByte 0xE2) decoding = some [0x61, 0x61, 0x61, 0x62] := by decide
/-- 44_decoder.md R228: ERR reads 0x40. -/
theorem test_decEof : answer .decEof decoding = some 0x0600000000000000 ∧
    seen (fun t => (t.err, t.decState)) .decEof decoding = some (0x40, .fail) := by decide
/-- 30_encoding.md R97, through `step`. -/
theorem test_illegal :
    (after (step { table with inputs := [.command 0x1101006100000003] })).map (fun t => (t.rspLog, t.err, t.ft)) =
      some ([0x0100000000000000], 2, table.ft) := by decide
/-- The word placed by `withFetchWord` is the one the next step runs. -/
theorem test_fetch : (after (step (State.reset.withFetchWord 64 0x1100006100000003))).map (fun t => t.ft) =
    some [(0, ⟨97, 3⟩)] := by decide

/-! ### Witnesses: encoding and steps -/

theorem witness_DecodeOfEncodeIsTheCommand : (Instr.ftPut 65535 4294967295).wellFormed = true := by decide

theorem witness_DecodedWordIsTheEncoding : decode 0x2201000400000000 = .instr (.nmRd 1 4) := by decide

theorem witness_DecodeIsMaskAndMatch :
    (∃ r ∈ rows, (0x1100006100000003 : Word) &&& r.format.mask = BitVec.ofNat 64 (r.opcode * 2 ^ 56)) ∧
    (∀ r ∈ rows, (0x0300000000000000 : Word) &&& r.format.mask ≠ BitVec.ofNat 64 (r.opcode * 2 ^ 56)) := by decide

theorem witness_StepRunsTheDecodedCommand :
    ({ table with inputs := [.command 0] } : State).inputs = .command 0 :: [] ∧ decode 0 = .instr .nop := by decide

/-- R97 (a), and R97 (b) for each field. -/
theorem witness_IllegalWordAnswersErrIll :
    (∀ r ∈ rows, r.opcode ≠ (0x0300000000000000 : Word).toNat / 2 ^ 56) ∧
    (∃ r ∈ rows, r.opcode = (0x1101006100000003 : Word).toNat / 2 ^ 56 ∧
      r.format.usesSel = false ∧ (0x1101006100000003 : Word).toNat / 2 ^ 48 % 2 ^ 8 ≠ 0) ∧
    (∃ r ∈ rows, r.opcode = (0x0000000100000000 : Word).toNat / 2 ^ 56 ∧
      r.format.usesA = false ∧ (0x0000000100000000 : Word).toNat / 2 ^ 32 % 2 ^ 16 ≠ 0) ∧
    (∃ r ∈ rows, r.opcode = (0x1200006180000000 : Word).toNat / 2 ^ 56 ∧
      r.format.usesD = false ∧ (0x1200006180000000 : Word).toNat % 2 ^ 32 ≠ 0) := by decide

theorem witness_IdleBlockKeepsItsState : State.reset.inputs = [] := by decide

theorem witness_ResetInputGivesTheResetState : ({ coded with inputs := [.reset] } : State).inputs = .reset :: [] := by
  decide

theorem witness_ResetDuringCommandDeliversAPrefix :
    ({ encoding with inputs := [.resetDuring 0x4100000000000062 0 0 1] } : State).inputs =
      .resetDuring 0x4100000000000062 0 0 1 :: [] ∧
    ∃ t, step { encoding with inputs := [.command 0x4100000000000062] } = .next t :=
  ⟨by decide, exists_next (by decide)⟩

theorem witness_NothingSurvivesAReset :
    ({ table with inputs := [.reset] } : State).inputs = .reset :: [] ∧ coded.inputs = [] ∧
    ({ table with inputs := [.reset] } : State).rspLog = coded.rspLog ∧
    ({ table with inputs := [.reset] } : State).encOut = coded.encOut ∧
    ({ table with inputs := [.reset] } : State).decOut = coded.decOut ∧
    ({ table with inputs := [.reset] } : State).tapLog = coded.tapLog := by decide

/-! ### Witnesses: frequency table -/

theorem witness_FtClrEmptiesTheTable : table.treeValid = false ∧ built.treeValid = true := by decide

/-- Each error, the largest new key and count on an empty table, and the largest key already present. -/
theorem witness_FtPutIsMapPut :
    (table.Inv ∧ 256 < 257 ∧ 0 < 2 ^ 32) ∧
    (built.Inv ∧ 256 ≤ 256 ∧ 1 ≤ 1 ∧ built.treeValid = true) ∧
    (State.reset.Inv ∧ 1 ≤ 4294967295 ∧ 4294967295 < 2 ^ 32 ∧ State.reset.treeValid = false ∧
      ∀ q r, State.reset.ft.read q = some r → r.sym ≠ BitVec.ofNat 9 256) ∧
    (table.treeValid = false ∧ table.ft.read 2 = some ⟨256, 1⟩ ∧ (256 : Sym) = BitVec.ofNat 9 256) :=
  ⟨⟨inv_table, by decide⟩, ⟨inv_built, by decide⟩,
    ⟨inv_reset, by decide, by decide, by decide, fun q r h => by cases h⟩, by decide⟩

theorem witness_FtGetAnswersTheCount :
    (table.Inv ∧ 256 ≤ 256 ∧ table.ft.read 2 = some ⟨256, 1⟩ ∧ (256 : Sym) = BitVec.ofNat 9 256) ∧
    (State.reset.Inv ∧ 256 ≤ 256 ∧ ∀ p r, State.reset.ft.read p = some r → r.sym ≠ BitVec.ofNat 9 256) ∧
    (table.Inv ∧ 256 < 257) :=
  ⟨⟨inv_table, by decide⟩, ⟨inv_reset, by decide, fun q r h => by cases h⟩, inv_table, by decide⟩

theorem witness_FtRdAnswersTheEntry : table.Inv ∧ 2 < table.ftLen.toNat ∧ table.ftLen.toNat ≤ 3 :=
  ⟨inv_table, by decide⟩

theorem witness_GetAfterPut :
    table.Inv ∧ 256 ≤ 256 ∧ 1 ≤ 4294967295 ∧ 4294967295 < 2 ^ 32 ∧ table.treeValid = false ∧
    (∃ t, exec (.ftPut 256 4294967295) table = .next t) ∧ 97 ≤ 256 ∧ 97 ≠ 256 :=
  ⟨inv_table, by decide, by decide, by decide, by decide, exists_next (by decide), by decide, by decide⟩

theorem witness_FtIsFrozenWhileATreeLives :
    built.treeValid = true ∧ (∃ t, exec .treeFree built = .next t) ∧ legalOperands built (.ftPut 256 1) = true ∧
    built.Inv ∧ legalOperands built (.ftGet 256) = true ∧ legalOperands built (.ftRd 2) = true :=
  ⟨by decide, exists_next (by decide), by decide, inv_built, by decide, by decide⟩

/-! ### Witnesses: tree builder and code table -/

theorem witness_RemoveMinIsTheLeast :
    (⟨built.nm, 5, [0, 3]⟩ : Builder).pq ≠ [] ∧ ∀ i ∈ [0, 3], (built.nm.read i).isSome = true := by decide

theorem witness_MergeJoinsTheTwoLeast : ∃ c, mergeOnce ⟨built.nm.take 3, 3, [0, 1, 2]⟩ = .ok c := ⟨_, rfl⟩

theorem witness_TbBuildMakesTheTree :
    (built.Inv ∧ built.treeValid = true) ∧
    (table.Inv ∧ table.treeValid = false ∧ table.ftLen ≠ 0 ∧ table.ft.read 2 = some ⟨256, 1⟩) :=
  ⟨⟨inv_built, by decide⟩, inv_table, by decide⟩

theorem witness_BuildMergesTheTwoLeastRoots :
    table.Inv ∧ table.treeValid = false ∧ table.ftLen ≠ 0 ∧ exec .tbBuild table = .next (answered 0x1404 built) ∧
    table.ftLen.toNat ≤ 3 ∧ (answered 0x1404 built).nm.read 3 = some ⟨2, 257, 1, 2⟩ :=
  ⟨inv_table, by decide, by decide, next_of_after (by decide), by decide, by decide⟩

theorem witness_BuildOfAnEmptyTableMakesNoTree :
    State.reset.Inv ∧ State.reset.treeValid = false ∧ State.reset.ftLen = 0 := ⟨inv_reset, by decide⟩

theorem witness_TreeDependsOnlyOnFt :
    table.Inv ∧ ({ table with err := 4 } : State).Inv ∧ table.treeValid = false ∧
    (∃ t, exec .tbBuild table = .next t) ∧ ∃ t, exec .tbBuild { table with err := 4 } = .next t :=
  ⟨inv_table, ⟨by decide, by decide, by decide, by decide, by decide, by decide, rfl, by decide, by decide⟩, by decide,
    exists_next (by decide), exists_next (by decide)⟩

theorem witness_TreeDepthIsBounded :
    built.Inv ∧ built.treeValid = true ∧ follow built.nm built.root.toNat [false, true] = some 2 :=
  ⟨inv_built, by decide⟩

theorem witness_TreeFreeReleasesTheTree :
    (built.treeValid = true ∧ built.decState ≠ .run) ∧ table.treeValid = false ∧ decoding.decState = .run := by decide

theorem witness_NmRdAnswersTheNode :
    built.Inv ∧ 4 < built.nodeCnt.toNat ∧ built.nodeCnt.toNat ≤ 5 ∧ 1 < 2 := ⟨inv_built, by decide⟩

theorem witness_CtGenMakesThePathsTheCodes :
    (table.Inv ∧ table.treeValid = false) ∧ (encoding.Inv ∧ encoding.encState = .run) ∧
    (single.Inv ∧ single.treeValid = true ∧ single.encState ≠ .run ∧ single.ftLen.toNat = 1) ∧
    (pair.Inv ∧ pair.treeValid = true ∧ pair.encState ≠ .run ∧ pair.ftLen.toNat = 2) ∧
    (built.Inv ∧ built.treeValid = true ∧ built.encState ≠ .run ∧ 2 ≤ built.ftLen.toNat) :=
  ⟨⟨inv_table, by decide⟩, ⟨inv_encoding, by decide⟩, ⟨inv_single, by decide⟩, ⟨inv_pair, by decide⟩, inv_built,
    by decide⟩

theorem witness_CtRdAnswersTheCode :
    coded.Inv ∧ (8 ≤ 8 ∧ 0 ≤ 256 ∧ coded.ct.read 0 = none) ∧ (256 ≤ 256 ∧ coded.ct.read 256 = some [false, true]) ∧
    7 ≤ 7 ∧ 31 < 32 ∧ 8 < 9 ∧ 256 < 257 := ⟨inv_coded, by decide⟩

/-! ### Witnesses: encoder -/

theorem witness_EncStartOpensASession :
    1 < 2 ∧ State.reset.codesValid = false ∧ coded.codesValid = true ∧ 0 ≤ 1 ∧ 1 ≤ 1 := by decide

theorem witness_EncPutEmitsTheCode :
    (encoding.Inv ∧ 255 < 256) ∧ (coded.Inv ∧ coded.encState ≠ .run) ∧
    (encoding.encState = .run ∧ 255 ≤ 255 ∧ encoding.ct.read 255 = none) ∧
    (encoding.ct.read 98 = some [false, false] ∧ encoding.encDry = false) ∧
    (dryRun.Inv ∧ dryRun.encState = .run ∧ dryRun.ct.read 98 = some [false, false] ∧ dryRun.encDry = true) :=
  ⟨⟨inv_encoding, by decide⟩, ⟨inv_coded, by decide⟩, by decide, by decide, inv_dryRun, by decide⟩

theorem witness_EncFinFlushesAndCloses :
    (coded.Inv ∧ coded.encState ≠ .run) ∧ (poor.Inv ∧ poor.encState = .run ∧ poor.ct.read 256 = none) ∧
    (encoding.Inv ∧ encoding.encState = .run ∧ encoding.ct.read 256 = some [false, true] ∧ encoding.encDry = false) ∧
    (dryRun.Inv ∧ dryRun.ct.read 256 = some [false, true] ∧ dryRun.encDry = true) :=
  ⟨⟨inv_coded, by decide⟩, ⟨inv_poor, by decide⟩, ⟨inv_encoding, by decide⟩, inv_dryRun, by decide⟩

theorem witness_EncodeSessionProducesItsBits :
    coded.codesValid = true ∧ 0 ≤ 1 ∧ 1 ≤ 1 ∧
    sessionBits coded.ct [97, 97, 97, 98] = some [true, true, true, false, false, false, true] := by decide

theorem witness_DryRunShowsTheSameBits :
    coded.codesValid = true ∧ ∀ i ∈ [Instr.encPut 256, .encPut 98, .encFin], i = .encFin ∨ ∃ d, i = .encPut d := by
  refine ⟨by decide, fun i hi => ?_⟩
  simp only [List.mem_cons, List.not_mem_nil, or_false] at hi
  rcases hi with rfl | rfl | rfl <;> simp

/-! ### Witnesses: decoder -/

theorem witness_DecStartOpensASession : built.treeValid = true ∧ table.treeValid = false := by decide

/-- An internal target, a literal, and the end marker. -/
theorem witness_DecBitFollowsTheTree :
    (decoding.Inv ∧ decoding.decState = .run ∧ 1 < 2) ∧ (built.Inv ∧ 1 ≤ 1 ∧ built.decState ≠ .run) ∧
    decoding.nm.read 4 = some ⟨5, 257, 3, 0⟩ ∧ decoding.nm.read 3 = some ⟨2, 257, 1, 2⟩ ∧
    decoding.nm.read 0 = some ⟨3, 97, 1023, 1023⟩ ∧
    (single.Inv ∧ single.decState = .run ∧ single.nm.read 0 = some ⟨1, 256, 1023, 1023⟩) :=
  ⟨⟨inv_decoding, by decide⟩, ⟨inv_built, by decide⟩, by decide, by decide, by decide, inv_single, by decide⟩

theorem witness_DecByteIsUpToEightBits :
    (decoding.Inv ∧ 255 < 256 ∧ decoding.decState = .run) ∧ (built.Inv ∧ 255 ≤ 255 ∧ built.decState ≠ .run) :=
  ⟨⟨inv_decoding, by decide⟩, inv_built, by decide⟩

theorem witness_DecEofReportsTruncation :
    decoding.decState = .run ∧ ({ built with decState := .done } : State).decState = .done ∧
    built.decState = .idle ∧ ({ built with decState := .fail } : State).decState = .fail := by decide

theorem witness_DecodeOfEncodeIsTheInput :
    table.Inv ∧ table.treeValid = false ∧ table.encState ≠ .run ∧ (∃ p r, table.ft.read p = some r ∧ r.sym.toNat = 256) ∧
    ∀ v ∈ ([97, 97, 97, 98] : List Byte), ∃ p r, table.ft.read p = some r ∧ r.sym.toNat = v.toNat := by
  refine ⟨inv_table, by decide, by decide, ⟨2, ⟨256, 1⟩, by decide, by decide⟩, fun v hv => ?_⟩
  simp only [List.mem_cons, List.not_mem_nil, or_false] at hv
  rcases hv with rfl | rfl | rfl | rfl
  · exact ⟨0, ⟨97, 3⟩, by decide, by decide⟩
  · exact ⟨0, ⟨97, 3⟩, by decide, by decide⟩
  · exact ⟨0, ⟨97, 3⟩, by decide, by decide⟩
  · exact ⟨1, ⟨98, 1⟩, by decide, by decide⟩

/-! ### Witnesses: rules of the whole machine -/

/-- The first error, and the two that end a session. -/
theorem witness_AnErrorHasNoOtherEffect :
    (∃ t, exec (.ftGet 257) table = .next t ∧ t.rspLog = table.rspLog ++ [0x0200000000000000]) ∧
    (∃ t, exec .encFin poor = .next t ∧ t.rspLog = poor.rspLog ++ [0x0500000000000000]) ∧
    (∃ t, exec .decEof decoding = .next t ∧ t.rspLog = decoding.rspLog ++ [0x0600000000000000]) ∧
    statusOf 0x0200000000000000 = 2 ∧ statusOf 0x0500000000000000 = 5 ∧ statusOf 0x0600000000000000 = 6 :=
  ⟨⟨_, rfl, by decide⟩, ⟨_, rfl, by decide⟩, ⟨_, rfl, by decide⟩, by decide, by decide, by decide⟩

theorem witness_ErrRecordsEveryError :
    Instr.nop ≠ .srst ∧ ∃ t, exec .nop table = .next t ∧ t.rspLog = table.rspLog ++ [0] := ⟨by decide, _, rfl, by decide⟩

/-- A command, and each kind of reset. -/
theorem witness_OneResponsePerCommand :
    (∃ t, step { table with inputs := [.command 0] } = .next t) ∧
    (∃ t, step { table with inputs := [.reset] } = .next t) ∧
    (∃ t, step { table with inputs := [.resetDuring 0 0 0 0] } = .next t) :=
  ⟨exists_next (by decide), exists_next (by decide), exists_next (by decide)⟩

theorem witness_StatusesOfEachCommand :
    ∃ t, exec .treeFree built = .next t ∧ t.rspLog = built.rspLog ++ [5] := ⟨_, rfl, by decide⟩

theorem witness_LogsOnlyGrow :
    ∃ t, step { encoding with inputs := [.resetDuring 0x4200000000000000 1 0 1] } = .next t := exists_next (by decide)

theorem witness_ReadsChangeNothing :
    (∃ t, exec (.ftGet 97) built = .next t) ∧ (∃ t, exec (.ftRd 2) built = .next t) ∧
    (∃ t, exec (.statRd 8) built = .next t) ∧ (∃ t, exec (.nmRd 1 4) built = .next t) ∧
    (∃ t, exec (.ctRd 8 256) built = .next t) :=
  ⟨exists_next (by decide), exists_next (by decide), exists_next (by decide), exists_next (by decide),
    exists_next (by decide)⟩

theorem witness_RegistersChangeOnlyByTheirCommands : (∃ t, exec .decEof decoding = .next t) ∧ Instr.decEof ≠ .srst :=
  ⟨exists_next (by decide), by decide⟩

theorem witness_SessionsFollowTheirStateMachines :
    ∃ t, exec .decStart built = .next t ∧ t.rspLog = built.rspLog ++ [0] := ⟨_, rfl, by decide⟩

theorem witness_EncoderAndDecoderCommandsCommute :
    ∃ t u, exec (.encPut 98) bothOpen = .next t ∧ exec (.decBit 1) t = .next u := ⟨_, _, rfl, rfl⟩

/-- Every command with an operand, at the first value outside its range. -/
theorem witness_BadOperandIsErrArgInEveryPhase :
    ∀ i ∈ [Instr.statRd 8, .ftPut 257 1, .ftPut 256 0, .ftGet 257, .ftRd 3, .nmRd 2 0, .nmRd 0 5, .ctRd 9 0, .ctRd 0 257,
      .encStart 2, .encPut 256, .decBit 2, .decByte 256], legalOperands built i = false := by decide

/-- Every command with a phase, in a phase that does not accept it. -/
theorem witness_WrongPhaseIsErrState :
    (∀ i ∈ [Instr.ftClr, .ftPut 256 1, .tbBuild, .encStart 1, .encPut 255, .encFin, .decBit 1, .decByte 255, .decEof],
      legalOperands built i = true ∧ phaseOk built i = false) ∧
    (∀ i ∈ [Instr.treeFree, .ctGen, .decStart], legalOperands table i = true ∧ phaseOk table i = false) ∧
    (phaseOk bothOpen .treeFree = false ∧ phaseOk bothOpen .ctGen = false) := by decide

/-- Every command, in a state that accepts it. -/
theorem witness_AcceptedCommandCompletes :
    (∀ p ∈ [(Instr.nop, table), (.srst, bothOpen), (.statRd 7, table), (.ftClr, table), (.ftPut 256 4294967295, table),
      (.ftGet 256, table), (.ftRd 2, table), (.tbBuild, table), (.treeFree, built), (.nmRd 1 4, built), (.ctGen, built),
      (.ctRd 8 256, coded), (.encStart 1, coded), (.encPut 98, encoding), (.encFin, encoding), (.decStart, built),
      (.decBit 1, decoding), (.decByte 255, decoding)],
      p.1.wellFormed = true ∧ legalOperands p.2 p.1 = true ∧ phaseOk p.2 p.1 = true ∧ ownError p.2 p.1 = none) ∧
    (let s : State := { built with decState := .done }
     s.Inv ∧ legalOperands s .decEof = true ∧ phaseOk s .decEof = true ∧ ownError s .decEof = none) :=
  ⟨by decide, ⟨by decide, by decide, by decide, by decide, by decide, by decide, rfl, by decide, by decide⟩, by decide⟩

theorem witness_FirstFailingCheckDecides :
    table.Inv ∧ ({ table with inputs := [.command 0x1100012C00000000] } : State).inputs =
      .command 0x1100012C00000000 :: [] := ⟨inv_table, by decide⟩

theorem witness_StepKeepsTheInvariants :
    bothOpen.Inv ∧ ∃ t, step bothOpen = .next t := ⟨inv_bothOpen, _, rfl⟩

theorem witness_EveryEventIsAnswered : bothOpen.Inv ∧ ({ bothOpen with inputs := [.reset] } : State).Inv :=
  ⟨inv_bothOpen, inv_bothOpen⟩

end Sys2Proof.Machine
end

section
/-! The equations of one step, one for each function between a pending host event and the command it runs
(00_scope.md R7, 20_memory.md R70). -/

namespace Sys2Proof.Machine

/-- The first pending event is the one a step takes. -/
theorem step_of_inputs_cons {s : State} {e : HostEvent} {rest : List HostEvent} (h : s.inputs = e :: rest) :
    step s = runEvent e { s with inputs := rest } := by
  simp only [step, h]

@[simp] theorem runEvent_command (w : Word) (s : State) : runEvent (.command w) s = runWord w s := rfl

theorem runWord_of_decode_instr {w : Word} {i : Instr} (h : decode w = .instr i) (s : State) :
    runWord w s = exec i s := by
  simp only [runWord, h]

/-- Settles O5: the step takes the word off the front of `inputs`, and the word runs the command it decodes to. -/
theorem stepRunsTheDecodedCommand : Obligations.StepRunsTheDecodedCommand := by
  intro s w rest i hinputs hdecode
  calc step s
      = runEvent (.command w) { s with inputs := rest } := step_of_inputs_cons hinputs
    _ = runWord w { s with inputs := rest } := runEvent_command w _
    _ = exec i { s with inputs := rest } := runWord_of_decode_instr hdecode _

end Sys2Proof.Machine
end

section
/-! The invariants of 10_state.md under each command: in a state that keeps them every command answers with a state that
keeps them. Both the safety of a step and its progress are read off from that. -/

namespace Sys2Proof.Machine

/-! ### Responses, errors and resets -/

theorem noteErr_of_ne_ok {st : Status} (h : st ≠ .ok) (err : BitVec 8) :
    noteErr st err = err ||| BitVec.twoPow 8 (statusCode st).toNat := by
  cases st with
  | ok => exact absurd rfl h
  | _ => rfl

/-- `err` gains the bit of an error status and keeps every other bit (10_state.md R42). -/
theorem getLsbD_noteErr (st : Status) (err : BitVec 8) (k : Nat) :
    (noteErr st err).getLsbD k = (err.getLsbD k || (decide (k = (statusCode st).toNat) && decide (k ≠ 0))) := by
  by_cases hst : st = .ok
  · subst hst
    have hbit : (decide (k = (statusCode .ok).toNat) && decide (k ≠ 0)) = false := by simp [statusCode]
    rw [hbit, Bool.or_false]
    rfl
  · have hcode : (statusCode st).toNat ≠ 0 := fun e => hst ((statusCode_eq_zero_iff st).1 e)
    have hle := statusCode_toNat_le st
    rw [noteErr_of_ne_ok hst, BitVec.getLsbD_or, BitVec.getLsbD_twoPow]
    congr 1
    rw [decide_eq_true (show (statusCode st).toNat < 8 by omega), Bool.true_and, ← Bool.decide_and]
    exact decide_eq_decide.2 ⟨fun e => ⟨e.symm, fun e0 => hcode (e.trans e0)⟩, fun e => e.1.symm⟩

theorem State.Inv.respond {s : State} (h : s.Inv) (st : Status) (p : Payload) : (respond st p s).Inv := by
  obtain ⟨hft, htree, hno, hct, henc, hdec, hpq, h0, h7⟩ := h
  have hle := statusCode_toNat_le st
  refine ⟨hft, htree, hno, hct, henc, hdec, hpq, ?_, ?_⟩
  · rw [respond_err, getLsbD_noteErr, h0]
    simp
  · rw [respond_err, getLsbD_noteErr, h7]
    simp
    omega

/-- The reset values keep the invariants, whatever the logs hold and whatever the host sends next. -/
theorem resetBlock_inv (s : State) : (resetBlock s).Inv :=
  ⟨⟨rfl, by simp, by simp, by simp, by simp⟩, by simp, fun _ => ⟨rfl, rfl, rfl⟩,
    ⟨Memory.wf_nil _, by simp, by simp, by simp, by simp⟩,
    ⟨by simp, by simp, List.nil_suffix, by simp⟩, by simp, rfl, by simp, by simp⟩

/-- A reset during a command is a reset of the block whose output streams have grown. -/
theorem resetMidCommand_eq_resetBlock (s t : State) (nEnc nDec nTap : Nat) :
    resetMidCommand s t nEnc nDec nTap = resetBlock { s with
      encOut := t.encOut.take (s.encOut.length + nEnc)
      decOut := t.decOut.take (s.decOut.length + nDec)
      tapLog := t.tapLog.take (s.tapLog.length + nTap) } := rfl

theorem resetMidCommand_inv (s t : State) (nEnc nDec nTap : Nat) : (resetMidCommand s t nEnc nDec nTap).Inv := by
  rw [resetMidCommand_eq_resetBlock]
  exact resetBlock_inv _

/-! ### Outcomes that keep the invariants -/

/-- The machine answers, and with a state that keeps the invariants. -/
def AnswersInv (o : Host.Outcome State Fault Refusal) : Prop := ∃ t, o = .next t ∧ t.Inv

theorem answersInv_respond {u : State} (h : u.Inv) (st : Status) (p : Payload) :
    AnswersInv (.next (respond st p u)) := ⟨_, rfl, h.respond st p⟩

theorem answersInv_fail {u : State} (h : u.Inv) (st : Status) : AnswersInv (.next (fail st u)) :=
  answersInv_respond h st 0

theorem answersInv_finish {r : Except Fault State} {u : State} {p : Payload} (hr : r = .ok (respond .ok p u))
    (h : u.Inv) : AnswersInv (finish r) := by
  rw [hr]
  exact answersInv_respond h .ok p

/-! ### System -/

theorem execStatRd_answersInv {s : State} (h : s.Inv) (sel : Nat) : AnswersInv (execStatRd sel s) := by
  unfold execStatRd
  split
  · exact answersInv_fail h _
  · exact answersInv_respond h _ _

/-! ### Frequency table -/

theorem execFtClr_answersInv {s : State} (h : s.Inv) : AnswersInv (execFtClr s) := by
  unfold execFtClr
  split
  · exact answersInv_fail h _
  · next hv =>
    obtain ⟨-, -, hno, hct, henc, hdec, hpq, herr⟩ := h
    exact answersInv_respond (u := { s with ft := [], ftLen := 0 })
      ⟨⟨rfl, by simp, by simp, by simp, by simp⟩, fun e => absurd e hv, hno, hct, henc, hdec, hpq, herr⟩ _ _

/-- The count of a command word is not 0 once the operand check has passed (30_encoding.md R95). -/
theorem countOf_some {d : Nat} {c : Count} (hd : d < 2 ^ 32) (h : countOf d = some c) : c ≠ 0 := by
  unfold countOf at h
  split at h
  · cases h
  · next h0 =>
    cases h
    intro e
    have e' := congrArg BitVec.toNat e
    rw [BitVec.toNat_ofNat, Nat.mod_eq_of_lt hd] at e'
    exact h0 e'

theorem execFtPut_answersInv {s : State} (h : s.Inv) (a : Nat) {d : Nat} (hd : d < 2 ^ 32) :
    AnswersInv (execFtPut a d s) := by
  unfold execFtPut
  split
  · next sym count hsym hcount =>
    split
    · exact answersInv_fail h _
    · next hv =>
      obtain ⟨hft, -, hno, hct, henc, hdec, hpq, herr⟩ := h
      obtain ⟨ha, hle⟩ := symbolOf_some hsym
      obtain ⟨p, u, hput, hft', ft', len', rfl⟩ := ftPut_runs hft (ha.trans_le hle) (countOf_some hd hcount)
      exact answersInv_finish hput ⟨hft', fun e => absurd e hv, hno, hct, henc, hdec, hpq, herr⟩
  · exact answersInv_fail h _

theorem execFtGet_answersInv {s : State} (h : s.Inv) (a : Nat) : AnswersInv (execFtGet a s) := by
  unfold execFtGet
  split
  · exact answersInv_fail h _
  · rw [h.1.ftRecords]
    exact answersInv_respond h _ _

theorem indexBelow_some {a p : Nat} {bound : Index} (h : indexBelow a bound = some p) : p = a ∧ a < bound.toNat := by
  unfold indexBelow at h
  split at h
  · next ha => exact ⟨(Option.some.inj h).symm, ha⟩
  · cases h

theorem execFtRd_answersInv {s : State} (h : s.Inv) (a : Nat) : AnswersInv (execFtRd a s) := by
  unfold execFtRd
  split
  · exact answersInv_fail h _
  · next p hp =>
    obtain ⟨rfl, hlt⟩ := indexBelow_some hp
    obtain ⟨r, hr⟩ := Memory.exists_read_of_range h.1.1 hlt
    rw [Memory.fetch_of_read hr]
    exact answersInv_respond h _ _

/-! ### Tree builder -/

/-- `TB.BUILD` of a non-empty table where no tree lives makes a tree with every property of 10_state.md R32. -/
theorem tbBuild_makes_tree {s : State} (hft : s.FtOk) (hno : s.NoTree) (hpq : s.pq = []) (hl : s.ftLen ≠ 0) :
    ∃ nm cnt root,
      tbBuild s = .ok (respond .ok (field 0 root ||| field 10 cnt)
        { s with nm := nm, nodeCnt := cnt, pq := [], root := root, treeValid := true }) ∧
      State.TreeOk { s with nm := nm, nodeCnt := cnt, pq := [], root := root, treeValid := true } := by
  have hlen := hft.length_recs
  have hle := hft.2.2.2.2
  have hpos : s.ftLen.toNat ≠ 0 := fun e => hl (BitVec.eq_of_toNat_eq e)
  have hne : s.recs ≠ [] := fun e => hpos (by rw [← hlen, e]; rfl)
  obtain ⟨b, hb, hbpq, hcnt, hidx, hleaf, hinner, howned, -, hweight⟩ :=
    buildTree_ok hne (by omega) hft.syms_le s.nodeCnt
  rw [hlen] at hcnt hidx hleaf hinner howned hweight hb
  have hroot : (BitVec.ofNat 10 (2 * s.ftLen.toNat - 2)).toNat = 2 * s.ftLen.toNat - 2 := by
    rw [BitVec.toNat_ofNat]; omega
  refine ⟨b.nm, b.nodeCnt, BitVec.ofNat 10 (2 * s.ftLen.toNat - 2), ?_, ?_⟩
  · obtain ⟨-, -, hnm⟩ := hno
    simp only [tbBuild, bind, Except.bind, hft.ftRecords, hnm, hpq, hb, hbpq, pure, Except.pure]
  · refine ⟨by simp only; omega, hcnt, by simp only [hroot]; omega, by simp only [hcnt]; exact hidx, ?_, ?_, ?_, ?_⟩
    · intro c hc hlt
      have hread := Memory.read_of_mem (Memory.nodup_of_range hidx) hc
      rw [hleaf c.1 hlt, leafOf_eq_leafRecord] at hread
      simp only [hft.read]
      exact hread
    · intro c hc hge
      exact hinner c.1 c.2 hge (Memory.read_of_mem (Memory.nodup_of_range hidx) hc)
    · simp only [hroot]
      exact howned
    · simp only [hroot, hweight, State.recs, countSum, List.map_map]
      rfl

theorem execTbBuild_answersInv {s : State} (h : s.Inv) : AnswersInv (execTbBuild s) := by
  unfold execTbBuild
  split
  · exact answersInv_fail h _
  · next hv =>
    split
    · exact answersInv_fail h _
    · next hl =>
      obtain ⟨hft, -, hno, hct, henc, hdec, hpq, herr⟩ := h
      obtain ⟨nm, cnt, root, hbuild, htree⟩ := tbBuild_makes_tree hft (hno (Bool.eq_false_of_not_eq_true hv)) hpq hl
      exact answersInv_finish hbuild
        ⟨hft, fun _ => htree, by simp, hct, henc, fun hrun => absurd (hdec hrun).1 hv, rfl, herr⟩

theorem execTreeFree_answersInv {s : State} (h : s.Inv) : AnswersInv (execTreeFree s) := by
  unfold execTreeFree
  split
  · exact answersInv_fail h _
  · split
    · exact answersInv_fail h _
    · next hrun =>
      obtain ⟨hft, -, -, hct, henc, -, hpq, herr⟩ := h
      exact answersInv_respond (u := { s with nm := [], nodeCnt := 0, root := Config.nil, treeValid := false })
        ⟨hft, by simp, fun _ => ⟨rfl, rfl, rfl⟩, hct, henc, fun e => absurd e hrun, hpq, herr⟩ _ _

/-- Exactly the nodes below `node_cnt` hold a record, whether a tree lives or not. -/
theorem State.Inv.nm_indices {s : State} (h : s.Inv) : s.nm.map Prod.fst = List.range s.nodeCnt.toNat := by
  obtain ⟨-, htree, hno, -⟩ := h
  cases hv : s.treeValid with
  | true =>
    obtain ⟨-, -, -, hidx, -⟩ := htree hv
    exact hidx
  | false =>
    obtain ⟨hcnt, -, hnm⟩ := hno hv
    rw [hnm, hcnt]
    rfl

theorem execNmRd_answersInv {s : State} (h : s.Inv) (sel a : Nat) : AnswersInv (execNmRd sel a s) := by
  unfold execNmRd
  split
  · next part i _ hi =>
    obtain ⟨rfl, hlt⟩ := indexBelow_some hi
    obtain ⟨n, hn⟩ := Memory.exists_read_of_range h.nm_indices hlt
    rw [Memory.fetch_of_read hn]
    exact answersInv_respond h _ _
  · exact answersInv_fail h _

/-! ### Code table -/

theorem execCtGen_answersInv {s : State} (h : s.Inv) : AnswersInv (execCtGen s) := by
  unfold execCtGen
  split
  · exact answersInv_fail h _
  · next hv =>
    split
    · exact answersInv_fail h _
    · next hrun =>
      obtain ⟨hft, htree, hno, -, henc, hdec, hpq, herr⟩ := h
      obtain ⟨-, hlow, hpend, hdry⟩ := henc
      obtain ⟨T, hroot, -⟩ := (htree (by simpa using hv)).isTree hft
      obtain ⟨ct, hct, hlen, hwf, hbound, hprefix, hlone⟩ := T.codesOfTree_ok
      have hne : ct ≠ [] := fun e => by
        have hpos := T.pos
        rw [← hlen, e] at hpos
        cases hpos
      have hgen : ctGen s = .ok (respond .ok (field 0 (BitVec.ofNat 10 ct.length))
          { s with ct := ct, codesValid := true }) := by
        simp only [ctGen, bind, Except.bind, hroot, hct, pure, Except.pure]
      exact answersInv_finish hgen ⟨hft, htree, hno, ⟨hwf, by simpa using hne, hbound, hprefix, hlone⟩,
        ⟨fun _ => rfl, hlow, hpend, hdry⟩, hdec, hpq, herr⟩

theorem execCtRd_answersInv {s : State} (h : s.Inv) (sel a : Nat) : AnswersInv (execCtRd sel a s) := by
  unfold execCtRd
  split
  · split
    · exact answersInv_respond h _ _
    · exact answersInv_respond h _ _
  · exact answersInv_fail h _

/-! ### Encoder -/

/-- Ending the encode session keeps the invariants: only an open session asks for codes. -/
theorem State.Inv.encState_closed {s : State} (h : s.Inv) {st : Session} (hst : st ≠ .run) :
    State.Inv { s with encState := st } := by
  obtain ⟨hft, htree, hno, hct, ⟨-, hlow, hpend, hdry⟩, hdec, hpq, herr⟩ := h
  exact ⟨hft, htree, hno, hct, ⟨fun e => absurd e hst, hlow, hpend, hdry⟩, hdec, hpq, herr⟩

theorem execEncStart_answersInv {s : State} (h : s.Inv) (sel : Nat) : AnswersInv (execEncStart sel s) := by
  unfold execEncStart
  split
  · exact answersInv_fail h _
  · next mode _ =>
    split
    · exact answersInv_fail h _
    · next hv =>
      obtain ⟨hft, htree, hno, hct, -, hdec, hpq, herr⟩ := h
      exact answersInv_respond
        (u := { s with encDry := decide (mode = .dry), encBitcnt := 0, pkAcc := 0, pkN := 0, encState := .run })
        ⟨hft, htree, hno, hct, ⟨fun _ => by simpa using hv, by simp, List.nil_suffix, fun _ => rfl⟩, hdec, hpq, herr⟩ _ _

/-- In live mode the packer goes on holding the last bits shown; in a dry run it stays empty (10_state.md R36,
43_encoder.md R197). -/
theorem emitBits_encOk {s : State} (h : s.EncOk) (c : Code) : (emitBits c s).EncOk := by
  obtain ⟨hcodes, hlow, hpend, hdry⟩ := h
  cases hd : s.encDry with
  | true =>
    have hn := hdry hd
    rw [emitBits_dry c s hd]
    refine ⟨hcodes, hlow, ?_, hdry⟩
    simp only [pendingBits_eq, hn, topBits_zero]
    exact List.nil_suffix
  | false =>
    obtain ⟨n, acc, out, e, hlow', -, -, -, hsuffix⟩ := emitBits_live c s hd hlow
    rw [e]
    refine ⟨hcodes, hlow', hsuffix.trans (List.suffix_append_self_iff.2 hpend), fun hdry' => ?_⟩
    simp [hd] at hdry'

theorem State.Inv.emitBits {s : State} (h : s.Inv) (c : Code) : (emitBits c s).Inv := by
  obtain ⟨hft, htree, hno, hct, henc, hdec, hpq, herr⟩ := h
  have henc' := emitBits_encOk henc c
  obtain ⟨bc, n, acc, out, e⟩ := emitBits_frame c s
  rw [e] at henc' ⊢
  exact ⟨hft, htree, hno, hct, henc', hdec, hpq, herr⟩

theorem State.Inv.flush {s : State} (h : s.Inv) : (flush s).Inv := by
  unfold Machine.flush
  split
  · obtain ⟨hft, htree, hno, hct, ⟨hcodes, -⟩, hdec, hpq, herr⟩ := h
    exact ⟨hft, htree, hno, hct, ⟨hcodes, by simp, List.nil_suffix, fun _ => rfl⟩, hdec, hpq, herr⟩
  · exact h

theorem State.Inv.closeEncode {s : State} (h : s.Inv) (c : Code) : (closeEncode c s).Inv :=
  (h.emitBits c).flush.encState_closed (by decide)

theorem execEncPut_answersInv {s : State} (h : s.Inv) (d : Nat) : AnswersInv (execEncPut d s) := by
  unfold execEncPut
  split
  · exact answersInv_fail h _
  · split
    · exact answersInv_fail h _
    · split
      · exact answersInv_fail (h.encState_closed (by decide)) _
      · next c _ => exact answersInv_respond (h.emitBits c) _ _

theorem execEncFin_answersInv {s : State} (h : s.Inv) : AnswersInv (execEncFin s) := by
  unfold execEncFin
  split
  · exact answersInv_fail h _
  · split
    · exact answersInv_fail (h.encState_closed (by decide)) _
    · next c _ => exact answersInv_respond (h.closeEncode c) _ _

/-! ### Decoder -/

theorem execDecStart_answersInv {s : State} (h : s.Inv) : AnswersInv (execDecStart s) := by
  unfold execDecStart
  split
  · exact answersInv_fail h _
  · next hv =>
    obtain ⟨hft, htree, hno, hct, henc, -, hpq, herr⟩ := h
    have hv : s.treeValid = true := by simpa using hv
    obtain ⟨hpos, hcnt, hroot, -⟩ := htree hv
    exact answersInv_respond (u := { s with decCur := s.root, decCnt := 0, decBitcnt := 0, decState := .run })
      ⟨hft, htree, hno, hct, henc, fun _ => ⟨hv, by simp only; omega, .inl rfl⟩, hpq, herr⟩ _ _

/-- Landing on a node of a live tree keeps the invariants. -/
theorem State.Inv.landed {s : State} (h : s.Inv) (hv : s.treeValid = true) {t : Nat} {n : Node}
    (hn : s.nm.read t = some n) : (landed t n s).Inv := by
  obtain ⟨hft, htree, hno, hct, henc, -, hpq, herr⟩ := h
  have hdec := decOk_landed hft htree hv hn
  obtain ⟨cur, cnt, st, out, e, -, -⟩ := landed_frame t n s
  rw [e] at hdec ⊢
  exact ⟨hft, htree, hno, hct, henc, hdec, hpq, herr⟩

/-- The loop of `DEC.BYTE` runs to its end and keeps the invariants. -/
theorem feedBits_inv {s : State} (h : s.Inv) (bits : List Bool) (c : Fed) :
    ∃ u c', feedBits bits c s = .ok (u, c') ∧ u.Inv := by
  obtain ⟨hft, htree, hno, hct, henc, hdec, hpq, herr⟩ := h
  obtain ⟨u, c', hfeed, hdec'⟩ := feedBits_runs bits c s hft htree hdec
  obtain ⟨bc, cur, cnt, st, out, rfl, -⟩ := feedBits_frame _ _ _ _ _ hfeed
  exact ⟨_, c', hfeed, hft, htree, hno, hct, henc, hdec', hpq, herr⟩

theorem execDecBit_answersInv {s : State} (h : s.Inv) (d : Nat) : AnswersInv (execDecBit d s) := by
  unfold execDecBit
  split
  · exact answersInv_fail h _
  · next b _ =>
    split
    · exact answersInv_fail h _
    · next hrun =>
      obtain ⟨hft, htree, -, -, -, hdec, -⟩ := id h
      have hrun : s.decState = .run := not_not.1 hrun
      obtain ⟨-, -, t, n, -, -, -, hn, hstep⟩ := decStep_runs hft htree hdec hrun b
      rw [hstep]
      exact answersInv_respond (h.landed (hdec hrun).1 hn) _ _

theorem execDecByte_answersInv {s : State} (h : s.Inv) (d : Nat) : AnswersInv (execDecByte d s) := by
  unfold execDecByte
  split
  · exact answersInv_fail h _
  · next v _ =>
    split
    · exact answersInv_fail h _
    · obtain ⟨u, c, hfeed, hinv⟩ := feedBits_inv h (byteBits v) { used := 0, lits := 0 }
      rw [hfeed]
      exact answersInv_respond hinv _ _

theorem execDecEof_answersInv {s : State} (h : s.Inv) : AnswersInv (execDecEof s) := by
  unfold execDecEof
  split
  · obtain ⟨hft, htree, hno, hct, henc, -, hpq, herr⟩ := h
    exact answersInv_fail (u := { s with decState := .fail })
      ⟨hft, htree, hno, hct, henc, by simp, hpq, herr⟩ _
  · exact answersInv_respond h _ _
  · exact answersInv_fail h _
  · exact answersInv_fail h _

/-! ### Every command and every event -/

/-- Every command that a word can carry answers, and keeps the invariants. -/
theorem exec_answersInv {i : Instr} {s : State} (hi : i.wellFormed = true) (h : s.Inv) : AnswersInv (exec i s) := by
  cases i with
  | nop => exact answersInv_respond h _ _
  | srst => exact answersInv_respond (resetBlock_inv s) _ _
  | statRd sel => exact execStatRd_answersInv h sel
  | ftClr => exact execFtClr_answersInv h
  | ftPut a d =>
    obtain ⟨-, hd⟩ : a < 2 ^ 16 ∧ d < 2 ^ 32 := by simpa [Instr.wellFormed] using hi
    exact execFtPut_answersInv h a hd
  | ftGet a => exact execFtGet_answersInv h a
  | ftRd a => exact execFtRd_answersInv h a
  | tbBuild => exact execTbBuild_answersInv h
  | treeFree => exact execTreeFree_answersInv h
  | nmRd sel a => exact execNmRd_answersInv h sel a
  | ctGen => exact execCtGen_answersInv h
  | ctRd sel a => exact execCtRd_answersInv h sel a
  | encStart sel => exact execEncStart_answersInv h sel
  | encPut d => exact execEncPut_answersInv h d
  | encFin => exact execEncFin_answersInv h
  | decStart => exact execDecStart_answersInv h
  | decBit d => exact execDecBit_answersInv h d
  | decByte d => exact execDecByte_answersInv h d
  | decEof => exact execDecEof_answersInv h

/-- Every row makes a well-formed command of fields that fit (30_encoding.md R91, R95). -/
theorem wellFormed_build {f : Fields} (hsel : f.sel < 2 ^ 8) (ha : f.a < 2 ^ 16) (hd : f.d < 2 ^ 32) :
    ∀ r ∈ rows, (r.build f).wellFormed = true := by
  simp only [rows, rowsLow, rowsHigh, List.cons_append, List.nil_append, List.forall_mem_cons, Instr.wellFormed,
    fitsSel, fitsA, fitsD, hsel, ha, hd, decide_true, Bool.and_self, true_and]
  exact List.forall_mem_nil _

theorem wellFormed_of_decode {w : Word} {i : Instr} (h : decode w = .instr i) : i.wellFormed = true := by
  obtain ⟨r, hr, -, -, rfl⟩ := decode_instr h
  obtain ⟨-, hsel, ha, hd⟩ := fieldsOf_fit w
  exact wellFormed_build hsel ha hd r hr

theorem runWord_answersInv {s : State} (h : s.Inv) (w : Word) : AnswersInv (runWord w s) := by
  unfold runWord
  split
  · next i hi => exact exec_answersInv (wellFormed_of_decode hi) h
  · exact answersInv_fail h _

theorem runEvent_answersInv {s : State} (h : s.Inv) (e : HostEvent) : AnswersInv (runEvent e s) := by
  cases e with
  | command w => exact runWord_answersInv h w
  | reset => exact ⟨_, rfl, resetBlock_inv s⟩
  | resetDuring w nEnc nDec nTap =>
    obtain ⟨t, ht, -⟩ := runWord_answersInv h w
    exact ⟨resetMidCommand s t nEnc nDec nTap, by simp only [runEvent, ht], resetMidCommand_inv s t nEnc nDec nTap⟩

/-- One step from a state that keeps the invariants answers, and keeps them. -/
theorem step_answersInv {s : State} (h : s.Inv) : AnswersInv (step s) := by
  unfold step
  split
  · exact ⟨s, rfl, h⟩
  · next e rest _ => exact runEvent_answersInv (s := { s with inputs := rest }) h e

/-- Settles O56: the one state a step answers is the one `step_answersInv` speaks of. -/
theorem stepKeepsTheInvariants : Obligations.StepKeepsTheInvariants := by
  intro s t h hstep
  obtain ⟨u, hu, hinv⟩ := step_answersInv h
  rw [hstep] at hu
  cases hu
  exact hinv

/-- Settles O57: under the invariants no command meets a fault of the model, and none is refused. -/
theorem everyEventIsAnswered : Obligations.EveryEventIsAnswered := by
  intro s h
  obtain ⟨t, ht, -⟩ := step_answersInv h
  exact ⟨t, ht⟩

/-- Settles O55: the reset state is its own reset. -/
theorem resetKeepsTheInvariants : Obligations.ResetKeepsTheInvariants := resetBlock_inv State.reset

/-- Settles O58: each register of `State.reset` is written out in its definition. -/
theorem resetStateHoldsTheResetValues : Obligations.ResetStateHoldsTheResetValues := rfl

/-- Settles O8: the reset input is taken off the pending events, and the block is reset. -/
theorem resetInputGivesTheResetState : Obligations.ResetInputGivesTheResetState := by
  intro s rest hinputs
  calc step s
      = runEvent .reset { s with inputs := rest } := step_of_inputs_cons hinputs
    _ = .next (resetBlock { s with inputs := rest }) := rfl

/-! ### The depth of a live tree -/

/-- Settles O26: a path can only go down to older nodes, and the leaves are the `ft_len` oldest. -/
theorem treeDepthIsBounded : Obligations.TreeDepthIsBounded := by
  intro s path j ⟨hft, htree, _⟩ hv hpath
  obtain ⟨T, hroot, -⟩ := (htree hv).isTree hft
  rw [hroot] at hpath
  have hdepth := T.follow_root_length hpath
  have hlen := hft.length_recs
  have hbound := T.bound
  exact ⟨by omega, by omega⟩

end Sys2Proof.Machine
end

section
/-! What a command leaves as it was, read off from `exec_cases`: the frame of every command but `SRST`, and from it the
sticky error register, the four logs and the two session states. -/

namespace Sys2Proof.Machine

/-! ### The frame of a command -/

/-- From `s` to `u` only what the command `i` is listed as writing has changed (10_state.md R21, 20_memory.md R60):
`u` is the state before the command's response, so `err` and the response log are still those of `s`. -/
structure Frame (i : Instr) (s u : State) : Prop where
  table : (i ≠ .ftClr ∧ ∀ a d, i ≠ .ftPut a d) → u.ftLen = s.ftLen ∧ u.ft = s.ft
  tree : i ≠ .tbBuild → i ≠ .treeFree →
    u.treeValid = s.treeValid ∧ u.nodeCnt = s.nodeCnt ∧ u.root = s.root ∧ u.nm = s.nm ∧ u.pq = s.pq
  codes : i ≠ .ctGen → u.codesValid = s.codesValid ∧ u.ct = s.ct
  encoder : (∀ m, i ≠ .encStart m) → u.encDry = s.encDry ∧
    ((∀ d, i ≠ .encPut d) → i ≠ .encFin →
      u.encState = s.encState ∧ u.encBitcnt = s.encBitcnt ∧ u.pkN = s.pkN ∧ u.pkAcc = s.pkAcc)
  encStreams : (∀ d, i ≠ .encPut d) → i ≠ .encFin → u.encOut = s.encOut ∧ u.tapLog = s.tapLog
  decoder : (∀ d, i ≠ .decBit d) → (∀ d, i ≠ .decByte d) → u.decOut = s.decOut ∧
    (i ≠ .decStart → u.decCur = s.decCur ∧ u.decCnt = s.decCnt ∧ u.decBitcnt = s.decBitcnt ∧
      (i ≠ .decEof → u.decState = s.decState))
  inputs : u.inputs = s.inputs
  err : u.err = s.err
  rspLog : u.rspLog = s.rspLog

theorem Frame.refl (i : Instr) (s : State) : Frame i s s := by constructor <;> simp

/-- A bit or a byte fed to an open session changes only the decoder's registers and its output stream, and leaves the
session open or done. -/
theorem effect_of_feeding {i : Instr} {s u : State} (hi : ∃ d, i = .decBit d ∨ i = .decByte d) (h : Effect i s u) :
    s.decState = .run ∧ ∃ bc cur cnt st out, u =
      { s with decBitcnt := bc, decCur := cur, decCnt := cnt, decState := st, decOut := s.decOut ++ out } ∧
      (st = s.decState ∨ st = .done) := by
  obtain ⟨d, rfl | rfl⟩ := hi
  · obtain ⟨hrun, b, ev, hstep⟩ := h
    obtain ⟨t, n, -, -, rfl, -⟩ := decStep_ok hstep
    obtain ⟨cur, cnt, st, out, e, hst, -⟩ := landed_frame t n s
    exact ⟨hrun, _, cur, cnt, st, out, e, hst⟩
  · obtain ⟨hrun, bits, c, hfeed⟩ := h
    exact ⟨hrun, feedBits_frame _ _ _ _ _ hfeed⟩

/-- A code emitted in an open session changes only the packer, the counter, the session state and the two output
streams of the encoder. -/
theorem effect_of_emitting {i : Instr} {s u : State} (hi : i = .encFin ∨ ∃ d, i = .encPut d) (h : Effect i s u) :
    ∃ bits bc n acc out st, u =
      { s with tapLog := s.tapLog ++ bits, encBitcnt := bc, pkN := n, pkAcc := acc, encOut := s.encOut ++ out,
               encState := st } := by
  obtain rfl | ⟨d, rfl⟩ := hi
  · obtain ⟨-, c, -, rfl⟩ := h
    obtain ⟨bc, n, acc, out, e⟩ := closeEncode_frame c s
    exact ⟨c, bc, n, acc, out, .done, e⟩
  · obtain ⟨-, c, -, rfl⟩ := h
    obtain ⟨bc, n, acc, out, e⟩ := emitBits_frame c s
    exact ⟨c, bc, n, acc, out, s.encState, e⟩

theorem effect_frame {i : Instr} {s u : State} (hi : i ≠ .srst) (h : Effect i s u) : Frame i s u := by
  cases i with
  | srst => exact absurd rfl hi
  | nop | statRd | ftGet | ftRd | nmRd | ctRd =>
    obtain rfl : u = s := h
    exact Frame.refl _ _
  | ftClr => obtain ⟨-, rfl⟩ := h; constructor <;> simp
  | ftPut a d => obtain ⟨-, ft, len, rfl⟩ := h; constructor <;> simp
  | tbBuild => obtain ⟨-, -, nm, cnt, pq, r, rfl⟩ := h; constructor <;> simp
  | treeFree => obtain ⟨-, -, rfl⟩ := h; constructor <;> simp
  | ctGen => obtain ⟨-, -, ct, -, rfl⟩ := h; constructor <;> simp
  | encStart m => obtain ⟨-, dry, rfl⟩ := h; constructor <;> simp
  | encPut | encFin =>
    obtain ⟨bits, bc, n, acc, out, st, rfl⟩ := effect_of_emitting (by simp) h
    constructor <;> simp
  | decStart => obtain ⟨-, rfl⟩ := h; constructor <;> simp
  | decBit | decByte =>
    obtain ⟨-, bc, cur, cnt, st, out, rfl, -⟩ := effect_of_feeding (by simp) h
    constructor <;> simp
  | decEof =>
    obtain ⟨-, rfl⟩ := h
    exact Frame.refl _ _

/-- The commands that can end with `ERR_NOCODE` (60_exceptions.md R271). -/
theorem possibleErrors_nocode {i : Instr} (h : .nocode ∈ possibleErrors i) : i = .encFin ∨ ∃ d, i = .encPut d := by
  cases i <;> simp_all [possibleErrors]

/-- The only command that can end with `ERR_TRUNC` (60_exceptions.md R271). -/
theorem possibleErrors_trunc {i : Instr} (h : .trunc ∈ possibleErrors i) : i = .decEof := by
  cases i <;> simp_all [possibleErrors]

/-- An error changes no more than the state of the session it ends. -/
theorem sessionsAfter_frame {i : Instr} {st : Status} (h : st ∈ possibleErrors i) (s : State) :
    Frame i s (sessionsAfter st s) := by
  by_cases hn : st = .nocode
  · subst hn
    rcases possibleErrors_nocode h with rfl | ⟨d, rfl⟩ <;> constructor <;> simp [sessionsAfter]
  · by_cases ht : st = .trunc
    · subst ht
      obtain rfl := possibleErrors_trunc h
      constructor <;> simp [sessionsAfter]
    · rw [sessionsAfter_other hn ht]
      exact Frame.refl i s

/-- A command other than `SRST` answers with one response, on a state that differs from the one before by no more than
its frame allows. -/
theorem exec_frame {i : Instr} {s t : State} (hi : i ≠ .srst) (h : exec i s = .next t) :
    ∃ st p u, t = respond st p u ∧ Frame i s u := by
  rcases exec_cases h with ⟨st, hst, rfl, -⟩ | ⟨p, u, rfl, hu⟩
  · exact ⟨st, 0, _, rfl, sessionsAfter_frame hst s⟩
  · exact ⟨.ok, p, u, rfl, effect_frame hi hu⟩

/-- Settles O47: the response changes none of these registers, arrays and streams. -/
theorem registersChangeOnlyByTheirCommands : Obligations.RegistersChangeOnlyByTheirCommands := by
  intro i s t h hi
  obtain ⟨st, p, u, rfl, F⟩ := exec_frame hi h
  exact ⟨F.table, F.tree, F.codes, F.encoder, F.encStreams, F.decoder, F.inputs⟩

/-! ### The sticky error register -/

/-- The word that a response appends to the log is its own. -/
theorem response_eq {l : List Word} {st : Status} {p : Payload} {u : State} {w : Word} (hu : u.rspLog = l)
    (h : (respond st p u).rspLog = l ++ [w]) : w = responseWord st p := by
  rw [respond_rspLog, hu] at h
  exact (List.singleton_inj.1 (List.append_cancel_left h)).symm

/-- Settles O42: `err` is written by the response alone, which notes its status. -/
theorem errRecordsEveryError : Obligations.ErrRecordsEveryError := by
  intro i s t w hi h hw k _
  obtain ⟨st, p, u, rfl, F⟩ := exec_frame hi h
  obtain rfl := response_eq F.rspLog hw
  rw [statusOf_responseWord, respond_err, F.err]
  exact getLsbD_noteErr st s.err k

/-! ### The logs -/

/-- Each log of `t` is the one of `s` with words, bytes or bits after it (10_state.md R45). -/
def LogsGrow (s t : State) : Prop :=
  s.rspLog <+: t.rspLog ∧ s.encOut <+: t.encOut ∧ s.decOut <+: t.decOut ∧ s.tapLog <+: t.tapLog

theorem LogsGrow.refl (s : State) : LogsGrow s s :=
  ⟨List.prefix_refl _, List.prefix_refl _, List.prefix_refl _, List.prefix_refl _⟩

theorem LogsGrow.respond {s u : State} (h : LogsGrow s u) (st : Status) (p : Payload) : LogsGrow s (respond st p u) := by
  obtain ⟨hrsp, henc, hdec, htap⟩ := h
  exact ⟨hrsp.trans (List.prefix_append _ _), henc, hdec, htap⟩

theorem effect_logsGrow {i : Instr} {s u : State} (h : Effect i s u) : LogsGrow s u := by
  cases i with
  | srst =>
    obtain rfl : u = resetBlock s := h
    exact LogsGrow.refl s
  | encPut | encFin =>
    obtain ⟨bits, bc, n, acc, out, st, rfl⟩ := effect_of_emitting (by simp) h
    exact ⟨List.prefix_refl _, List.prefix_append _ _, List.prefix_refl _, List.prefix_append _ _⟩
  | decBit | decByte =>
    obtain ⟨-, bc, cur, cnt, st, out, rfl, -⟩ := effect_of_feeding (by simp) h
    exact ⟨List.prefix_refl _, List.prefix_refl _, List.prefix_append _ _, List.prefix_refl _⟩
  | _ =>
    have F := effect_frame (by simp) h
    obtain ⟨henc, htap⟩ := F.encStreams (by simp) (by simp)
    obtain ⟨hdec, -⟩ := F.decoder (by simp) (by simp)
    rw [LogsGrow, F.rspLog, henc, hdec, htap]
    exact LogsGrow.refl s

theorem exec_logsGrow {i : Instr} {s t : State} (h : exec i s = .next t) : LogsGrow s t := by
  rcases exec_cases h with ⟨st, -, rfl, -⟩ | ⟨p, u, rfl, hu⟩
  · exact (show LogsGrow s (sessionsAfter st s) from LogsGrow.refl s).respond st 0
  · exact (effect_logsGrow hu).respond .ok p

theorem runWord_logsGrow {w : Word} {s t : State} (h : runWord w s = .next t) : LogsGrow s t := by
  unfold runWord at h
  split at h
  · exact exec_logsGrow h
  · cases h
    exact (LogsGrow.refl s).respond .ill 0

/-- A reset during a command delivers no less than what was in the logs before. -/
theorem resetMidCommand_logsGrow {s t : State} (h : LogsGrow s t) (nEnc nDec nTap : Nat) :
    LogsGrow s (resetMidCommand s t nEnc nDec nTap) := by
  obtain ⟨-, henc, hdec, htap⟩ := h
  exact ⟨List.prefix_refl _, List.prefix_take_iff.2 ⟨henc, Nat.le_add_right _ _⟩,
    List.prefix_take_iff.2 ⟨hdec, Nat.le_add_right _ _⟩, List.prefix_take_iff.2 ⟨htap, Nat.le_add_right _ _⟩⟩

theorem runEvent_logsGrow {e : HostEvent} {s t : State} (h : runEvent e s = .next t) : LogsGrow s t := by
  cases e with
  | command w => exact runWord_logsGrow h
  | reset =>
    cases h
    exact LogsGrow.refl s
  | resetDuring w nEnc nDec nTap =>
    simp only [runEvent] at h
    split at h <;> cases h
    next u hu => exact resetMidCommand_logsGrow (runWord_logsGrow hu) nEnc nDec nTap

/-- Settles O45: a command appends to the logs, a reset keeps them, and taking an event off `inputs` does not touch
them. -/
theorem logsOnlyGrow : Obligations.LogsOnlyGrow := by
  intro s t h
  unfold step at h
  split at h
  · cases h
    exact LogsGrow.refl s
  · next e rest _ => exact runEvent_logsGrow (s := { s with inputs := rest }) h

/-! ### The session states -/

/-- The arrows of the encoder's state machine, by the command and the status named at them (10_state.md R23). -/
def EncArrow (i : Instr) (status : Nat) (a b : Session) : Prop :=
  b = a ∨ (b = .run ∧ (∃ m, i = .encStart m) ∧ status = 0) ∨ (a = .run ∧ b = .done ∧ i = .encFin ∧ status = 0) ∨
    (a = .run ∧ b = .fail ∧ (i = .encFin ∨ ∃ d, i = .encPut d) ∧ status = 5) ∨ (b = .idle ∧ i = .srst)

/-- The arrows of the decoder's state machine, by the command and the status named at them (10_state.md R23). -/
def DecArrow (i : Instr) (status : Nat) (a b : Session) : Prop :=
  b = a ∨ (b = .run ∧ i = .decStart ∧ status = 0) ∨ (a = .run ∧ b = .done ∧ ∃ d, i = .decBit d ∨ i = .decByte d) ∨
    (a = .run ∧ b = .fail ∧ i = .decEof) ∨ (b = .idle ∧ i = .srst)

theorem encArrow_of_effect {i : Instr} {s u : State} (h : Effect i s u) : EncArrow i 0 s.encState u.encState := by
  cases i with
  | srst =>
    obtain rfl : u = resetBlock s := h
    exact .inr (.inr (.inr (.inr ⟨rfl, rfl⟩)))
  | encStart m =>
    obtain ⟨-, dry, rfl⟩ := h
    exact .inr (.inl ⟨rfl, ⟨m, rfl⟩, rfl⟩)
  | encPut d =>
    obtain ⟨-, c, -, rfl⟩ := h
    exact .inl (emitBits_encState c s)
  | encFin =>
    obtain ⟨hrun, c, -, rfl⟩ := h
    exact .inr (.inr (.inl ⟨hrun, rfl, rfl, rfl⟩))
  | _ =>
    obtain ⟨-, henc⟩ := (effect_frame (by simp) h).encoder (by simp)
    exact .inl (henc (by simp) (by simp)).1

theorem decArrow_of_effect {i : Instr} {s u : State} (h : Effect i s u) : DecArrow i 0 s.decState u.decState := by
  cases i with
  | srst =>
    obtain rfl : u = resetBlock s := h
    exact .inr (.inr (.inr (.inr ⟨rfl, rfl⟩)))
  | decStart =>
    obtain ⟨-, rfl⟩ := h
    exact .inr (.inl ⟨rfl, rfl, rfl⟩)
  | decBit | decByte =>
    obtain ⟨hrun, bc, cur, cnt, st, out, rfl, hst⟩ := effect_of_feeding (by simp) h
    exact hst.imp id fun hdone => .inr (.inl ⟨hrun, hdone, by simp⟩)
  | decEof =>
    obtain ⟨-, rfl⟩ := h
    exact .inl rfl
  | _ =>
    obtain ⟨-, hdec⟩ := (effect_frame (by simp) h).decoder (by simp) (by simp)
    obtain ⟨-, -, -, hst⟩ := hdec (by simp)
    exact .inl (hst (by simp))

theorem encArrow_of_error {i : Instr} {st : Status} {s : State} (h : st ∈ possibleErrors i)
    (hrun : st = .nocode → s.encState = .run) :
    EncArrow i (statusCode st).toNat s.encState (sessionsAfter st s).encState := by
  by_cases hn : st = .nocode
  · subst hn
    exact .inr (.inr (.inr (.inl ⟨hrun rfl, rfl, possibleErrors_nocode h, rfl⟩)))
  · exact .inl (if_neg hn)

theorem decArrow_of_error {i : Instr} {st : Status} {s : State} (h : st ∈ possibleErrors i)
    (hrun : st = .trunc → s.decState = .run) :
    DecArrow i (statusCode st).toNat s.decState (sessionsAfter st s).decState := by
  by_cases ht : st = .trunc
  · subst ht
    exact .inr (.inr (.inr (.inl ⟨hrun rfl, rfl, possibleErrors_trunc h⟩)))
  · exact .inl (if_neg ht)

/-- What a command does, its response aside, adds no word to the response log. -/
theorem effect_rspLog {i : Instr} {s u : State} (h : Effect i s u) : u.rspLog = s.rspLog := by
  by_cases hi : i = .srst
  · subst hi
    obtain rfl : u = resetBlock s := h
    rfl
  · exact (effect_frame hi h).rspLog

/-- Settles O48: an error ends the session it belongs to, and each command that succeeds makes its own arrow. -/
theorem sessionsFollowTheirStateMachines : Obligations.SessionsFollowTheirStateMachines := by
  intro i s t w h hw
  rcases exec_cases h with ⟨st, hst, rfl, henc, hdec⟩ | ⟨p, u, rfl, hu⟩
  · obtain rfl := response_eq (u := sessionsAfter st s) rfl hw
    rw [statusOf_responseWord]
    exact ⟨encArrow_of_error hst henc, decArrow_of_error hst hdec⟩
  · obtain rfl := response_eq (effect_rspLog hu) hw
    rw [statusOf_responseWord]
    exact ⟨encArrow_of_effect (u := u) hu, decArrow_of_effect (u := u) hu⟩

end Sys2Proof.Machine
end

section
/-! The five read commands: each answers by a word that depends on nothing a response writes, so it can be repeated
(20_memory.md R68). -/

namespace Sys2Proof.Machine

/-- The commands that only read (20_memory.md R68). -/
def IsReadCommand (i : Instr) : Prop :=
  ∃ a, i = .ftGet a ∨ i = .ftRd a ∨ i = .statRd a ∨ ∃ sel, i = .nmRd sel a ∨ i = .ctRd sel a

/-- A read that answers, answers with `OK` or a bare `ERR_ARG`, does nothing else, and answers the same whatever
responses there were before it. -/
theorem exec_read {i : Instr} {s t : State} (hi : IsReadCommand i) (h : exec i s = .next t) :
    ∃ st p, (st = .ok ∨ (st = .arg ∧ p = 0)) ∧
      ∀ l, exec i { s with rspLog := l } = .next (respond st p { s with rspLog := l }) := by
  obtain ⟨a, rfl | rfl | rfl | ⟨sel, rfl | rfl⟩⟩ := hi
  · -- `FT.GET`
    simp only [exec, execFtGet] at h ⊢
    split at h
    · exact ⟨.arg, 0, .inr ⟨rfl, rfl⟩, fun _ => rfl⟩
    · obtain ⟨recs, hrecs, -⟩ := finish_bind h
      exact ⟨.ok, _, .inl rfl, fun l => by
        rw [show ftRecords { s with rspLog := l } = .ok recs from hrecs]; rfl⟩
  · -- `FT.RD`
    simp only [exec, execFtRd] at h ⊢
    split at h
    · exact ⟨.arg, 0, .inr ⟨rfl, rfl⟩, fun _ => rfl⟩
    · obtain ⟨r, hr, -⟩ := finish_bind h
      exact ⟨.ok, _, .inl rfl, fun l => by rw [hr]; rfl⟩
  · -- `STAT.RD`
    simp only [exec, execStatRd]
    split
    · exact ⟨.arg, 0, .inr ⟨rfl, rfl⟩, fun _ => rfl⟩
    · next r _ => exact ⟨.ok, readStatReg s r, .inl rfl, fun _ => by cases r <;> rfl⟩
  · -- `NM.RD`
    simp only [exec, execNmRd] at h ⊢
    split at h
    · obtain ⟨n, hn, -⟩ := finish_bind h
      exact ⟨.ok, _, .inl rfl, fun l => by rw [hn]; rfl⟩
    · exact ⟨.arg, 0, .inr ⟨rfl, rfl⟩, fun _ => rfl⟩
  · -- `CT.RD`
    simp only [exec, execCtRd]
    split
    · split
      · exact ⟨.ok, 0, .inl rfl, fun _ => rfl⟩
      · exact ⟨.ok, _, .inl rfl, fun _ => rfl⟩
    · exact ⟨.arg, 0, .inr ⟨rfl, rfl⟩, fun _ => rfl⟩

/-- Settles O46: a successful read changes only the response log, on which its answer does not depend. -/
theorem readsChangeNothing : Obligations.ReadsChangeNothing := by
  intro i s t hi h
  obtain ⟨st, p, hp, hread⟩ := exec_read hi h
  obtain rfl : t = respond st p s := by injection h.symm.trans (hread s.rspLog)
  refine ⟨responseWord st p, rfl, ?_⟩
  rw [statusOf_responseWord]
  obtain rfl | ⟨rfl, rfl⟩ := hp
  · exact .inl ⟨rfl, rfl, hread _⟩
  · exact .inr ⟨rfl, rfl⟩

end Sys2Proof.Machine
end

section
/-! The encoder's and the decoder's commands share no mutable state (20_memory.md R73): each reads and writes its own
registers and streams only, wherever the other side and the answers stand, and so the two commute. -/

namespace Sys2Proof.Machine

/-! ### The two sides of the block -/

/-- `s` with the registers and streams that the encoder commands write taken from `e`. -/
def State.withEncoder (s e : State) : State :=
  { s with encState := e.encState, encDry := e.encDry, encBitcnt := e.encBitcnt, pkN := e.pkN, pkAcc := e.pkAcc,
           encOut := e.encOut, tapLog := e.tapLog }

/-- `s` with the registers and the stream that the decoder commands write taken from `d`. -/
def State.withDecoder (s d : State) : State :=
  { s with decState := d.decState, decCur := d.decCur, decCnt := d.decCnt, decBitcnt := d.decBitcnt,
           decOut := d.decOut }

/-- `s` with what the answers write, the response log and the error flags, taken from `a`. -/
def State.withAnswers (s a : State) : State := { s with rspLog := a.rspLog, err := a.err }

/-- `s` with all that an encoder command does not depend on taken from `o`: the decoder and the answers. -/
def State.aroundEncoder (s o : State) : State := (s.withDecoder o).withAnswers o

/-- `s` with all that a decoder command does not depend on taken from `o`: the encoder and the answers. -/
def State.aroundDecoder (s o : State) : State := (s.withEncoder o).withAnswers o

/-- The command `f` answers `s` from the encoder's side alone: whatever decoder and answers `s` is given, the response
and the new encoder are the same, and nothing else changes. -/
def EncoderLocal (f : State → Host.Outcome State Fault Refusal) (s : State) : Prop :=
  ∃ st p e, ∀ o, f (s.aroundEncoder o) = .next (respond st p ((s.aroundEncoder o).withEncoder e))

/-- The command `f` answers `s` from the decoder's side alone. -/
def DecoderLocal (f : State → Host.Outcome State Fault Refusal) (s : State) : Prop :=
  ∃ st p d, ∀ o, f (s.aroundDecoder o) = .next (respond st p ((s.aroundDecoder o).withDecoder d))

@[simp] theorem State.aroundEncoder_self (s : State) : s.aroundEncoder s = s := rfl

@[simp] theorem State.aroundDecoder_self (s : State) : s.aroundDecoder s = s := rfl

/-- To an encoder command, what a decoder command did is all surroundings. -/
theorem State.aroundEncoder_respond_withDecoder (st : Status) (p : Payload) (s d : State) :
    s.aroundEncoder (respond st p (s.withDecoder d)) = respond st p (s.withDecoder d) := rfl

/-- To a decoder command, what an encoder command did is all surroundings: with them put back, the state is as before. -/
theorem State.respond_withEncoder_aroundDecoder (st : Status) (p : Payload) (s e : State) :
    (respond st p (s.withEncoder e)).aroundDecoder s = s := rfl

@[simp] theorem State.withEncoder_encBitcnt (s e : State) : (s.withEncoder e).encBitcnt = e.encBitcnt := rfl

/-! ### The encoder commands -/

theorem packBit_aroundEncoder (b : Bool) (s o : State) :
    packBit b (s.aroundEncoder o) = (packBit b s).aroundEncoder o := by
  by_cases h : s.pkN = 7
  · rw [show packBit b s = _ from if_pos h]
    exact if_pos h
  · rw [show packBit b s = _ from if_neg h]
    exact if_neg h

theorem emitBit_aroundEncoder (b : Bool) (s o : State) :
    emitBit b (s.aroundEncoder o) = (emitBit b s).aroundEncoder o := by
  by_cases h : s.encDry = true
  · rw [show emitBit b s = _ from if_pos h]
    exact if_pos h
  · rw [show emitBit b s = _ from if_neg h, ← packBit_aroundEncoder]
    exact if_neg h

theorem emitBits_aroundEncoder (bits : List Bool) (s o : State) :
    emitBits bits (s.aroundEncoder o) = (emitBits bits s).aroundEncoder o := by
  induction bits generalizing s with
  | nil => rfl
  | cons b bits ih => exact (congrArg (emitBits bits) (emitBit_aroundEncoder b s o)).trans (ih (emitBit b s))

theorem flush_aroundEncoder (s o : State) : flush (s.aroundEncoder o) = (flush s).aroundEncoder o := by
  by_cases h : s.encDry = false ∧ s.pkN ≠ 0
  · rw [show flush s = _ from if_pos h]
    exact if_pos h
  · rw [show flush s = _ from if_neg h]
    exact if_neg h

theorem emitBits_local (c : Code) (s o : State) :
    emitBits c (s.aroundEncoder o) = (s.aroundEncoder o).withEncoder (emitBits c s) := by
  obtain ⟨bc, n, acc, out, e⟩ := emitBits_frame c s
  rw [emitBits_aroundEncoder, e]
  rfl

theorem closeEncode_local (c : Code) (s o : State) :
    closeEncode c (s.aroundEncoder o) = (s.aroundEncoder o).withEncoder (closeEncode c s) := by
  obtain ⟨bc, n, acc, out, e⟩ := closeEncode_frame c s
  have hc : closeEncode c (s.aroundEncoder o) = (closeEncode c s).aroundEncoder o := by
    unfold closeEncode
    rw [emitBits_aroundEncoder, flush_aroundEncoder]
    rfl
  rw [hc, e]
  rfl

theorem execEncStart_local (sel : Nat) (s : State) : EncoderLocal (execEncStart sel) s := by
  unfold EncoderLocal execEncStart
  cases encModeOf sel with
  | none => exact ⟨.arg, 0, s, fun _ => rfl⟩
  | some mode =>
    by_cases hv : (!s.codesValid) = true
    · exact ⟨.state, 0, s, fun _ => if_pos hv⟩
    · exact ⟨.ok, 0, { s with encDry := decide (mode = .dry), encBitcnt := 0, pkAcc := 0, pkN := 0, encState := .run },
        fun _ => if_neg hv⟩

theorem execEncPut_local (d : Nat) (s : State) : EncoderLocal (execEncPut d) s := by
  unfold EncoderLocal execEncPut
  cases byteOf d with
  | none => exact ⟨.arg, 0, s, fun _ => rfl⟩
  | some v =>
    by_cases hr : s.encState ≠ .run
    · exact ⟨.state, 0, s, fun _ => if_pos hr⟩
    · cases hc : s.ct.read v.toNat with
      | none =>
        exact ⟨.nocode, 0, { s with encState := .fail }, fun o => (if_neg hr).trans (by
          rw [show (s.aroundEncoder o).ct.read v.toNat = none from hc]; rfl)⟩
      | some c =>
        exact ⟨.ok, field 0 (BitVec.ofNat 9 c.length), emitBits c s, fun o => (if_neg hr).trans (by
          rw [show (s.aroundEncoder o).ct.read v.toNat = some c from hc]
          simp only [emitBits_local])⟩

theorem execEncFin_local (s : State) : EncoderLocal execEncFin s := by
  unfold EncoderLocal execEncFin
  by_cases hr : s.encState ≠ .run
  · exact ⟨.state, 0, s, fun _ => if_pos hr⟩
  · cases hc : s.ct.read Config.symEos.toNat with
    | none =>
      exact ⟨.nocode, 0, { s with encState := .fail }, fun o => (if_neg hr).trans (by
        rw [show (s.aroundEncoder o).ct.read Config.symEos.toNat = none from hc]; rfl)⟩
    | some c =>
      exact ⟨.ok, field 0 (closeEncode c s).encBitcnt, closeEncode c s, fun o => (if_neg hr).trans (by
        rw [show (s.aroundEncoder o).ct.read Config.symEos.toNat = some c from hc]
        simp only [closeEncode_local, State.withEncoder_encBitcnt])⟩

/-- 20_memory.md R73 for the encoder. -/
theorem exec_encoderLocal {i : Instr} (hi : i = .encFin ∨ ∃ d, i = .encPut d ∨ i = .encStart d) (s : State) :
    EncoderLocal (exec i) s := by
  obtain rfl | ⟨d, rfl | rfl⟩ := hi
  · exact execEncFin_local s
  · exact execEncPut_local d s
  · exact execEncStart_local d s

/-! ### The decoder commands -/

theorem decStep_aroundDecoder {b : Bool} {s u : State} {ev : DecEvent} (h : decStep b s = .ok (u, ev)) (o : State) :
    decStep b (s.aroundDecoder o) = .ok (u.aroundDecoder o, ev) := by
  obtain ⟨t, n, ht, hn, rfl, rfl⟩ := decStep_ok h
  have hl : landed t n (s.aroundDecoder o) = (landed t n s).aroundDecoder o := by
    unfold landed
    split
    · split <;> rfl
    · rfl
  rw [← hl]
  exact decStep_of_target ht hn

theorem feedBits_aroundDecoder {bits : List Bool} {c c' : Fed} {s u : State} (h : feedBits bits c s = .ok (u, c'))
    (o : State) : feedBits bits c (s.aroundDecoder o) = .ok (u.aroundDecoder o, c') := by
  induction bits generalizing c s with
  | nil => cases h; rfl
  | cons b bits ih =>
    by_cases hr : s.decState = .run
    · rw [feedBits, if_pos hr] at h
      rw [feedBits, if_pos (show (s.aroundDecoder o).decState = .run from hr)]
      cases hd : decStep b s with
      | error f => rw [hd] at h; cases h
      | ok x =>
        obtain ⟨m, ev⟩ := x
        rw [hd] at h
        rw [decStep_aroundDecoder hd]
        exact ih h
    · rw [feedBits, if_neg hr] at h
      rw [feedBits, if_neg (show (s.aroundDecoder o).decState ≠ .run from hr)]
      exact ih h

theorem execDecStart_local (s : State) : DecoderLocal execDecStart s := by
  unfold DecoderLocal execDecStart
  by_cases hv : (!s.treeValid) = true
  · exact ⟨.state, 0, s, fun _ => if_pos hv⟩
  · exact ⟨.ok, 0, { s with decCur := s.root, decCnt := 0, decBitcnt := 0, decState := .run }, fun _ => if_neg hv⟩

theorem execDecEof_local (s : State) : DecoderLocal execDecEof s := by
  unfold DecoderLocal execDecEof
  cases hd : s.decState with
  | run => exact ⟨.trunc, 0, { s with decState := .fail }, fun o => by
      rw [show (s.aroundDecoder o).decState = .run from hd]; rfl⟩
  | done => exact ⟨.ok, 0, s, fun o => by rw [show (s.aroundDecoder o).decState = .done from hd]; rfl⟩
  | idle => exact ⟨.state, 0, s, fun o => by rw [show (s.aroundDecoder o).decState = .idle from hd]; rfl⟩
  | fail => exact ⟨.state, 0, s, fun o => by rw [show (s.aroundDecoder o).decState = .fail from hd]; rfl⟩

theorem execDecBit_local {d : Nat} {s t : State} (h : execDecBit d s = .next t) : DecoderLocal (execDecBit d) s := by
  unfold DecoderLocal
  unfold execDecBit at h ⊢
  cases hb : bitOf d with
  | none => exact ⟨.arg, 0, s, fun _ => rfl⟩
  | some b =>
    by_cases hr : s.decState ≠ .run
    · exact ⟨.state, 0, s, fun _ => if_pos hr⟩
    · simp only [hb, if_neg hr] at h
      obtain ⟨⟨u, ev⟩, hd, -⟩ := finish_bind h
      obtain ⟨t', n, -, -, hu, -⟩ := decStep_ok hd
      obtain ⟨cur, cnt, st, out, e, -⟩ := landed_frame t' n s
      refine ⟨.ok, bitPayload ev, u, fun o => (if_neg hr).trans ?_⟩
      rw [decStep_aroundDecoder hd, hu, e]
      rfl

theorem execDecByte_local {d : Nat} {s t : State} (h : execDecByte d s = .next t) :
    DecoderLocal (execDecByte d) s := by
  unfold DecoderLocal
  unfold execDecByte at h ⊢
  cases hb : byteOf d with
  | none => exact ⟨.arg, 0, s, fun _ => rfl⟩
  | some v =>
    by_cases hr : s.decState ≠ .run
    · exact ⟨.state, 0, s, fun _ => if_pos hr⟩
    · simp only [hb, if_neg hr] at h
      obtain ⟨⟨u, c⟩, hd, -⟩ := finish_bind h
      obtain ⟨bc, cur, cnt, st, out, e, -⟩ := feedBits_frame _ _ _ _ _ hd
      refine ⟨.ok, field 0 (BitVec.ofNat 4 c.used) ||| field 4 (BitVec.ofNat 4 c.lits) |||
        field 8 (BitVec.ofBool (decide (u.decState = .done))), u, fun o => (if_neg hr).trans ?_⟩
      rw [feedBits_aroundDecoder hd, e]
      rfl

/-- 20_memory.md R73 for the decoder, where it answers (a read of unspecified storage stops the model). -/
theorem exec_decoderLocal {j : Instr} {s t : State}
    (hj : j = .decStart ∨ j = .decEof ∨ ∃ d, j = .decBit d ∨ j = .decByte d) (h : exec j s = .next t) :
    DecoderLocal (exec j) s := by
  obtain rfl | rfl | ⟨d, rfl | rfl⟩ := hj
  · exact execDecStart_local s
  · exact execDecEof_local s
  · exact execDecBit_local h
  · exact execDecByte_local h

/-! ### The two commands in either order -/

/-- The error flags do not tell in which order they were set. -/
theorem noteErr_comm (st st' : Status) (err : BitVec 8) :
    noteErr st (noteErr st' err) = noteErr st' (noteErr st err) := by
  refine BitVec.eq_of_getLsbD_eq fun k _ => ?_
  simp only [getLsbD_noteErr]
  exact Bool.or_right_comm _ _ _

/-- An answer with a new encoder and an answer with a new decoder, given in either order, differ only in the order of
their responses. -/
theorem respond_withEncoder_respond_withDecoder (st st' : Status) (p p' : Payload) (s e d : State) :
    respond st p ((respond st' p' (s.withDecoder d)).withEncoder e) =
      { respond st' p' ((respond st p (s.withEncoder e)).withDecoder d) with
        rspLog := s.rspLog ++ [responseWord st' p', responseWord st p] } := by
  simp only [respond, State.withDecoder, State.withEncoder, noteErr_comm st st', List.append_assoc,
    List.singleton_append]

/-- Settles O49: each command answers the other's outcome as it would have answered the state before it, and the two
answers write different fields, but for `err`, whose bits are only ever added. -/
theorem encoderAndDecoderCommandsCommute : Obligations.EncoderAndDecoderCommandsCommute := by
  intro i j s t u hi hj ht hu
  obtain ⟨st, p, e, henc⟩ := exec_encoderLocal hi s
  have hencS := henc s
  rw [State.aroundEncoder_self, ht] at hencS
  cases hencS
  obtain ⟨st', p', d, hdec⟩ := exec_decoderLocal hj hu
  have hdecT := hdec (respond st p (s.withEncoder e))
  rw [State.aroundDecoder_self, hu] at hdecT
  cases hdecT
  have hdecS := hdec s
  rw [State.respond_withEncoder_aroundDecoder] at hdecS
  have hencD := henc (respond st' p' (s.withDecoder d))
  rw [State.aroundEncoder_respond_withDecoder, respond_withEncoder_respond_withDecoder] at hencD
  exact ⟨respond st' p' (s.withDecoder d), responseWord st p, responseWord st' p',
    by simp [State.withDecoder, State.withEncoder], hdecS, hencD⟩

end Sys2Proof.Machine
end

section
/-! The opcode map (30_encoding.md R92, R96) read in both directions: the fields of a row's command are those it was
made of, but for the unused ones, and the masked comparison is a comparison of the word's fields with the row's. -/

namespace Sys2Proof

/-- Every field value fits the width of its field (30_encoding.md R91). -/
def Fields.Fit (f : Fields) : Prop := f.op < 2 ^ 8 ∧ f.sel < 2 ^ 8 ∧ f.a < 2 ^ 16 ∧ f.d < 2 ^ 32

/-- Well-formed is fitting the fields: the opcode always does. -/
theorem wellFormed_iff_fields_fit (i : Instr) : i.wellFormed = true ↔ i.fields.Fit := by
  cases i <;> simp [Instr.wellFormed, Instr.fields, Fields.Fit]

/-- Fields that fit are determined by their word. -/
theorem wordOf_inj {f g : Fields} (hf : f.Fit) (hg : g.Fit) : wordOf f = wordOf g ↔ f = g := by
  refine ⟨fun h => ?_, congrArg wordOf⟩
  obtain ⟨hfo, hfs, hfa, hfd⟩ := hf
  obtain ⟨hgo, hgs, hga, hgd⟩ := hg
  rw [← fieldsOf_wordOf f hfo hfs hfa hfd, h, fieldsOf_wordOf g hgo hgs hga hgd]

theorem mbzOk_eq_false_iff (fmt : Format) (f : Fields) : fmt.mbzOk f = false ↔
    (fmt.usesSel = false ∧ f.sel ≠ 0) ∨ (fmt.usesA = false ∧ f.a ≠ 0) ∨ (fmt.usesD = false ∧ f.d ≠ 0) := by
  simp only [Format.mbzOk, Bool.and_eq_false_iff, Bool.or_eq_false_iff, beq_eq_false_iff_ne, or_assoc]

/-! ### Encoding, then decoding -/

/-- Every command encodes its row (30_encoding.md R96). -/
theorem encodesItsRow : ∀ i : Instr, Laws.EncodesItsRow.Statement i
  | .nop => Laws.EncodesItsRow.nop
  | .srst => Laws.EncodesItsRow.srst
  | .statRd sel => Laws.EncodesItsRow.statRd sel
  | .ftClr => Laws.EncodesItsRow.ftClr
  | .ftPut a d => Laws.EncodesItsRow.ftPut a d
  | .ftGet a => Laws.EncodesItsRow.ftGet a
  | .ftRd a => Laws.EncodesItsRow.ftRd a
  | .tbBuild => Laws.EncodesItsRow.tbBuild
  | .treeFree => Laws.EncodesItsRow.treeFree
  | .nmRd sel a => Laws.EncodesItsRow.nmRd sel a
  | .ctGen => Laws.EncodesItsRow.ctGen
  | .ctRd sel a => Laws.EncodesItsRow.ctRd sel a
  | .encStart sel => Laws.EncodesItsRow.encStart sel
  | .encPut d => Laws.EncodesItsRow.encPut d
  | .encFin => Laws.EncodesItsRow.encFin
  | .decStart => Laws.EncodesItsRow.decStart
  | .decBit d => Laws.EncodesItsRow.decBit d
  | .decByte d => Laws.EncodesItsRow.decByte d
  | .decEof => Laws.EncodesItsRow.decEof

/-- Settles O1: the fields of a well-formed command survive its word, and they select the row that makes the command. -/
theorem decodeOfEncodeIsTheCommand : Obligations.DecodeOfEncodeIsTheCommand := by
  intro i hwf
  obtain ⟨⟨ho, hs, ha, hd⟩, r, hr, hop, hmbz, hbuild⟩ := encodesItsRow i hwf
  have hfields : fieldsOf (encode i) = i.fields := fieldsOf_wordOf i.fields ho hs ha hd
  rw [← hfields] at hop hmbz hbuild
  rw [decode_of_row hr hop hmbz, hbuild]

/-! ### Decoding, then encoding -/

/-- A row's command keeps the fields the row's format uses, under the row's opcode. -/
theorem fields_build {r : Row} (hr : r ∈ rows) (f : Fields) : (r.build f).fields =
    { op := r.opcode
      sel := if r.format.usesSel then f.sel else 0
      a := if r.format.usesA then f.a else 0
      d := if r.format.usesD then f.d else 0 } := by
  simp only [rows, rowsLow, rowsHigh] at hr
  fin_cases hr <;> rfl

/-- With the unused fields zero, a row's command keeps all its fields. -/
theorem fields_build_of_mbzOk {r : Row} {f : Fields} (hr : r ∈ rows) (hop : r.opcode = f.op)
    (hmbz : r.format.mbzOk f = true) : (r.build f).fields = f := by
  obtain ⟨op, sel, a, d⟩ := f
  simp only [Format.mbzOk, Bool.and_eq_true, Bool.or_eq_true, beq_iff_eq] at hmbz
  obtain ⟨⟨hs, ha⟩, hd⟩ := hmbz
  rw [fields_build hr, hop]
  simp only [Fields.mk.injEq, true_and, ite_eq_left_iff]
  exact ⟨fun h => (hs.resolve_left h).symm, fun h => (ha.resolve_left h).symm, fun h => (hd.resolve_left h).symm⟩

/-- Settles O2: the command's fields are the word's, so they fit and give the word back. -/
theorem decodedWordIsTheEncoding : Obligations.DecodedWordIsTheEncoding := by
  intro w i h
  obtain ⟨r, hr, hop, hmbz, rfl⟩ := decode_instr h
  have hfields : (r.build (fieldsOf w)).fields = fieldsOf w := fields_build_of_mbzOk hr hop hmbz
  constructor
  · rw [wellFormed_iff_fields_fit, hfields]
    exact fieldsOf_fit w
  · rw [encode, hfields, wordOf_fieldsOf]

/-! ### Mask and match -/

/-- The fields of which the mask keeps every bit: the opcode, and those that must be zero (30_encoding.md R92). -/
def Format.maskedFields (fmt : Format) (f : Fields) : Fields :=
  { op := f.op
    sel := if fmt.usesSel then 0 else f.sel
    a := if fmt.usesA then 0 else f.a
    d := if fmt.usesD then 0 else f.d }

theorem maskedFields_fit (fmt : Format) {f : Fields} (h : f.Fit) : (fmt.maskedFields f).Fit := by
  obtain ⟨ho, hs, ha, hd⟩ := h
  refine ⟨ho, ?_, ?_, ?_⟩ <;> simp only [Format.maskedFields] <;> split <;> omega

/-- The table of 30_encoding.md R92, field by field: all ones over the fields that must match, zeros over the others. -/
theorem mask_eq_append (fmt : Format) : fmt.mask =
    BitVec.allOnes 8 ++ (if fmt.usesSel then 0 else BitVec.allOnes 8) ++
      (if fmt.usesA then 0 else BitVec.allOnes 16) ++ (if fmt.usesD then 0 else BitVec.allOnes 32) := by
  cases fmt <;> decide

theorem ofNat_and_mask (n v : Nat) (used : Bool) :
    BitVec.ofNat n v &&& (if used then 0 else BitVec.allOnes n) = BitVec.ofNat n (if used then 0 else v) := by
  cases used <;> simp

/-- Masking a word clears the fields its format uses. -/
theorem and_mask (w : Word) (fmt : Format) : w &&& fmt.mask = wordOf (fmt.maskedFields (fieldsOf w)) := by
  conv_lhs => rw [← wordOf_fieldsOf w, mask_eq_append]
  refine BitVec.and_append.trans ?_
  simp only [BitVec.and_append, BitVec.and_allOnes, ofNat_and_mask]
  rfl

/-- The match word of 30_encoding.md R92 is the word of the opcode alone. -/
theorem matchWord_eq_wordOf (op : Nat) :
    BitVec.ofNat 64 (op * 2 ^ 56) = wordOf { op := op, sel := 0, a := 0, d := 0 } := by
  apply BitVec.eq_of_toNat_eq
  rw [toNat_wordOf, BitVec.toNat_ofNat]
  simp only
  omega

theorem maskedFields_eq_iff (fmt : Format) (f : Fields) (op : Nat) :
    fmt.maskedFields f = { op := op, sel := 0, a := 0, d := 0 } ↔ op = f.op ∧ fmt.mbzOk f = true := by
  simp only [Format.maskedFields, Format.mbzOk, Fields.mk.injEq, ite_eq_left_iff, Bool.and_eq_true, Bool.or_eq_true,
    beq_iff_eq, or_iff_not_imp_left, and_assoc, @eq_comm _ op]

theorem opcode_lt {r : Row} (hr : r ∈ rows) : r.opcode < 2 ^ 8 := by
  have h : ∀ r ∈ rows, r.opcode < 2 ^ 8 := by decide
  exact h r hr

/-- `(word AND mask) = match` says that the word has the row's opcode and zeros in the unused fields. -/
theorem and_mask_eq_match_iff (w : Word) {r : Row} (hr : r ∈ rows) :
    w &&& r.format.mask = BitVec.ofNat 64 (r.opcode * 2 ^ 56) ↔
      r.opcode = (fieldsOf w).op ∧ r.format.mbzOk (fieldsOf w) = true := by
  have hfit : Fields.Fit { op := r.opcode, sel := 0, a := 0, d := 0 } :=
    ⟨opcode_lt hr, Nat.two_pow_pos 8, Nat.two_pow_pos 16, Nat.two_pow_pos 32⟩
  rw [and_mask, matchWord_eq_wordOf, wordOf_inj (maskedFields_fit _ (fieldsOf_fit w)) hfit, maskedFields_eq_iff]

/-- Rows of the map with the same opcode are one row. -/
theorem row_eq_of_opcode_eq {r q : Row} (hr : r ∈ rows) (hq : q ∈ rows) (h : r.opcode = q.opcode) : r = q :=
  List.inj_on_of_nodup_map opcodes_nodup hr hq h

/-- A word is a row's command exactly when it has the row's opcode and zeros in the unused fields: no other row makes
that command, since a command has its row's opcode. -/
theorem decode_eq_build_iff (w : Word) {r : Row} (hr : r ∈ rows) :
    decode w = .instr (r.build (fieldsOf w)) ↔
      r.opcode = (fieldsOf w).op ∧ r.format.mbzOk (fieldsOf w) = true := by
  refine ⟨fun h => ?_, fun ⟨hop, hmbz⟩ => decode_of_row hr hop hmbz⟩
  obtain ⟨q, hq, hop, hmbz, hbuild⟩ := decode_instr h
  have hopcode : r.opcode = q.opcode := by
    have hfields := congrArg (fun i => i.fields.op) hbuild
    simpa only [fields_build hr, fields_build hq] using hfields
  obtain rfl := row_eq_of_opcode_eq hr hq hopcode
  exact ⟨hop, hmbz⟩

/-- A word is illegal when whatever row has its opcode leaves one of its non-zero fields unused (30_encoding.md R97). -/
theorem exists_decode_illegal {w : Word}
    (h : ∀ r ∈ rows, r.opcode = (fieldsOf w).op → r.format.mbzOk (fieldsOf w) = false) :
    ∃ why, decode w = .illegal why := by
  cases hdec : decode w with
  | illegal why => exact ⟨why, rfl⟩
  | instr i =>
    obtain ⟨r, hr, hop, hmbz, -⟩ := decode_instr hdec
    rw [h r hr hop] at hmbz
    cases hmbz

/-- Settles O3: the masked comparison and the decoder both ask for the row's opcode and zeros in the unused fields. -/
theorem decodeIsMaskAndMatch : Obligations.DecodeIsMaskAndMatch := by
  refine fun w => ⟨fun r hr => (and_mask_eq_match_iff w hr).trans (decode_eq_build_iff w hr).symm, fun hno => ?_⟩
  refine exists_decode_illegal fun r hr hop => Bool.eq_false_of_not_eq_true fun hmbz => hno r hr ?_
  exact (and_mask_eq_match_iff w hr).2 ⟨hop, hmbz⟩

/-- Settles O4: each word is decoded by evaluation. -/
theorem wordsOfTheSpecDecode : Obligations.WordsOfTheSpecDecode := by
  unfold Obligations.WordsOfTheSpecDecode
  decide

end Sys2Proof
end

section
/-! What a word or an operand that the encoding refuses makes of the state, and the responses of a step
(30_encoding.md R94, R95, R97). -/

namespace Sys2Proof.Machine

/-! ### Illegal words -/

theorem runWord_of_decode_illegal {w : Word} {why : Illegal} (h : decode w = .illegal why) (s : State) :
    runWord w s = .next (erred 1 s) := by
  simp only [runWord, h]
  rfl

/-- A word whose opcode no row has is illegal (30_encoding.md R97 (a)). -/
theorem decode_illegal_of_unknown_opcode {w : Word} (h : ∀ r ∈ rows, r.opcode ≠ w.toNat / 2 ^ 56) :
    ∃ why, decode w = .illegal why := by
  refine exists_decode_illegal fun r hr hop => ?_
  rw [op_fieldsOf] at hop
  exact absurd hop (h r hr)

/-- A word with a non-zero bit in a field that its row's format does not use is illegal (30_encoding.md R97 (b)). -/
theorem decode_illegal_of_mbz {w : Word} {r : Row} (hr : r ∈ rows) (hop : r.opcode = w.toNat / 2 ^ 56)
    (h : (r.format.usesSel = false ∧ w.toNat / 2 ^ 48 % 2 ^ 8 ≠ 0) ∨
      (r.format.usesA = false ∧ w.toNat / 2 ^ 32 % 2 ^ 16 ≠ 0) ∨ (r.format.usesD = false ∧ w.toNat % 2 ^ 32 ≠ 0)) :
    ∃ why, decode w = .illegal why := by
  refine exists_decode_illegal fun q hq hqop => ?_
  rw [op_fieldsOf, ← hop] at hqop
  obtain rfl := row_eq_of_opcode_eq hq hr hqop
  rw [fieldsOf_eq, mbzOk_eq_false_iff]
  exact h

/-- Settles O6: in both cases of R97 the decoder finds no command, and the word is answered `ERR_ILL`. -/
theorem illegalWordAnswersErrIll : Obligations.IllegalWordAnswersErrIll := by
  intro s w rest hinputs h
  have hill : ∃ why, decode w = .illegal why := by
    obtain h | ⟨r, hr, hop, h⟩ := h
    · exact decode_illegal_of_unknown_opcode h
    · exact decode_illegal_of_mbz hr hop h
  obtain ⟨why, hdec⟩ := hill
  rw [step_of_inputs_cons hinputs, runEvent_command, runWord_of_decode_illegal hdec]
  rfl

/-! ### One response to each word -/

theorem exec_rspLog {i : Instr} {s t : State} (h : exec i s = .next t) : ∃ r, t.rspLog = s.rspLog ++ [r] := by
  rcases exec_cases h with ⟨st, -, rfl, -⟩ | ⟨p, u, rfl, hu⟩
  · exact ⟨responseWord st 0, rfl⟩
  · exact ⟨responseWord .ok p, by rw [respond_rspLog, effect_rspLog hu]⟩

theorem runWord_rspLog {w : Word} {s t : State} (h : runWord w s = .next t) : ∃ r, t.rspLog = s.rspLog ++ [r] := by
  cases hdec : decode w with
  | instr i =>
    rw [runWord_of_decode_instr hdec] at h
    exact exec_rspLog h
  | illegal why =>
    rw [runWord_of_decode_illegal hdec] at h
    cases h
    exact ⟨_, rfl⟩

/-- A reset during a command happens only where the command answers, and is a reset of what it made. -/
theorem runEvent_resetDuring {w : Word} {nEnc nDec nTap : Nat} {s t : State}
    (h : runEvent (.resetDuring w nEnc nDec nTap) s = .next t) :
    ∃ u, runWord w s = .next u ∧ t = resetMidCommand s u nEnc nDec nTap := by
  simp only [runEvent] at h
  split at h <;> cases h
  next u hu => exact ⟨u, hu, rfl⟩

/-- Settles O43: a word is answered once, and either kind of reset keeps the response log. -/
theorem oneResponsePerCommand : Obligations.OneResponsePerCommand := by
  intro s t e rest hinputs h
  rw [step_of_inputs_cons hinputs] at h
  cases e with
  | command w => exact ⟨fun _ _ => runWord_rspLog (s := { s with inputs := rest }) h, fun hne => absurd rfl (hne w)⟩
  | reset =>
    cases h
    exact ⟨nofun, fun _ => rfl⟩
  | resetDuring w nEnc nDec nTap =>
    obtain ⟨u, -, rfl⟩ := runEvent_resetDuring h
    exact ⟨nofun, fun _ => rfl⟩

/-! ### Operands outside their range: what the checks let through, as numbers (30_encoding.md R95) -/

theorem statRegOf_some {sel : Nat} {r : StatReg} (h : statRegOf sel = some r) : sel ≤ 7 := by
  unfold statRegOf at h
  split at h
  case h_9 => cases h
  all_goals omega

theorem countOf_some_pos {d : Nat} {c : Count} (h : countOf d = some c) : 1 ≤ d := by
  unfold countOf at h
  split at h
  · cases h
  · next h0 => exact Nat.one_le_iff_ne_zero.2 h0

theorem nodePartOf_some {sel : Nat} {p : NodePart} (h : nodePartOf sel = some p) : sel ≤ 1 := by
  unfold nodePartOf at h
  split at h
  case h_3 => cases h
  all_goals omega

theorem codePartOf_some {sel : Nat} {p : CodePart} (h : codePartOf sel = some p) : sel ≤ 8 := by
  cases sel with
  | zero => exact Nat.zero_le 8
  | succ j =>
    simp only [codePartOf] at h
    split at h
    · next hj => exact Nat.succ_le_succ hj
    · cases h

theorem encModeOf_some {sel : Nat} {m : EncMode} (h : encModeOf sel = some m) : sel ≤ 1 := by
  unfold encModeOf at h
  split at h
  case h_3 => cases h
  all_goals omega

theorem bitOf_some {d : Nat} {b : Bool} (h : bitOf d = some b) : d ≤ 1 := by
  unfold bitOf at h
  split at h
  case h_3 => cases h
  all_goals omega

/-- The operand check comes first: a command either has legal operands or does nothing but answer `ERR_ARG`. -/
theorem legalOperands_or_exec_arg (i : Instr) (s : State) :
    legalOperands s i = true ∨ exec i s = .next (fail .arg s) := by
  cases i with
  | nop | srst | ftClr | tbBuild | treeFree | ctGen | encFin | decStart | decEof => exact .inl rfl
  | statRd sel =>
    simp only [exec, execStatRd]
    split
    · exact .inr rfl
    · next hsel => exact .inl (decide_eq_true (statRegOf_some hsel))
  | ftPut a d =>
    simp only [exec, execFtPut]
    split
    · next hsym hcount =>
      exact .inl (Bool.and_eq_true_iff.2
        ⟨decide_eq_true (symbolOf_some hsym).2, decide_eq_true (countOf_some_pos hcount)⟩)
    · exact .inr rfl
  | ftGet a =>
    simp only [exec, execFtGet]
    split
    · exact .inr rfl
    · next hsym => exact .inl (decide_eq_true (symbolOf_some hsym).2)
  | ftRd a =>
    simp only [exec, execFtRd]
    split
    · exact .inr rfl
    · next hidx => exact .inl (decide_eq_true (indexBelow_some hidx).2)
  | nmRd sel a =>
    simp only [exec, execNmRd]
    split
    · next hpart hidx =>
      exact .inl (Bool.and_eq_true_iff.2
        ⟨decide_eq_true (nodePartOf_some hpart), decide_eq_true (indexBelow_some hidx).2⟩)
    · exact .inr rfl
  | ctRd sel a =>
    simp only [exec, execCtRd]
    split
    · next hpart hsym =>
      exact .inl (Bool.and_eq_true_iff.2
        ⟨decide_eq_true (codePartOf_some hpart), decide_eq_true (symbolOf_some hsym).2⟩)
    · exact .inr rfl
  | encStart sel =>
    simp only [exec, execEncStart]
    split
    · exact .inr rfl
    · next hmode => exact .inl (decide_eq_true (encModeOf_some hmode))
  | encPut d =>
    simp only [exec, execEncPut]
    split
    · exact .inr rfl
    · next hbyte => exact .inl (decide_eq_true (byteOf_some hbyte).2)
  | decBit d =>
    simp only [exec, execDecBit]
    split
    · exact .inr rfl
    · next hbit => exact .inl (decide_eq_true (bitOf_some hbit))
  | decByte d =>
    simp only [exec, execDecByte]
    split
    · exact .inr rfl
    · next hbyte => exact .inl (decide_eq_true (byteOf_some hbyte).2)

/-- Settles O50: the operand check is made before the phase is looked at. -/
theorem badOperandIsErrArgInEveryPhase : Obligations.BadOperandIsErrArgInEveryPhase := by
  intro i s h
  obtain hlegal | harg := legalOperands_or_exec_arg i s
  · rw [h] at hlegal
    cases hlegal
  · rw [harg, fail_arg]

end Sys2Proof.Machine
end

section
/-! The frequency table commands (40_frequency_table.md): the words they answer, written out field by field, and the
answer of each of them in a state whose table keeps its invariant. -/

namespace Sys2Proof.Machine

/-! ### The response words, written out

Each is compared bit by bit: a bit of the word lies in the range of one field, or is zero. -/

theorem responseWord_ok_eq {p : Payload} {w : Word} (h : ∀ i < 64, p.getLsbD i = w.getLsbD i) :
    responseWord .ok p = w :=
  BitVec.eq_of_getLsbD_eq fun i hi => (getLsbD_responseWord_ok p i).trans (h i hi)

/-- The word of a put of a new key (40_frequency_table.md R123). -/
theorem responseWord_newKey (p : Index) : responseWord .ok (field 0 p) = 0#54 ++ p := by
  refine responseWord_ok_eq fun i hi => ?_
  simp only [getLsbD_field, BitVec.getLsbD_append, BitVec.getLsbD_zero]
  grind

/-- The word of a put of a key already present (40_frequency_table.md R123). -/
theorem responseWord_oldKey (p : Index) :
    responseWord .ok (field 0 p ||| field 16 1#1) = 0#47 ++ 1#1 ++ 0#6 ++ p := by
  refine responseWord_ok_eq fun i hi => ?_
  simp only [BitVec.getLsbD_or, getLsbD_field, BitVec.getLsbD_append, BitVec.getLsbD_zero, BitVec.getLsbD_one]
  grind

/-- The word of a get of a key that is present (40_frequency_table.md R125). -/
theorem responseWord_present (p : Index) (c : Count) :
    responseWord .ok (field 0 c ||| field 32 1#1 ||| field 33 p) = 0#21 ++ p ++ 1#1 ++ c := by
  refine responseWord_ok_eq fun i hi => ?_
  simp only [BitVec.getLsbD_or, getLsbD_field, BitVec.getLsbD_append, BitVec.getLsbD_zero, BitVec.getLsbD_one]
  grind

/-- The word of a read of a record (10_state.md R25, 40_frequency_table.md R126). -/
theorem responseWord_record (r : FtRec) :
    responseWord .ok (field 32 r.sym ||| field 0 r.count) = 0#23 ++ r.sym ++ r.count := by
  refine responseWord_ok_eq fun i hi => ?_
  simp only [BitVec.getLsbD_or, getLsbD_field, BitVec.getLsbD_append, BitVec.getLsbD_zero]
  grind

theorem statusOf_responseWord_ok (p : Payload) : statusOf (responseWord .ok p) = 0 := statusOf_responseWord .ok p

/-! ### Keys and counts -/

theorem toNat_key {a : Nat} (h : a ≤ 256) : (BitVec.ofNat 9 a).toNat = a := (symbolOf_some (symbolOf_of_le h)).1

theorem key_inj {a b : Nat} (ha : a ≤ 256) (hb : b ≤ 256) (h : BitVec.ofNat 9 a = BitVec.ofNat 9 b) : a = b := by
  rw [← toNat_key ha, h, toNat_key hb]

theorem countOf_of_pos {d : Nat} (h : 1 ≤ d) : countOf d = some (BitVec.ofNat 32 d) :=
  if_neg (Nat.one_le_iff_ne_zero.1 h)

theorem count_ne_zero {d : Nat} (h1 : 1 ≤ d) (h2 : d < 2 ^ 32) : BitVec.ofNat 32 d ≠ 0 :=
  countOf_some h2 (countOf_of_pos h1)

/-! ### The records of a table that keeps its invariant, by position -/

/-- What holds of every record a read of the table can give, holds of every valid record. -/
theorem State.FtOk.forall_recs {s : State} (h : s.FtOk) {P : FtRec → Prop} :
    (∀ r ∈ s.recs, P r) ↔ ∀ q r, s.ft.read q = some r → P r := by
  simp only [h.read, List.mem_iff_getElem?, forall_exists_index]
  exact forall_comm

/-- The positions are below 257, so they fit the payload's 10 bits. -/
theorem State.FtOk.position_le {s : State} (h : s.FtOk) {p : Nat} {r : FtRec} (hr : s.ft.read p = some r) :
    p ≤ 256 := by
  obtain ⟨hidx, -, -, -, hlen⟩ := h
  have hp := Memory.lt_of_read_of_range hidx hr
  omega

/-! ### `FT.CLR` -/

theorem exec_ftClr_of_noTree {s : State} (hv : s.treeValid = false) :
    exec .ftClr s = .next (answered 0 { s with ft := [], ftLen := 0 }) := by
  simp only [exec, execFtClr, hv, Bool.false_eq_true, if_false, respond_ok_zero]

theorem exec_ftClr_of_tree {s : State} (hv : s.treeValid = true) : exec .ftClr s = .next (erred 3 s) := by
  simp only [exec, execFtClr, hv, if_true, fail_state]

/-- Settles O14: the two branches of the command. -/
theorem ftClrEmptiesTheTable : Obligations.FtClrEmptiesTheTable :=
  fun _ => ⟨exec_ftClr_of_noTree, exec_ftClr_of_tree⟩

/-! ### `FT.GET` -/

theorem ftGetPayload_absent {recs : List FtRec} {x : Sym} (h : ∀ r ∈ recs, r.sym ≠ x) : ftGetPayload recs x = 0 := by
  simp only [ftGetPayload, ftFind_none.2 h]

theorem ftGetPayload_present {recs : List FtRec} (hk : (recs.map FtRec.sym).Nodup) {p : Nat} {r : FtRec}
    (hr : recs[p]? = some r) :
    ftGetPayload recs r.sym = field 0 r.count ||| field 32 1#1 ||| field 33 (BitVec.ofNat 10 p) := by
  simp only [ftGetPayload, ftFind_eq hk hr, hr]

/-- `FT.GET` of a legal key answers `OK` by what the valid records say of the key. -/
theorem exec_ftGet {s : State} (h : s.FtOk) {a : Nat} (ha : a ≤ 256) :
    exec (.ftGet a) s = .next (answered (responseWord .ok (ftGetPayload s.recs (BitVec.ofNat 9 a))) s) := by
  simp only [exec, execFtGet, symbolOf_of_le ha, h.ftRecords]
  rfl

theorem exec_ftGet_present {s : State} (h : s.FtOk) {a p : Nat} {r : FtRec} (ha : a ≤ 256)
    (hr : s.ft.read p = some r) (hsym : r.sym = BitVec.ofNat 9 a) :
    exec (.ftGet a) s = .next (answered (0#21 ++ BitVec.ofNat 10 p ++ 1#1 ++ r.count) s) := by
  rw [exec_ftGet h ha, ← hsym, ftGetPayload_present h.keys_nodup (h.read p ▸ hr), responseWord_present]

theorem exec_ftGet_absent {s : State} (h : s.FtOk) {a : Nat} (ha : a ≤ 256)
    (hno : ∀ p r, s.ft.read p = some r → r.sym ≠ BitVec.ofNat 9 a) : exec (.ftGet a) s = .next (answered 0 s) := by
  rw [exec_ftGet h ha, ftGetPayload_absent (h.forall_recs.2 hno), responseWord_ok_zero]

/-- Settles O16: a legal key is present or absent, and an illegal one is refused before the table is read. -/
theorem ftGetAnswersTheCount : Obligations.FtGetAnswersTheCount := by
  intro s a ⟨hft, _⟩
  refine ⟨fun ha p r => exec_ftGet_present hft ha, exec_ftGet_absent hft, fun ha => ?_⟩
  exact badOperandIsErrArgInEveryPhase _ s (decide_eq_false (Nat.not_le.2 ha))

/-! ### `FT.RD` -/

theorem indexBelow_of_lt {a : Nat} {bound : Index} (h : a < bound.toNat) : indexBelow a bound = some a := if_pos h

/-- At each valid position there is a record, and `FT.RD` answers it. -/
theorem exec_ftRd {s : State} (h : s.FtOk) {a : Nat} (ha : a < s.ftLen.toNat) :
    ∃ r, s.ft.read a = some r ∧
      exec (.ftRd a) s = .next (answered (responseWord .ok (field 32 r.sym ||| field 0 r.count)) s) := by
  obtain ⟨hidx, -⟩ := h
  obtain ⟨r, hr⟩ := Memory.exists_read_of_range hidx ha
  refine ⟨r, hr, ?_⟩
  simp only [exec, execFtRd, indexBelow_of_lt ha, Memory.fetch_of_read hr]
  rfl

/-- Settles O17: the 41 bits of a record are its symbol over its count. -/
theorem ftRdAnswersTheEntry : Obligations.FtRdAnswersTheEntry := by
  intro s a ⟨hft, _⟩
  constructor
  · intro ha
    obtain ⟨r, hr, hexec⟩ := exec_ftRd hft ha
    exact ⟨r, hr, by rw [hexec, responseWord_record]⟩
  · intro ha
    exact badOperandIsErrArgInEveryPhase _ s (decide_eq_false (Nat.not_lt.2 ha))

/-! ### `FT.PUT` -/

theorem exec_ftPut_of_noTree {s : State} {a d : Nat} (ha : a ≤ 256) (hd : 1 ≤ d) (hv : s.treeValid = false) :
    exec (.ftPut a d) s = finish (ftPut (BitVec.ofNat 9 a) (BitVec.ofNat 32 d) s) := by
  simp only [exec, execFtPut, symbolOf_of_le ha, countOf_of_pos hd, hv, Bool.false_eq_true, if_false]

theorem exec_ftPut_of_tree {s : State} {a d : Nat} (ha : a ≤ 256) (hd : 1 ≤ d) (hv : s.treeValid = true) :
    exec (.ftPut a d) s = .next (erred 3 s) := by
  simp only [exec, execFtPut, symbolOf_of_le ha, countOf_of_pos hd, hv, if_true, fail_state]

/-- `s` with the record of the key `a` and the count `d` written at position `p` of a table of length `len`. -/
def State.withEntry (s : State) (p : Nat) (len : Index) (a d : Nat) : State :=
  { s with ft := s.ft.write p { sym := BitVec.ofNat 9 a, count := BitVec.ofNat 32 d }, ftLen := len }

theorem State.read_withEntry (s : State) (p : Nat) (len : Index) (a d q : Nat) :
    (s.withEntry p len a d).ft.read q =
      if q = p then some { sym := BitVec.ofNat 9 a, count := BitVec.ofNat 32 d } else s.ft.read q :=
  Memory.read_write s.ft p q _

section
variable {s : State} {a d : Nat} (h : s.FtOk) (ha : a ≤ 256) (hd : 1 ≤ d) (hd' : d < 2 ^ 32)
  (hv : s.treeValid = false)
include h ha hd hd' hv

/-- A put of a new key writes its record after the last one. -/
theorem exec_ftPut_new (hno : ∀ q r, s.ft.read q = some r → r.sym ≠ BitVec.ofNat 9 a) :
    exec (.ftPut a d) s = .next (answered (0#54 ++ s.ftLen) (s.withEntry s.ftLen.toNat (s.ftLen + 1) a d)) ∧
      (s.withEntry s.ftLen.toNat (s.ftLen + 1) a d).FtOk := by
  have hkey : (BitVec.ofNat 9 a).toNat ≤ 256 := (toNat_key ha).trans_le ha
  obtain ⟨hput, hok⟩ := ftPut_new h hkey (count_ne_zero hd hd') (h.forall_recs.2 hno)
  refine ⟨?_, hok⟩
  rw [exec_ftPut_of_noTree ha hd hv, hput, finish_ok, respond_ok, responseWord_newKey]
  rfl

/-- A put of a key already present writes its record in the key's place. -/
theorem exec_ftPut_old {p : Nat} {r : FtRec} (hr : s.ft.read p = some r) (hsym : r.sym = BitVec.ofNat 9 a) :
    exec (.ftPut a d) s =
        .next (answered (0#47 ++ 1#1 ++ 0#6 ++ BitVec.ofNat 10 p) (s.withEntry p s.ftLen a d)) ∧
      (s.withEntry p s.ftLen a d).FtOk := by
  obtain ⟨hput, hok⟩ := ftPut_old h (count_ne_zero hd hd') hr
  rw [hsym] at hput hok
  refine ⟨?_, hok⟩
  rw [exec_ftPut_of_noTree ha hd hv, hput, finish_ok, respond_ok, responseWord_oldKey]
  rfl

/-- Any legal put writes one record, at a position that no other key holds. -/
theorem exec_ftPut_writes_entry :
    ∃ w p len, exec (.ftPut a d) s = .next (answered w (s.withEntry p len a d)) ∧ (s.withEntry p len a d).FtOk ∧
      ∀ r, s.ft.read p = some r → r.sym = BitVec.ofNat 9 a := by
  by_cases hno : ∀ q r, s.ft.read q = some r → r.sym ≠ BitVec.ofNat 9 a
  · obtain ⟨hexec, hok⟩ := exec_ftPut_new h ha hd hd' hv hno
    refine ⟨_, _, _, hexec, hok, fun r hr => ?_⟩
    obtain ⟨hidx, -⟩ := h
    exact absurd (Memory.lt_of_read_of_range hidx hr) (Nat.lt_irrefl _)
  · push Not at hno
    obtain ⟨p, r, hr, hsym⟩ := hno
    obtain ⟨hexec, hok⟩ := exec_ftPut_old h ha hd hd' hv hr hsym
    refine ⟨_, p, _, hexec, hok, fun r' hr' => ?_⟩
    obtain rfl : r = r' := Option.some.inj (hr.symm.trans hr')
    exact hsym

end

/-- Settles O15: operands, then the phase, then the key's position if it has one. -/
theorem ftPutIsMapPut : Obligations.FtPutIsMapPut := by
  intro s a d ⟨hft, _⟩ hd'
  refine ⟨fun hbad => ?_, exec_ftPut_of_tree, fun ha hd hv => ⟨fun hno => ?_, fun p r hr hsym => ?_⟩⟩
  · refine badOperandIsErrArgInEveryPhase _ s ?_
    simp only [legalOperands, Bool.and_eq_false_iff, decide_eq_false_iff_not]
    omega
  · exact ⟨_, (exec_ftPut_new hft ha hd hd' hv hno).1, State.read_withEntry s _ (s.ftLen + 1) a d⟩
  · exact ⟨_, (exec_ftPut_old hft ha hd hd' hv hr hsym).1, State.read_withEntry s p s.ftLen a d⟩

/-! ### A get after a put -/

/-- A key other than the one put keeps its answer: the records of other keys stay where they were. -/
theorem ftGetPayload_withEntry {s : State} {p a b d : Nat} {len : Index} (h : s.FtOk)
    (h' : (s.withEntry p len a d).FtOk) (hp : ∀ r, s.ft.read p = some r → r.sym = BitVec.ofNat 9 a)
    (hne : BitVec.ofNat 9 b ≠ BitVec.ofNat 9 a) :
    ftGetPayload (s.withEntry p len a d).recs (BitVec.ofNat 9 b) = ftGetPayload s.recs (BitVec.ofNat 9 b) := by
  by_cases hno : ∀ q r, s.ft.read q = some r → r.sym ≠ BitVec.ofNat 9 b
  · have hno' : ∀ q r, (s.withEntry p len a d).ft.read q = some r → r.sym ≠ BitVec.ofNat 9 b := by
      intro q r hr
      rw [State.read_withEntry] at hr
      split at hr
      · cases hr
        exact hne.symm
      · exact hno q r hr
    rw [ftGetPayload_absent (h.forall_recs.2 hno), ftGetPayload_absent (h'.forall_recs.2 hno')]
  · push Not at hno
    obtain ⟨q, r, hr, hsym⟩ := hno
    have hqp : q ≠ p := by
      rintro rfl
      exact hne (hsym.symm.trans (hp r hr))
    have hr' : (s.withEntry p len a d).ft.read q = some r := by rw [State.read_withEntry, if_neg hqp, hr]
    rw [← hsym, ftGetPayload_present h.keys_nodup (h.read q ▸ hr),
      ftGetPayload_present h'.keys_nodup (h'.read q ▸ hr')]

/-- Settles O18: the put has written one record, and `FT.GET` goes by the records. -/
theorem getAfterPut : Obligations.GetAfterPut := by
  intro s t a d ⟨hft, _⟩ ha hd hd' hv hexec
  obtain ⟨w, p, len, hput, hok, hp⟩ := exec_ftPut_writes_entry hft ha hd hd' hv
  obtain rfl : t = answered w (s.withEntry p len a d) := by injection hexec.symm.trans hput
  have hok' : (answered w (s.withEntry p len a d)).FtOk := hok
  have hread : (answered w (s.withEntry p len a d)).ft.read p =
      some { sym := BitVec.ofNat 9 a, count := BitVec.ofNat 32 d } :=
    (State.read_withEntry s p len a d p).trans (if_pos rfl)
  refine ⟨⟨p, hok'.position_le hread, hread, exec_ftGet_present hok' ha hread rfl⟩, fun b hb hba => ?_⟩
  have hne : BitVec.ofNat 9 b ≠ BitVec.ofNat 9 a := fun e => hba (key_inj hb ha e)
  refine ⟨_, statusOf_responseWord_ok _, exec_ftGet hft hb, ?_⟩
  rw [exec_ftGet hok' hb, ← ftGetPayload_withEntry hft hok hp hne]
  rfl

/-! ### The table while a tree lives -/

/-- The two commands that write the table do so only where no tree lives. -/
theorem effect_table_of_tree {i : Instr} {s u : State} (hv : s.treeValid = true) (hi : i ≠ .srst)
    (h : Effect i s u) : u.ft = s.ft ∧ u.ftLen = s.ftLen := by
  cases i with
  | ftClr | ftPut =>
    obtain ⟨hno, -⟩ := h
    exact absurd (hv.symm.trans hno) (by decide)
  | _ => exact ((effect_frame hi h).table (by simp)).symm

/-- Settles O19: an error leaves the table alone, and so does all that a command can do while a tree lives. -/
theorem ftIsFrozenWhileATreeLives : Obligations.FtIsFrozenWhileATreeLives := by
  refine fun s => ⟨fun hv => ⟨fun i t hi hexec => ?_, exec_ftClr_of_tree hv, fun a d hlegal => ?_⟩,
    fun ⟨hft, _⟩ => ⟨fun a hlegal => ?_, fun a hlegal => ?_⟩⟩
  · obtain ⟨st, -, rfl, -⟩ | ⟨p, u, rfl, hu⟩ := exec_cases hexec
    · exact ⟨rfl, rfl⟩
    · exact effect_table_of_tree (u := u) hv hi hu
  · obtain ⟨ha, hd⟩ : a ≤ 256 ∧ 1 ≤ d := by simpa [legalOperands] using hlegal
    exact exec_ftPut_of_tree ha hd hv
  · exact ⟨_, statusOf_responseWord_ok _, exec_ftGet hft (of_decide_eq_true hlegal)⟩
  · obtain ⟨r, -, hexec⟩ := exec_ftRd hft (of_decide_eq_true hlegal)
    exact ⟨_, statusOf_responseWord_ok _, hexec⟩

end Sys2Proof.Machine
end

section
/-! The tree builder (41_tree_builder.md): one removal and one merge of the priority queue, and the commands `TB.BUILD`,
`TREE.FREE` and `NM.RD`, with the words they answer written out. -/

namespace Sys2Proof.Machine

/-! ### The priority queue -/

/-- Settles O20: the removal answers, and whatever it answers is the least member. -/
theorem removeMinIsTheLeast : Obligations.RemoveMinIsTheLeast := by
  intro b hne hread
  obtain ⟨i, hi⟩ := pqRemoveMin_exists hne hread
  obtain ⟨-, hmem, x, hx, hleast⟩ := pqRemoveMin_ok hi
  exact ⟨i, x, hi, hmem, hx, hleast⟩

/-- What answers in the end answers at its first part. -/
theorem ok_of_bind {α β : Type} {r : Except Fault α} {f : α → Except Fault β} {y : β} (h : (r >>= f) = .ok y) :
    ∃ x, r = .ok x ∧ f x = .ok y := by
  cases r with
  | error e => cases h
  | ok x => exact ⟨x, rfl, h⟩

/-- The node a merge makes of the nodes `x` at `i` and `y` at `j` (41_tree_builder.md R145). -/
def mergedNode (i j : Nat) (x y : Node) : Node :=
  { weight := x.weight + y.weight, sym := Config.symInt, zero := BitVec.ofNat 10 i, one := BitVec.ofNat 10 j }

/-- All that a merge does when it answers (41_tree_builder.md R145). -/
theorem mergeOnce_ok {b c : Builder} (h : mergeOnce b = .ok c) :
    ∃ i j x y, pqRemoveMin b = .ok (i, { b with pq := b.pq.erase i }) ∧
      pqRemoveMin { b with pq := b.pq.erase i } = .ok (j, { b with pq := (b.pq.erase i).erase j }) ∧
      b.nm.read i = some x ∧ b.nm.read j = some y ∧
      c = { nm := b.nm.write b.nodeCnt.toNat (mergedNode i j x y), nodeCnt := b.nodeCnt + 1,
            pq := insertIndex b.nodeCnt.toNat ((b.pq.erase i).erase j) } := by
  obtain ⟨⟨i, b₁⟩, hi, h⟩ := ok_of_bind h
  obtain ⟨⟨j, b₂⟩, hj, h⟩ := ok_of_bind h
  obtain ⟨x, hx, h⟩ := ok_of_bind h
  obtain ⟨y, hy, h⟩ := ok_of_bind h
  obtain ⟨nm, hnm, h⟩ := ok_of_bind h
  obtain ⟨rfl, -⟩ := pqRemoveMin_ok hi
  obtain ⟨rfl, -⟩ := pqRemoveMin_ok hj
  obtain ⟨-, rfl⟩ := Memory.store_ok hnm
  obtain ⟨-, -, rfl⟩ := pqInsert_ok.1 h
  exact ⟨i, j, x, y, hi, hj, Memory.fetch_ok.1 hx, Memory.fetch_ok.1 hy, rfl⟩

/-- Settles O21: the two removals, the record written and the index queued are those of `mergeOnce_ok`. -/
theorem mergeJoinsTheTwoLeast : Obligations.MergeJoinsTheTwoLeast := by
  intro b c h
  obtain ⟨i, j, x, y, hi, hj, hx, hy, rfl⟩ := mergeOnce_ok h
  obtain ⟨-, himem, -⟩ := pqRemoveMin_ok hi
  obtain ⟨-, hjmem, -⟩ := pqRemoveMin_ok hj
  have hperm := insertIndex_perm b.nodeCnt.toNat ((b.pq.erase i).erase j)
  refine ⟨i, j, x, y, hi, hj, hx, hy, rfl, fun k => Memory.read_write _ _ _ _, hperm, ?_⟩
  calc (insertIndex b.nodeCnt.toNat ((b.pq.erase i).erase j)).length + 1
      = ((b.pq.erase i).erase j).length + 1 + 1 := by rw [hperm.length_eq, List.length_cons]
    _ = (b.pq.erase i).length + 1 := by rw [List.length_erase_add_one hjmem]
    _ = b.pq.length := List.length_erase_add_one himem

/-! ### The response words, written out -/

/-- The word of a build (41_tree_builder.md R149). -/
theorem responseWord_build (root cnt : Index) :
    responseWord .ok (field 0 root ||| field 10 cnt) = 0#44 ++ cnt ++ root := by
  refine responseWord_ok_eq fun i hi => ?_
  simp only [BitVec.getLsbD_or, getLsbD_field, BitVec.getLsbD_append, BitVec.getLsbD_zero]
  grind

/-- The word of a weight (41_tree_builder.md R157). -/
theorem responseWord_weight (n : Node) : responseWord .ok (nodePayload n .weight) = 0#23 ++ n.weight := by
  refine responseWord_ok_eq fun i hi => ?_
  simp only [nodePayload, getLsbD_field, BitVec.getLsbD_append, BitVec.getLsbD_zero]
  grind

/-- The word of a symbol and two links (41_tree_builder.md R157). -/
theorem responseWord_links (n : Node) :
    responseWord .ok (nodePayload n .links) = 0#35 ++ n.sym ++ n.zero ++ n.one := by
  refine responseWord_ok_eq fun i hi => ?_
  simp only [nodePayload, BitVec.getLsbD_or, getLsbD_field, BitVec.getLsbD_append, BitVec.getLsbD_zero]
  grind

/-! ### `TB.BUILD` -/

theorem exec_tbBuild_of_tree {s : State} (hv : s.treeValid = true) : exec .tbBuild s = .next (erred 3 s) := by
  simp only [exec, execTbBuild, hv, if_true, fail_state]

theorem exec_tbBuild_of_empty {s : State} (hv : s.treeValid = false) (hl : s.ftLen = 0) :
    exec .tbBuild s = .next (erred 4 s) := by
  simp only [exec, execTbBuild, hv, Bool.false_eq_true, hl, if_false, if_true, fail_empty]

theorem exec_tbBuild_of_table {s : State} (hv : s.treeValid = false) (hl : s.ftLen ≠ 0) :
    exec .tbBuild s = finish (tbBuild s) := by
  simp only [exec, execTbBuild, hv, Bool.false_eq_true, hl, if_false]

/-- Settles O24: the phase is right and the table empty, and without a tree the registers have their no-tree values. -/
theorem buildOfAnEmptyTableMakesNoTree : Obligations.BuildOfAnEmptyTableMakesNoTree := by
  intro s ⟨_, _, hno, _⟩ hv hl
  obtain ⟨hcnt, hroot, -⟩ := hno hv
  exact ⟨_, exec_tbBuild_of_empty hv hl, rfl, hv, hcnt, hroot⟩

/-- `s` with a live tree in node memory. -/
def State.withTree (s : State) (nm : Memory Node) (cnt root : Index) : State :=
  { s with nm := nm, nodeCnt := cnt, root := root, treeValid := true }

theorem State.FtOk.length_recs_le {s : State} (h : s.FtOk) : s.recs.length ≤ 257 := by
  obtain ⟨-, -, -, -, hlen⟩ := id h
  rw [h.length_recs]
  exact hlen

theorem State.FtOk.recs_ne_nil {s : State} (h : s.FtOk) (hl : s.ftLen ≠ 0) : s.recs ≠ [] := by
  intro e
  have hlen := h.length_recs
  rw [e] at hlen
  exact hl (BitVec.eq_of_toNat_eq hlen.symm)

section
variable {s : State} (h : s.Inv) (hv : s.treeValid = false) (hl : s.ftLen ≠ 0)
include h hv hl

/-- The build of a non-empty table answers, and makes the tree of 10_state.md R32 (41_tree_builder.md R143 to R149). -/
theorem exec_tbBuild_makes_tree :
    ∃ nm cnt root, exec .tbBuild s = .next (answered (0#44 ++ cnt ++ root) (s.withTree nm cnt root)) ∧
      (s.withTree nm cnt root).TreeOk := by
  obtain ⟨hft, -, hno, -, -, -, hpq, -⟩ := h
  obtain ⟨nm, cnt, root, hbuild, htree⟩ := tbBuild_makes_tree hft (hno hv) hpq hl
  refine ⟨nm, cnt, root, ?_, htree⟩
  rw [exec_tbBuild_of_table hv hl, hbuild, finish_ok, respond_ok, responseWord_build]
  simp only [State.withTree, hpq]

/-- All that `TB.BUILD` reads is FT: the builder it works on starts empty (41_tree_builder.md R143, R148). -/
theorem exec_tbBuild_next {t : State} (hexec : exec .tbBuild s = .next t) :
    ∃ r b, buildTree s.recs { nm := [], nodeCnt := 0, pq := [] } = .ok (r, b) ∧
      t.nm = b.nm ∧ t.nodeCnt = b.nodeCnt ∧ t.root = BitVec.ofNat 10 r ∧ t.treeValid = true := by
  obtain ⟨hft, -, hno, -, -, -, hpq, -⟩ := h
  obtain ⟨hcnt, -, hnm⟩ := hno hv
  rw [exec_tbBuild_of_table hv hl] at hexec
  obtain ⟨recs, hrecs, hexec⟩ := finish_bind hexec
  obtain ⟨⟨r, b⟩, hb, hexec⟩ := ok_of_bind hexec
  cases hexec
  obtain rfl : s.recs = recs := by injection hft.ftRecords.symm.trans hrecs
  rw [hnm, hcnt, hpq] at hb
  exact ⟨r, b, hb, rfl, rfl, rfl, rfl⟩

end

/-- Settles O22: the counts and the leaves are read off from `TreeOk`. -/
theorem tbBuildMakesTheTree : Obligations.TbBuildMakesTheTree := by
  intro s h
  refine ⟨exec_tbBuild_of_tree, fun hv hl => ?_⟩
  obtain ⟨nm, cnt, root, hexec, htree⟩ := exec_tbBuild_makes_tree h hv hl
  obtain ⟨hft, -⟩ := h
  obtain ⟨hT, hroot, hcnt⟩ := State.TreeOk.isTree (s := s.withTree nm cnt root) hft htree
  have hlen : (s.withTree nm cnt root).recs.length = s.ftLen.toNat := hft.length_recs
  rw [rootOf, hlen] at hroot
  rw [hlen] at hcnt
  refine ⟨nm, cnt, root, hcnt, hroot, hexec, htree, fun p r hr => ?_⟩
  obtain ⟨hidx, -⟩ := id hft
  calc nm.read p
      = (s.recs[p]?).map leafRecord := hT.leaf p (hlen ▸ Memory.lt_of_read_of_range hidx hr)
    _ = some (leafRecord r) := by rw [← hft.read p, hr, Option.map_some]

/-- Settles O23: the merges of the builder choose the least roots, and the node memory is the builder's. -/
theorem buildMergesTheTwoLeastRoots : Obligations.BuildMergesTheTwoLeastRoots := by
  intro s t h hv hl hexec k n hk hn
  obtain ⟨r, b, hb, hnm, -⟩ := exec_tbBuild_next h hv hl hexec
  obtain ⟨hft, -⟩ := h
  have hlen := hft.length_recs
  obtain ⟨c, hc, -, -, -, -, hinner, -, hleast, -⟩ :=
    buildTree_ok (hft.recs_ne_nil hl) hft.length_recs_le hft.syms_le 0
  cases hb.symm.trans hc
  rw [hnm] at hn ⊢
  rw [← hlen] at hk
  obtain ⟨hsym, -⟩ := hinner k n hk hn
  exact ⟨hsym, hleast k n hk hn⟩

/-- Settles O25: both builds run on the same records from an empty builder, and with an empty table neither block has
a tree. -/
theorem treeDependsOnlyOnFt : Obligations.TreeDependsOnlyOnFt := by
  intro s u s' u' hs hu hvs hvu hft hlen hes heu
  by_cases hl : s.ftLen = 0
  · rw [exec_tbBuild_of_empty hvs hl] at hes
    rw [exec_tbBuild_of_empty hvu (hlen ▸ hl)] at heu
    cases hes
    cases heu
    obtain ⟨-, -, hnos, -⟩ := hs
    obtain ⟨-, -, hnou, -⟩ := hu
    obtain ⟨hcs, hrs, hms⟩ := hnos hvs
    obtain ⟨hcu, hru, hmu⟩ := hnou hvu
    exact ⟨hms.trans hmu.symm, hcs.trans hcu.symm, hrs.trans hru.symm, hvs.trans hvu.symm⟩
  · obtain ⟨r, b, hb, hms, hcs, hrs, hts⟩ := exec_tbBuild_next hs hvs hl hes
    obtain ⟨q, c, hc, hmu, hcu, hru, htu⟩ := exec_tbBuild_next hu hvu (hlen ▸ hl) heu
    rw [State.recs, ← hft, hb] at hc
    cases hc
    exact ⟨hms.trans hmu.symm, hcs.trans hcu.symm, hrs.trans hru.symm, hts.trans htu.symm⟩

/-! ### `TREE.FREE` -/

theorem exec_treeFree_of_tree {s : State} (hv : s.treeValid = true) (hrun : s.decState ≠ .run) :
    exec .treeFree s = .next (answered (0#54 ++ s.nodeCnt)
      { s with nm := [], nodeCnt := 0, root := Config.nil, treeValid := false }) := by
  simp only [exec, execTreeFree, hv, Bool.not_true, Bool.false_eq_true, hrun, if_false, respond_ok]
  rw [responseWord_newKey]

theorem exec_treeFree_refused {s : State} (h : s.treeValid = false ∨ s.decState = .run) :
    exec .treeFree s = .next (erred 3 s) := by
  simp only [exec, execTreeFree, fail_state]
  obtain hv | hrun := h
  · simp only [hv, Bool.not_false, if_true]
  · simp only [hrun, if_true, ite_self]

/-- Settles O27: the branches of the command. -/
theorem treeFreeReleasesTheTree : Obligations.TreeFreeReleasesTheTree :=
  fun _ => ⟨exec_treeFree_of_tree, exec_treeFree_refused⟩

/-! ### `NM.RD` -/

theorem exec_nmRd {s : State} {sel a : Nat} {part : NodePart} {n : Node} (hpart : nodePartOf sel = some part)
    (ha : a < s.nodeCnt.toNat) (hn : s.nm.read a = some n) :
    exec (.nmRd sel a) s = .next (answered (responseWord .ok (nodePayload n part)) s) := by
  simp only [exec, execNmRd, hpart, indexBelow_of_lt ha, Memory.fetch_of_read hn]
  rfl

/-- Settles O28: every index below `node_cnt` holds a node, and an operand out of range is refused. -/
theorem nmRdAnswersTheNode : Obligations.NmRdAnswersTheNode := by
  intro s sel a h
  constructor
  · intro ha
    obtain ⟨n, hn⟩ := Memory.exists_read_of_range h.nm_indices ha
    refine ⟨n, hn, ?_, ?_⟩
    · rw [exec_nmRd rfl ha hn, responseWord_weight]
    · rw [exec_nmRd rfl ha hn, responseWord_links]
  · intro hbad
    refine badOperandIsErrArgInEveryPhase _ s ?_
    simp only [legalOperands, Bool.and_eq_false_iff, decide_eq_false_iff_not]
    omega

end Sys2Proof.Machine
end

section
/-! The code table commands (42_code_table.md): `CT.GEN` and the codes it makes of a live tree, and `CT.RD` with the
words it answers, bit by bit. -/

namespace Sys2Proof.Machine

/-! ### `CT.GEN` -/

theorem exec_ctGen_refused {s : State} (h : s.treeValid = false ∨ s.encState = .run) :
    exec .ctGen s = .next (erred 3 s) := by
  simp only [exec, execCtGen, fail_state]
  obtain hv | hrun := h
  · simp only [hv, Bool.not_false, if_true]
  · simp only [hrun, if_true, ite_self]

theorem exec_ctGen_of_tree {s : State} (hv : s.treeValid = true) (hrun : s.encState ≠ .run) :
    exec .ctGen s = finish (ctGen s) := by
  simp only [exec, execCtGen, hv, Bool.not_true, Bool.false_eq_true, hrun, if_false]

/-- Where the code generation completes, `CT.GEN` answers the number of codes (42_code_table.md R171). -/
theorem exec_ctGen_of_codes {s : State} {ct : Memory Code} (hv : s.treeValid = true) (hrun : s.encState ≠ .run)
    (hct : codesOfTree s.nm s.root.toNat = .ok ct) :
    exec .ctGen s = .next (answered (0#54 ++ BitVec.ofNat 10 ct.length) { s with ct := ct, codesValid := true }) := by
  have hgen : ctGen s = .ok (respond .ok (field 0 (BitVec.ofNat 10 ct.length))
      { s with ct := ct, codesValid := true }) := by
    rw [ctGen, hct]
    rfl
  rw [exec_ctGen_of_tree hv hrun, hgen, finish_ok, respond_ok, responseWord_newKey]

/-- What a table of one code holds. -/
theorem Memory.read_singleton {α : Type} {i k : Nat} {x y : α} :
    Memory.read [(i, x)] k = some y ↔ y = x ∧ i = k :=
  Option.ite_some_none_eq_some.trans (and_comm.trans (and_congr_left' eq_comm))

/-- Settles O29: the codes are those of `codesOfTree_one` and `codesOfTree_many`, one for each leaf by
`codesOfTree_ok`. -/
theorem ctGenMakesThePathsTheCodes : Obligations.CtGenMakesThePathsTheCodes := by
  refine fun s ⟨hft, htree, _⟩ => ⟨exec_ctGen_refused, fun hv hrun => ?_⟩
  obtain ⟨T, hroot, -⟩ := (htree hv).isTree hft
  obtain ⟨ct, hct, hlen, -⟩ := T.codesOfTree_ok
  have hrecs := hft.length_recs
  have hexec := exec_ctGen_of_codes hv hrun (hroot ▸ hct)
  rw [hlen, hrecs, BitVec.ofNat_toNat, BitVec.setWidth_eq] at hexec
  refine ⟨ct, hexec, hlen.trans hrecs, fun h1 k c => ?_, fun h2 => ?_⟩
  · obtain ⟨ct', n, hct', hn, -, hone⟩ := T.codesOfTree_one (hrecs.trans h1)
    cases hct.symm.trans hct'
    simp only [hone, Memory.read_singleton, hroot, hn, Option.some.injEq, exists_eq_left']
  · obtain ⟨ct', hct', -, hmany⟩ := T.codesOfTree_many (hrecs ▸ h2)
    cases hct.symm.trans hct'
    rw [hroot]
    exact hmany

/-! ### The response words of `CT.RD` -/

/-- The word of a length (42_code_table.md R175, part `LEN`). -/
theorem responseWord_codeLen (c : Code) :
    responseWord .ok (codePayload c .len) = 0#54 ++ 1#1 ++ BitVec.ofNat 9 c.length := by
  refine responseWord_ok_eq fun i hi => ?_
  simp only [codePayload, BitVec.getLsbD_or, getLsbD_field, BitVec.getLsbD_append, BitVec.getLsbD_zero,
    BitVec.getLsbD_one]
  grind

/-- The word of a 32-bit payload. -/
theorem responseWord_chunk (v : BitVec 32) : responseWord .ok (field 0 v) = 0#32 ++ v := by
  refine responseWord_ok_eq fun i hi => ?_
  simp only [getLsbD_field, BitVec.getLsbD_append, BitVec.getLsbD_zero]
  grind

theorem bitsValue_cons (b : Bool) (bs : List Bool) : bitsValue (b :: bs) = Nat.bit b (bitsValue bs) := by
  rw [bitsValue, Nat.bit_val, Nat.add_comm]

theorem testBit_bitsValue (bs : List Bool) (k : Nat) : (bitsValue bs).testBit k = bs.getD k false := by
  induction bs generalizing k with
  | nil => exact Nat.zero_testBit k
  | cons b bs ih =>
    rw [bitsValue_cons]
    cases k with
    | zero => exact Nat.testBit_bit_zero b _
    | succ k => rw [Nat.testBit_bit_succ, ih, List.getD_cons_succ]

/-- Bit `m` of chunk `j` is path bit `32 j + m` (42_code_table.md R175). -/
theorem getLsbD_codeChunk (c : Code) (j : Nat) {m : Nat} (hm : m < 32) :
    (BitVec.ofNat 32 (bitsValue ((c.drop (32 * j)).take 32))).getLsbD m = c.getD (32 * j + m) false := by
  rw [BitVec.getLsbD_ofNat, testBit_bitsValue]
  simp only [hm, decide_true, Bool.true_and, List.getD_eq_getElem?_getD, List.getElem?_take_of_lt hm,
    List.getElem?_drop]

/-! ### `CT.RD` -/

theorem exists_codePartOf {sel : Nat} (h : sel ≤ 8) : ∃ part, codePartOf sel = some part := by
  cases sel with
  | zero => exact ⟨_, rfl⟩
  | succ j => exact ⟨_, if_pos (Nat.le_of_succ_le_succ h)⟩

section
variable {s : State} {sel a : Nat} {part : CodePart} (hpart : codePartOf sel = some part) (ha : a ≤ 256)
include hpart ha

theorem exec_ctRd_absent (h : s.ct.read a = none) : exec (.ctRd sel a) s = .next (answered 0 s) := by
  simp only [exec, execCtRd, hpart, symbolOf_of_le ha, toNat_key ha, h, respond_ok_zero]

theorem exec_ctRd_present {c : Code} (h : s.ct.read a = some c) :
    exec (.ctRd sel a) s = .next (answered (responseWord .ok (codePayload c part)) s) := by
  simp only [exec, execCtRd, hpart, symbolOf_of_le ha, toNat_key ha, h, respond_ok]

end

/-- Settles O30: the word of each part is written out by `responseWord_codeLen` and `responseWord_chunk`, and an operand
out of range is refused. -/
theorem ctRdAnswersTheCode : Obligations.CtRdAnswersTheCode := by
  refine fun s sel a _ => ⟨fun hsel ha hnone => ?_, fun ha c hc => ⟨?_, fun j hj => ?_⟩, fun hbad => ?_⟩
  · obtain ⟨part, hpart⟩ := exists_codePartOf hsel
    exact exec_ctRd_absent hpart ha hnone
  · rw [exec_ctRd_present rfl ha hc, responseWord_codeLen]
  · have hpart : codePartOf (j + 1) = some (.chunk j) := if_pos hj
    refine ⟨_, ?_, fun m hm => getLsbD_codeChunk c j hm⟩
    rw [exec_ctRd_present hpart ha hc, codePayload, responseWord_chunk]
  · refine badOperandIsErrArgInEveryPhase _ s ?_
    simp only [legalOperands, Bool.and_eq_false_iff, decide_eq_false_iff_not]
    omega

end Sys2Proof.Machine
end

section
/-! The encoder commands (43_encoder.md): the answer of each of them in every session state, a whole session as the
emission of its bits, and a dry run as a live session of which only the packer and the output are forgotten. -/

namespace Sys2Proof.Machine

/-! ### `ENC.START` -/

/-- `s` with an encode session just opened, counter and packer cleared (43_encoder.md R192). -/
def State.withOpenEncoder (s : State) (dry : Bool) : State :=
  { s with encDry := dry, encBitcnt := 0, pkAcc := 0, pkN := 0, encState := .run }

theorem exec_encStart_of_codes {s : State} {sel : Nat} (hsel : sel ≤ 1) (hv : s.codesValid = true) :
    exec (.encStart sel) s = .next (answered 0 (s.withOpenEncoder (sel == 1))) := by
  have hv' : ¬ (!s.codesValid) = true := by simp [hv]
  obtain rfl | rfl : sel = 0 ∨ sel = 1 := by omega
  · exact if_neg hv'
  · exact if_neg hv'

theorem exec_encStart_of_noCodes {s : State} {sel : Nat} (hsel : sel ≤ 1) (hv : s.codesValid = false) :
    exec (.encStart sel) s = .next (erred 3 s) := by
  have hv' : (!s.codesValid) = true := by simp [hv]
  obtain rfl | rfl : sel = 0 ∨ sel = 1 := by omega
  · exact if_pos hv'
  · exact if_pos hv'

/-- Settles O31: the mode is checked before the codes are looked at. -/
theorem encStartOpensASession : Obligations.EncStartOpensASession :=
  fun s _ => ⟨fun hsel => badOperandIsErrArgInEveryPhase _ s (decide_eq_false (Nat.not_le.2 hsel)),
    exec_encStart_of_noCodes, exec_encStart_of_codes⟩

/-! ### The answers of `ENC.PUT` and `ENC.FIN` -/

/-- The word of a payload that is one number, in its lowest bits. -/
theorem responseWord_low {k n : Nat} (h : k + n = 64) (hn : n ≤ 56) (v : BitVec n) :
    responseWord .ok (field 0 v) = (0#k ++ v).cast h := by
  refine responseWord_ok_eq fun i hi => ?_
  simp only [getLsbD_field, BitVec.getLsbD_cast, BitVec.getLsbD_append, BitVec.getLsbD_zero]
  grind

theorem statusOf_low {k n : Nat} (h : k + n = 64) (hn : n ≤ 56) (v : BitVec n) :
    statusOf ((0#k ++ v).cast h) = 0 := by
  rw [← responseWord_low h hn, statusOf_responseWord_ok]

theorem toNat_byte {d : Nat} (hd : d ≤ 255) : (BitVec.ofNat 8 d).toNat = d := (byteOf_some (byteOf_of_le hd)).1

section
variable {s : State} {d : Nat}

theorem exec_encPut_illegal (hd : 255 < d) : exec (.encPut d) s = .next (erred 2 s) :=
  badOperandIsErrArgInEveryPhase _ s (decide_eq_false (Nat.not_le.2 hd))

theorem exec_encPut_closed (hd : d ≤ 255) (hrun : s.encState ≠ .run) : exec (.encPut d) s = .next (erred 3 s) := by
  simp only [exec, execEncPut, byteOf_of_le hd, if_pos hrun, fail_state]

theorem exec_encPut_noCode (hd : d ≤ 255) (hrun : s.encState = .run) (hc : s.ct.read d = none) :
    exec (.encPut d) s = .next (erred 5 { s with encState := .fail }) := by
  simp only [exec, execEncPut, byteOf_of_le hd, toNat_byte hd, hrun, hc, ne_eq, not_true_eq_false, if_false,
    fail_nocode]

theorem exec_encPut_code (hd : d ≤ 255) (hrun : s.encState = .run) {c : Code} (hc : s.ct.read d = some c) :
    exec (.encPut d) s = .next (answered (0#55 ++ BitVec.ofNat 9 c.length) (emitBits c s)) := by
  simp only [exec, execEncPut, byteOf_of_le hd, toNat_byte hd, hrun, hc, ne_eq, not_true_eq_false, if_false,
    respond_ok]
  rw [responseWord_low (k := 55) rfl (by decide), BitVec.cast_eq]

theorem exec_encFin_closed (hrun : s.encState ≠ .run) : exec .encFin s = .next (erred 3 s) := by
  simp only [exec, execEncFin, if_pos hrun, fail_state]

theorem exec_encFin_noCode (hrun : s.encState = .run) (hc : s.ct.read 256 = none) :
    exec .encFin s = .next (erred 5 { s with encState := .fail }) := by
  have hc' : s.ct.read Config.symEos.toNat = none := hc
  simp only [exec, execEncFin, hrun, hc', ne_eq, not_true_eq_false, if_false, fail_nocode]

@[simp] theorem closeEncode_encBitcnt (c : Code) (s : State) :
    (closeEncode c s).encBitcnt = s.encBitcnt + BitVec.ofNat 48 c.length := by
  simp only [closeEncode, flush_encBitcnt, emitBits_encBitcnt]

theorem exec_encFin_code (hrun : s.encState = .run) {c : Code} (hc : s.ct.read 256 = some c) :
    exec .encFin s =
      .next (answered (0#16 ++ (s.encBitcnt + BitVec.ofNat 48 c.length)) (closeEncode c s)) := by
  have hc' : s.ct.read Config.symEos.toNat = some c := hc
  simp only [exec, execEncFin, hrun, hc', ne_eq, not_true_eq_false, if_false, respond_ok, closeEncode_encBitcnt]
  rw [responseWord_low (k := 16) rfl (by decide), BitVec.cast_eq]

end

/-! ### `ENC.PUT` and `ENC.FIN` where the encoder keeps its invariant -/

/-- Settles O32: in live mode the bits go behind those waiting, in a dry run they go to the tap alone. -/
theorem encPutEmitsTheCode : Obligations.EncPutEmitsTheCode := by
  refine fun s d ⟨_, _, _, _, ⟨_, hlow, _, _⟩, _⟩ =>
    ⟨exec_encPut_illegal, exec_encPut_closed, exec_encPut_noCode, fun hd hrun c hc => ?_⟩
  rw [exec_encPut_code hd hrun hc]
  cases hdry : s.encDry with
  | true =>
    rw [emitBits_dry c s hdry]
    exact ⟨s.pkN, s.pkAcc, [], by rw [List.append_nil, hdry], fun _ => ⟨rfl, rfl, rfl⟩, nofun⟩
  | false =>
    obtain ⟨n, acc, out, hemit, -, hlen, hn, hpack, -⟩ := emitBits_live c s hdry hlow
    exact ⟨n, acc, out, by rw [hemit, hdry], nofun, fun _ => ⟨hlen, hn, hpack⟩⟩

/-- The end of a session in either mode: the packer is empty after it, because in a dry run it was empty all along
(43_encoder.md R194, R196, R197). -/
theorem closeEncode_of_encOk {s : State} (h : s.EncOk) (c : Code) :
    ∃ out : List Byte,
      closeEncode c s = { s with tapLog := s.tapLog ++ c, encBitcnt := s.encBitcnt + BitVec.ofNat 48 c.length,
                                 pkN := 0, pkAcc := 0, encOut := s.encOut ++ out, encState := .done } ∧
      (s.encDry = true → out = []) ∧
      (s.encDry = false →
        out.length = ((pendingBits s ++ c).length + 7) / 8 ∧ PacksTo (pendingBits s ++ c) out) := by
  obtain ⟨-, hlow, -, hempty⟩ := h
  cases hdry : s.encDry with
  | true =>
    have hn := hempty hdry
    have hacc : s.pkAcc = 0 := acc_zero_of_lowZero (hn ▸ hlow)
    refine ⟨[], ?_, fun _ => rfl, nofun⟩
    rw [closeEncode_dry c hdry, List.append_nil, hdry, hn, hacc]
  | false =>
    obtain ⟨out, hclose, hlen, hpack⟩ := closeEncode_live c hdry hlow
    exact ⟨out, by rw [hclose, hdry], nofun, fun _ => ⟨hlen, hpack⟩⟩

/-- Settles O33: the effect is that of `closeEncode_of_encOk`. -/
theorem encFinFlushesAndCloses : Obligations.EncFinFlushesAndCloses := by
  refine fun s ⟨_, _, _, _, henc, _⟩ => ⟨exec_encFin_closed, exec_encFin_noCode, fun hrun c hc => ?_⟩
  obtain ⟨out, hclose, hout⟩ := closeEncode_of_encOk henc c
  exact ⟨out, by rw [exec_encFin_code hrun hc, hclose], hout⟩

/-! ### A whole session -/

theorem execList_cons_of_next {i : Instr} {is : List Instr} {s t : State} (h : exec i s = .next t) :
    execList (i :: is) s = execList is t := by
  simp only [execList, h]

/-- The bits of a session can be emitted in parts. -/
theorem closeEncode_emitBits (c c' : Code) (s : State) : closeEncode c' (emitBits c s) = closeEncode (c ++ c') s := by
  simp only [closeEncode, emitBits_append]

/-- A response is not part of what the encoder works on. -/
theorem closeEncode_answered (c : Code) (w : Word) (s : State) :
    closeEncode c (answered w s) = answered w (closeEncode c s) := by
  obtain ⟨bc, n, acc, out, e⟩ := closeEncode_frame c s
  rw [show answered w s = s.aroundEncoder (answered w s) from rfl, closeEncode_local, e]
  rfl

/-- In an open session the puts and `ENC.FIN` together emit the session's bits and close it, each answered `OK`
(43_encoder.md R198). -/
theorem execList_puts_fin (x : List Byte) {s : State} {B : List Bool} (hrun : s.encState = .run)
    (hB : sessionBits s.ct x = some B) :
    ∃ rsps : List Word, execList (x.map (fun v => .encPut v.toNat) ++ [.encFin]) s = .next
        { closeEncode B s with
          rspLog := s.rspLog ++ rsps ++ [0#16 ++ (s.encBitcnt + BitVec.ofNat 48 B.length)] } ∧
      rsps.length = x.length ∧ ∀ r ∈ rsps, statusOf r = 0 := by
  induction x generalizing s B with
  | nil =>
    refine ⟨[], ?_, rfl, by simp⟩
    obtain ⟨bc, n, acc, out, e⟩ := closeEncode_frame B s
    rw [List.map_nil, List.nil_append, execList_cons_of_next (exec_encFin_code hrun hB), e, List.append_nil]
    rfl
  | cons v x ih =>
    simp only [sessionBits] at hB
    split at hB
    · next c rest hc hrest =>
      cases hB
      have hput : exec (.encPut v.toNat) s =
          .next (answered (0#55 ++ BitVec.ofNat 9 c.length) (emitBits c s)) :=
        exec_encPut_code (Nat.le_of_lt_succ v.isLt) hrun hc
      obtain ⟨rsps, hexec, hlen, hok⟩ := ih (s := answered (0#55 ++ BitVec.ofNat 9 c.length) (emitBits c s))
        ((emitBits_encState c s).trans hrun) ((congrArg (sessionBits · x) (emitBits_ct c s)).trans hrest)
      refine ⟨(0#55 ++ BitVec.ofNat 9 c.length) :: rsps, ?_, by rw [List.length_cons, hlen, List.length_cons], ?_⟩
      · rw [List.map_cons, List.cons_append, execList_cons_of_next hput, hexec, closeEncode_answered,
          closeEncode_emitBits]
        simp [answered, BitVec.ofNat_add, BitVec.add_assoc]
      · exact List.forall_mem_cons.2 ⟨statusOf_low (k := 55) rfl (by decide) _, hok⟩
    · cases hB

theorem State.withOpenEncoder_encOk {s : State} (hv : s.codesValid = true) (dry : Bool) :
    (s.withOpenEncoder dry).EncOk :=
  ⟨fun _ => hv, lowZero_zero, List.nil_suffix, fun _ => rfl⟩

/-- Settles O34: the session starts with nothing waiting, and its puts and `ENC.FIN` emit the bits `B`. -/
theorem encodeSessionProducesItsBits : Obligations.EncodeSessionProducesItsBits := by
  intro s mode x B hv hmode hB
  obtain ⟨rsps, hexec, hlen, hok⟩ :=
    execList_puts_fin x (s := answered 0 (s.withOpenEncoder (mode == 1))) rfl hB
  obtain ⟨out, hclose, hdry, hlive⟩ := closeEncode_of_encOk (State.withOpenEncoder_encOk hv (mode == 1)) B
  refine ⟨0 :: rsps, out, ?_, by rw [List.length_cons, hlen], ?_, ?_, ?_⟩
  · rw [encodeSession, execList_cons_of_next (exec_encStart_of_codes hmode hv), hexec, closeEncode_answered, hclose]
    simp [answered, State.withOpenEncoder]
  · exact List.forall_mem_cons.2 ⟨rfl, hok⟩
  · rintro rfl
    exact hdry rfl
  · rintro rfl
    exact hlive rfl

/-! ### A dry run beside a live session -/

/-- `s` as a dry run shows it: the encoder's output is the given one, and nothing waits in the packer
(43_encoder.md R197). -/
def State.asDryRun (out : List Byte) (s : State) : State :=
  { s with encDry := true, encOut := out, pkAcc := 0, pkN := 0 }

theorem emitBits_asDryRun (out : List Byte) (bits : List Bool) (s : State) :
    emitBits bits (s.asDryRun out) = (emitBits bits s).asDryRun out := by
  have hbc := emitBits_encBitcnt bits s
  obtain ⟨bc, n, acc, o, e⟩ := emitBits_frame bits s
  rw [e] at hbc ⊢
  obtain rfl := hbc
  exact emitBits_dry bits _ rfl

theorem closeEncode_asDryRun (out : List Byte) (c : Code) (s : State) :
    closeEncode c (s.asDryRun out) = (closeEncode c s).asDryRun out := by
  have hbc := closeEncode_encBitcnt c s
  obtain ⟨bc, n, acc, o, e⟩ := closeEncode_frame c s
  rw [e] at hbc ⊢
  obtain rfl := hbc
  exact closeEncode_dry c rfl

/-- A put or `ENC.FIN` answers a dry run as it answers the live session. -/
theorem exec_asDryRun (out : List Byte) {i : Instr} (hi : i = .encFin ∨ ∃ d, i = .encPut d) (s : State) :
    ∃ t, exec i s = .next t ∧ exec i (s.asDryRun out) = .next (t.asDryRun out) := by
  obtain rfl | ⟨d, rfl⟩ := hi
  · by_cases hrun : s.encState = .run
    · cases hc : s.ct.read 256 with
      | none => exact ⟨_, exec_encFin_noCode hrun hc, exec_encFin_noCode (s := s.asDryRun out) hrun hc⟩
      | some c =>
        refine ⟨_, exec_encFin_code hrun hc, ?_⟩
        rw [exec_encFin_code (s := s.asDryRun out) hrun hc, closeEncode_asDryRun]
        rfl
    · exact ⟨_, exec_encFin_closed hrun, exec_encFin_closed (s := s.asDryRun out) hrun⟩
  · by_cases hd : 255 < d
    · exact ⟨_, exec_encPut_illegal hd, exec_encPut_illegal hd⟩
    · have hd : d ≤ 255 := Nat.le_of_not_lt hd
      by_cases hrun : s.encState = .run
      · cases hc : s.ct.read d with
        | none => exact ⟨_, exec_encPut_noCode hd hrun hc, exec_encPut_noCode (s := s.asDryRun out) hd hrun hc⟩
        | some c =>
          refine ⟨_, exec_encPut_code hd hrun hc, ?_⟩
          rw [exec_encPut_code (s := s.asDryRun out) hd hrun hc, emitBits_asDryRun]
          rfl
      · exact ⟨_, exec_encPut_closed hd hrun, exec_encPut_closed (s := s.asDryRun out) hd hrun⟩

theorem execList_asDryRun (out : List Byte) {is : List Instr} (his : ∀ i ∈ is, i = .encFin ∨ ∃ d, i = .encPut d)
    (s : State) : ∃ t, execList is s = .next t ∧ execList is (s.asDryRun out) = .next (t.asDryRun out) := by
  induction is generalizing s with
  | nil => exact ⟨s, rfl, rfl⟩
  | cons i is ih =>
    obtain ⟨hi, his⟩ := List.forall_mem_cons.1 his
    obtain ⟨t, hlive, hdry⟩ := exec_asDryRun out hi s
    rw [execList_cons_of_next hlive, execList_cons_of_next hdry]
    exact ih his t

/-- Settles O35: the dry run is opened as the live session seen with the output left as it was, and stays so. -/
theorem dryRunShowsTheSameBits : Obligations.DryRunShowsTheSameBits := by
  intro s cmds hv hcmds
  obtain ⟨t, hlive, hdry⟩ := execList_asDryRun s.encOut hcmds (answered 0 (s.withOpenEncoder false))
  refine ⟨t, t.asDryRun s.encOut, ?_, ?_, rfl, rfl, rfl, rfl, rfl, rfl, rfl, rfl⟩
  · rw [execList_cons_of_next (exec_encStart_of_codes (Nat.zero_le 1) hv)]
    exact hlive
  · rw [execList_cons_of_next (exec_encStart_of_codes (Nat.le_refl 1) hv)]
    exact hdry

end Sys2Proof.Machine
end

section
/-! The decoder commands (44_decoder.md): the words they answer, `DEC.BIT` as the landing on one node, and `DEC.BYTE` as
a run of `DEC.BIT` commands. -/

namespace Sys2Proof.Machine

/-! ### `DEC.START` and `DEC.EOF` -/

/-- `s` with a decode session just opened, cursor at the root and counters cleared (44_decoder.md R222). -/
def State.withOpenDecoder (s : State) : State :=
  { s with decCur := s.root, decCnt := 0, decBitcnt := 0, decState := .run }

theorem exec_decStart_of_tree {s : State} (hv : s.treeValid = true) :
    exec .decStart s = .next (answered 0 s.withOpenDecoder) := by
  simp only [exec, execDecStart, hv, Bool.not_true, Bool.false_eq_true, if_false, respond_ok_zero,
    State.withOpenDecoder]

theorem exec_decStart_of_noTree {s : State} (hv : s.treeValid = false) :
    exec .decStart s = .next (erred 3 s) := by
  simp only [exec, execDecStart, hv, Bool.not_false, if_true, fail_state]

/-- Settles O36: the two branches of the command. -/
theorem decStartOpensASession : Obligations.DecStartOpensASession :=
  fun _ => ⟨exec_decStart_of_tree, exec_decStart_of_noTree⟩

theorem exec_decEof_open {s : State} (h : s.decState = .run) :
    exec .decEof s = .next (erred 6 { s with decState := .fail }) := by
  simp only [exec, execDecEof, h, fail_trunc]

theorem exec_decEof_done {s : State} (h : s.decState = .done) : exec .decEof s = .next (answered 0 s) := by
  simp only [exec, execDecEof, h, respond_ok_zero]

theorem exec_decEof_closed {s : State} (h : s.decState = .idle ∨ s.decState = .fail) :
    exec .decEof s = .next (erred 3 s) := by
  obtain h | h := h
  · simp only [exec, execDecEof, h, fail_state]
  · simp only [exec, execDecEof, h, fail_state]

/-- Settles O39: the answer in each of the four session states. -/
theorem decEofReportsTruncation : Obligations.DecEofReportsTruncation :=
  fun _ => ⟨exec_decEof_open, exec_decEof_done, exec_decEof_closed⟩

/-! ### The response words, written out -/

/-- The word of a literal (44_decoder.md R223). -/
theorem responseWord_literal (v : Byte) : responseWord .ok (bitPayload (.lit v)) = 0#48 ++ v ++ 1#8 := by
  refine responseWord_ok_eq fun i hi => ?_
  simp only [bitPayload, BitVec.getLsbD_or, getLsbD_field, BitVec.getLsbD_append, BitVec.getLsbD_zero,
    BitVec.getLsbD_one]
  grind

/-- The word of the end marker (44_decoder.md R223). -/
theorem responseWord_endMarker : responseWord .ok (bitPayload .eos) = 2 := by decide

/-- The word of `DEC.BYTE` (44_decoder.md R227). -/
theorem responseWord_byte (used lits : BitVec 4) (done : BitVec 1) :
    responseWord .ok (field 0 used ||| field 4 lits ||| field 8 done) = 0#55 ++ done ++ lits ++ used := by
  refine responseWord_ok_eq fun i hi => ?_
  simp only [BitVec.getLsbD_or, getLsbD_field, BitVec.getLsbD_append, BitVec.getLsbD_zero]
  grind

/-! ### Where a bit lands, by the symbol of the node -/

theorem isLeaf_of_sym_ne {n : Node} (h : n.sym ≠ 257) : n.isLeaf = true := bne_iff_ne.2 h

section
variable {t : Nat} {n : Node} {s : State}

theorem landed_internal (h : n.sym = 257) :
    eventOf n = .desc ∧
      landed t n s = { s with decBitcnt := s.decBitcnt + 1, decCur := BitVec.ofNat 10 t } := by
  have hl : ¬ n.isLeaf = true := fun hl => bne_iff_ne.1 hl h
  exact ⟨if_neg hl, if_neg hl⟩

theorem landed_endMarker (h : n.sym = 256) :
    eventOf n = .eos ∧
      landed t n s = { s with decBitcnt := s.decBitcnt + 1, decCur := s.root, decState := .done } := by
  have hl : n.isLeaf = true := isLeaf_of_sym_ne (h ▸ by decide)
  exact ⟨(if_pos hl).trans (if_pos h), (if_pos hl).trans (if_pos h)⟩

theorem landed_literal (h : n.sym.toNat < 256) :
    eventOf n = .lit (n.sym.setWidth 8) ∧
      landed t n s = { s with decBitcnt := s.decBitcnt + 1, decCur := s.root, decCnt := s.decCnt + 1,
                              decOut := s.decOut ++ [n.sym.setWidth 8] } := by
  have hl : n.isLeaf = true := isLeaf_of_sym_ne fun e => by simp [e] at h
  have he : ¬ n.sym = Config.symEos := fun e => by simp [e, Config.symEos] at h
  exact ⟨(if_pos hl).trans (if_neg he), (if_pos hl).trans (if_neg he)⟩

end

/-! ### `DEC.BIT` -/

section
variable {s : State} {d : Nat}

theorem exec_decBit_illegal (hd : 1 < d) : exec (.decBit d) s = .next (erred 2 s) :=
  badOperandIsErrArgInEveryPhase _ s (decide_eq_false (Nat.not_le.2 hd))

theorem exec_decBit_closed (hd : d ≤ 1) (hrun : s.decState ≠ .run) : exec (.decBit d) s = .next (erred 3 s) := by
  obtain rfl | rfl : d = 0 ∨ d = 1 := by omega
  · exact if_pos hrun
  · exact if_pos hrun

end

/-- Settles O37: the bit lands on the node of `decStep_runs`, and the node's symbol says which of the three events it
is. -/
theorem decBitFollowsTheTree : Obligations.DecBitFollowsTheTree := by
  refine fun s ⟨hft, htree, _, _, _, hdec, _⟩ =>
    ⟨fun _ => exec_decBit_illegal, fun _ => exec_decBit_closed, fun b hrun => ?_⟩
  obtain ⟨r, c, t, n, hr, hc, ht, hn, hstep⟩ := decStep_runs hft htree hdec hrun b
  obtain ⟨T, -⟩ := (htree (hdec hrun).1).isTree hft
  have hexec : exec (.decBit b.toNat) s =
      .next (answered (responseWord .ok (bitPayload (eventOf n))) (landed t n s)) := execDecBit_of_step hrun hstep
  refine ⟨r, c, t, n, hr, hc, ht, hn, T.sym_le hn, fun h => ?_, fun h => ?_, fun h => ?_⟩
  · obtain ⟨hev, hland⟩ := landed_internal (t := t) (s := s) (BitVec.eq_of_toNat_eq h)
    rw [hexec, hev, hland, bitPayload, responseWord_ok_zero]
  · obtain ⟨hev, hland⟩ := landed_endMarker (t := t) (s := s) (BitVec.eq_of_toNat_eq h)
    rw [hexec, hev, hland, responseWord_endMarker]
  · obtain ⟨hev, hland⟩ := landed_literal (t := t) (s := s) h
    rw [hexec, hev, hland, responseWord_literal]

/-! ### `DEC.BYTE` -/

section
variable {s : State} {d : Nat}

theorem exec_decByte_illegal (hd : 255 < d) : exec (.decByte d) s = .next (erred 2 s) :=
  badOperandIsErrArgInEveryPhase _ s (decide_eq_false (Nat.not_le.2 hd))

theorem exec_decByte_closed (hd : d ≤ 255) (hrun : s.decState ≠ .run) : exec (.decByte d) s = .next (erred 3 s) := by
  simp only [exec, execDecByte, byteOf_of_le hd, if_pos hrun, fail_state]

end

/-- Steps leave the response log as it was. -/
theorem Steps.rspLog_eq {bs : List Bool} {s u : State} (h : Steps bs s u) : u.rspLog = s.rspLog := by
  obtain ⟨bc, cur, cnt, st, out, rfl⟩ := h.frame
  rfl

/-- The session is open before each of the bits, also when these are fed by `DEC.BIT` commands. -/
theorem Steps.execBits_open {bs : List Bool} {s u : State} (h : Steps bs s u) {k : Nat} (hk : k < bs.length) :
    ∃ m, execList ((bs.take k).map (fun b => .decBit b.toNat)) s = .next m ∧ m.decState = .run := by
  rw [← List.take_append_drop k bs, List.drop_eq_getElem_cons hk] at h
  obtain ⟨m, hfirst, hrun, -⟩ := h.split
  obtain ⟨rsps, hexec, -⟩ := hfirst.execBits
  exact ⟨_, hexec, hrun⟩

/-- Settles O38: the loop of `DEC.BYTE` and the `DEC.BIT` commands make the same steps. -/
theorem decByteIsUpToEightBits : Obligations.DecByteIsUpToEightBits := by
  refine fun s h => ⟨fun _ => exec_decByte_illegal, fun _ => exec_decByte_closed, fun v hrun => ?_⟩
  obtain ⟨u, c, hfeed, -⟩ := feedBits_inv h (byteBits v) { used := 0, lits := 0 }
  obtain ⟨used, hle, hpos, hsteps, hstop, hused, hlits, -⟩ := feedBits_steps _ hfeed hrun
  obtain ⟨rsps, hbits, -⟩ := hsteps.execBits
  have hdone : u.decState = .run ∨ u.decState = .done := by
    obtain ⟨_, _, _, st, _, rfl, hst⟩ := feedBits_frame _ _ _ _ _ hfeed
    exact hst.imp_left (·.trans hrun)
  refine ⟨used, _, hpos (List.cons_ne_nil _ _), hle, hbits, fun k hk => ?_, ?_, ?_⟩
  · have hopen := hsteps.execBits_open (k := k) (by rwa [List.length_take_of_le hle])
    rwa [List.take_take, min_eq_left hk.le] at hopen
  · exact hstop.imp_right hdone.resolve_left
  · rw [execDecByte_of_feed hrun hfeed, hused, hlits, respond_ok, responseWord_byte, ← hsteps.rspLog_eq,
      Nat.zero_add, Nat.zero_add]
    rfl

end Sys2Proof.Machine
end

section
/-! The round trip (44_decoder.md R231): a session over bytes of the table has its bits, and any block that holds the same
tree decodes them to these bytes. -/

namespace Sys2Proof.Machine

/-! ### Answers along a run -/

theorem execList_singleton {i : Instr} {s t : State} (h : exec i s = .next t) : execList [i] s = .next t :=
  execList_cons_of_next h

theorem answeredOk_trans {s t u : State} {m n : Nat} (h : AnsweredOk s t m) (k : AnsweredOk t u n) :
    AnsweredOk s u (m + n) := by
  obtain ⟨rs, ht, hm, hrs⟩ := h
  obtain ⟨qs, hu, hn, hqs⟩ := k
  exact ⟨rs ++ qs, by rw [hu, ht, List.append_assoc], by rw [List.length_append, hm, hn],
    List.forall_mem_append.2 ⟨hrs, hqs⟩⟩

theorem answeredOk_of_words {s t : State} {rsps : List Word} {w : Word} {n : Nat}
    (h : t.rspLog = s.rspLog ++ rsps ++ [w]) (hlen : rsps.length = n) (hok : ∀ r ∈ rsps, statusOf r = 0)
    (hw : statusOf w = 0) : AnsweredOk s t (n + 1) :=
  ⟨rsps ++ [w], by rw [h, List.append_assoc], by rw [List.length_append, hlen]; rfl,
    List.forall_mem_append.2 ⟨hok, List.forall_mem_singleton.2 hw⟩⟩

theorem answeredOk_answered (s : State) {w : Word} (hw : statusOf w = 0) : AnsweredOk s (answered w s) 1 :=
  ⟨[w], rfl, rfl, List.forall_mem_singleton.2 hw⟩

/-! ### The bits of a session -/

/-- A session over the keys of a tree that holds the end marker has a code for each of them (43_encoder.md R198). -/
theorem IsTree.exists_sessionBits {recs : List FtRec} {nm : Memory Node} (T : IsTree recs nm) {ct : Memory Code}
    (hct : codesOfTree nm (rootOf recs) = .ok ct) (heos : ∃ r ∈ recs, r.sym.toNat = 256) (x : List Byte)
    (hx : ∀ v ∈ x, ∃ r ∈ recs, r.sym.toNat = v.toNat) : ∃ B, sessionBits ct x = some B := by
  have hcode : ∀ k, (∃ r ∈ recs, r.sym.toNat = k) → ∃ c, ct.read k = some c := fun k hk =>
    Option.isSome_iff_exists.1 (Memory.isSome_read_iff.2 ((T.codes_keys hct k).2 (List.mem_map.2 hk)))
  induction x with
  | nil => exact hcode 256 heos
  | cons v x ih =>
    obtain ⟨hv, hx⟩ := List.forall_mem_cons.1 hx
    obtain ⟨c, hc⟩ := hcode v.toNat hv
    obtain ⟨B, hB⟩ := ih hx
    exact ⟨c ++ B, by rw [sessionBits, hc, hB]⟩

/-- A key read at some position is the key of a valid record. -/
theorem State.FtOk.exists_rec {s : State} (h : s.FtOk) {k : Nat}
    (hk : ∃ p r, s.ft.read p = some r ∧ r.sym.toNat = k) : ∃ r ∈ s.recs, r.sym.toNat = k := by
  obtain ⟨p, r, hr, hsym⟩ := hk
  exact ⟨r, List.mem_of_getElem? (h.read p ▸ hr), hsym⟩

/-! ### Decoding -/

/-- What a decode session leaves behind: `x` on the output, the end marker reached, the session's bits and bytes counted,
and no new error (44_decoder.md R231). -/
abbrev Decoded (e f : State) (bits : Nat) (x : List Byte) : Prop :=
  f.decOut = e.decOut ++ x ∧ f.decState = .done ∧ f.err = e.err ∧ f.decBitcnt = BitVec.ofNat 48 bits ∧
    f.decCnt = BitVec.ofNat 48 x.length

/-- The bits of a session over `x` take a freshly opened decode session on the same tree to its end. -/
theorem steps_of_openDecoder {recs : List FtRec} {ct : Memory Code} {e : State} {x : List Byte} {B : List Bool}
    (T : IsTree recs e.nm) (hroot : e.root.toNat = rootOf recs) (hct : codesOfTree e.nm (rootOf recs) = .ok ct)
    (hB : sessionBits ct x = some B) :
    ∃ u, Steps B (answered 0 e.withOpenDecoder) u ∧ Decoded e u B.length x :=
  ⟨_, steps_of_session x (s := answered 0 e.withOpenDecoder) T hroot rfl rfl hct hB, rfl, rfl, rfl,
    BitVec.zero_add _, BitVec.zero_add _⟩

/-- A decode session on the tree, fed the session's bits or the bytes they are packed in, gives the input back. -/
theorem decode_of_sessionBits {recs : List FtRec} {ct : Memory Code} {e : State} {x body : List Byte} {B : List Bool}
    (T : IsTree recs e.nm) (hroot : e.root.toNat = rootOf recs) (hv : e.treeValid = true)
    (hct : codesOfTree e.nm (rootOf recs) = .ok ct) (hB : sessionBits ct x = some B)
    (hlen : body.length = (B.length + 7) / 8) (hpack : PacksTo B body) :
    ∃ e1 e2, execList (.decStart :: B.map (fun b => .decBit b.toNat)) e = .next e1 ∧
      execList (decodeSession body) e = .next e2 ∧
      AnsweredOk e e1 (B.length + 1) ∧ AnsweredOk e e2 (body.length + 1) ∧
      ∀ f, f = e1 ∨ f = e2 → Decoded e f B.length x := by
  obtain ⟨u, hsteps, hdec⟩ := steps_of_openDecoder T hroot hct hB
  obtain ⟨-, hdone, -⟩ := id hdec
  obtain ⟨rs, hbits, hrs, hrsok⟩ := hsteps.execBits
  obtain ⟨qs, hbytes, hqs, hqsok⟩ := decBytes_of_steps body hsteps (by rw [hdone]; decide) hlen hpack
  have hstart := exec_decStart_of_tree hv
  have hopen : AnsweredOk e (answered 0 e.withOpenDecoder) 1 := answeredOk_answered e.withOpenDecoder rfl
  refine ⟨_, _, (execList_cons_of_next hstart).trans hbits, (execList_cons_of_next hstart).trans hbytes, ?_, ?_, ?_⟩
  · rw [Nat.add_comm]
    exact answeredOk_trans hopen ⟨rs, rfl, hrs, hrsok⟩
  · rw [Nat.add_comm]
    exact answeredOk_trans hopen ⟨qs, rfl, hqs, hqsok⟩
  · rintro f (rfl | rfl)
    · exact hdec
    · exact hdec

/-! ### Preparing the two blocks -/

/-- The build of a table that is not empty (41_tree_builder.md R143 to R149). -/
theorem exec_tbBuild_isTree {s : State} (h : s.Inv) (hv : s.treeValid = false) (hrecs : s.recs ≠ []) :
    ∃ nm cnt root w, exec .tbBuild s = .next (answered w (s.withTree nm cnt root)) ∧ statusOf w = 0 ∧
      IsTree s.recs nm ∧ root.toNat = rootOf s.recs := by
  obtain ⟨hft, -⟩ := id h
  have hl : s.ftLen ≠ 0 := fun e => hrecs (List.length_eq_zero_iff.1 (by rw [hft.length_recs, e]; rfl))
  obtain ⟨nm, cnt, root, hexec, htree⟩ := exec_tbBuild_makes_tree h hv hl
  obtain ⟨T, hroot, -⟩ := State.TreeOk.isTree (s := s.withTree nm cnt root) hft htree
  exact ⟨nm, cnt, root, _, hexec, by rw [← responseWord_build, statusOf_responseWord_ok], T, hroot⟩

/-- `s` with the codes of some tree (42_code_table.md R171). -/
def State.withCodes (s : State) (ct : Memory Code) : State := { s with ct := ct, codesValid := true }

/-- The code generation on a live tree (42_code_table.md R171). -/
theorem exec_ctGen_isTree {recs : List FtRec} {s : State} (T : IsTree recs s.nm) (hroot : s.root.toNat = rootOf recs)
    (hv : s.treeValid = true) (hrun : s.encState ≠ .run) :
    ∃ ct w, exec .ctGen s = .next (answered w (s.withCodes ct)) ∧ statusOf w = 0 ∧
      codesOfTree s.nm (rootOf recs) = .ok ct := by
  obtain ⟨ct, hct, -⟩ := T.codesOfTree_ok
  exact ⟨ct, _, exec_ctGen_of_codes hv hrun (hroot ▸ hct), statusOf_low (k := 54) rfl (by decide) _, hct⟩

/-- Settles O40: both blocks hold one tree, whose codes make the session's bits, and the bits of a session are decoded on
that tree by `decode_of_sessionBits`. -/
theorem decodeOfEncodeIsTheInput : Obligations.DecodeOfEncodeIsTheInput := by
  intro c d x hc hd hcv hdv hrun hft hlen heos hx
  obtain ⟨hcft, -⟩ := id hc
  have heos := hcft.exists_rec heos
  have hrecs : c.recs ≠ [] := by
    obtain ⟨r, hr, -⟩ := heos
    exact List.ne_nil_of_mem hr
  have hdrecs : d.recs ≠ [] := by rwa [State.recs, ← hft]
  obtain ⟨nm, cnt, root, w, hbuild, hw, T, hroot⟩ := exec_tbBuild_isTree hc hcv hrecs
  obtain ⟨nm', cnt', root', w', hbuild', hw', -⟩ := exec_tbBuild_isTree hd hdv hdrecs
  obtain ⟨rfl, -, rfl, -⟩ : nm = nm' ∧ cnt = cnt' ∧ root = root' ∧ _ :=
    treeDependsOnlyOnFt c d _ _ hc hd hcv hdv hft hlen hbuild hbuild'
  obtain ⟨ct, q, hgen, hq, hct⟩ :=
    exec_ctGen_isTree (s := answered w (c.withTree nm cnt root)) T hroot rfl hrun
  obtain ⟨B, hB⟩ := T.exists_sessionBits hct heos x fun v hv => hcft.exists_rec (hx v hv)
  obtain ⟨rsps, body, hencode, hrsps, hok, -, hout⟩ := encodeSessionProducesItsBits
    (answered q ((answered w (c.withTree nm cnt root)).withCodes ct)) 0 x B rfl (Nat.zero_le 1) hB
  obtain ⟨hbody, hpack⟩ := hout rfl
  have hfin : statusOf (0#16 ++ BitVec.ofNat 48 B.length) = 0 := statusOf_low (k := 16) rfl (by decide) _
  refine ⟨_, _, _, B, body, (execList_cons_of_next hbuild).trans (execList_singleton hgen), hencode, rfl, rfl, rfl, ?_,
    hbuild', rfl, answeredOk_answered _ hw', ?_⟩
  · rw [show x.length + 4 = 1 + 1 + (x.length + 1 + 1) by omega]
    exact answeredOk_trans (answeredOk_trans (answeredOk_answered (c.withTree nm cnt root) hw)
      (answeredOk_answered (State.withCodes _ ct) hq)) (answeredOk_of_words rfl hrsps hok hfin)
  · rintro e (rfl | rfl)
    · exact decode_of_sessionBits T hroot rfl hct hB hbody hpack
    · exact decode_of_sessionBits T hroot rfl hct hB hbody hpack

end Sys2Proof.Machine
end

section
/-! The system commands (45_system.md): the words of the status registers, written out field by field, and the answers of
`STAT.RD`, `NOP` and `SRST`. -/

namespace Sys2Proof.Machine

/-! ### The status registers -/

/-- The word of ID (10_state.md R40). -/
theorem responseWord_id : responseWord .ok (field 0 Config.idValue) = 0x48544201 := by decide

/-- The word of STATUS (10_state.md R41). -/
theorem responseWord_status (s : State) :
    responseWord .ok (statusRegister s) =
      0#36 ++ s.pkAcc ++ s.pkN ++ BitVec.ofBool s.encDry ++ sessionCode s.decState ++ sessionCode s.encState ++
        BitVec.ofBool s.codesValid ++ BitVec.ofBool s.treeValid ++ s.ftLen := by
  refine responseWord_ok_eq fun i hi => ?_
  simp only [statusRegister, BitVec.getLsbD_or, getLsbD_field, BitVec.getLsbD_append, BitVec.getLsbD_zero]
  grind

/-! ### `STAT.RD` -/

/-- The answer of a register whose word is known (45_system.md R254). -/
theorem exec_statRd_of_word {sel : Nat} {r : StatReg} {s : State} {w : Word} (h : statRegOf sel = some r)
    (hw : responseWord .ok (readStatReg s r) = w) : exec (.statRd sel) s = .next (answered w s) := by
  simp only [exec, execStatRd, h, respond_ok, hw]

theorem exec_statRd_illegal {sel : Nat} (h : 7 < sel) (s : State) : exec (.statRd sel) s = .next (erred 2 s) :=
  badOperandIsErrArgInEveryPhase _ s (decide_eq_false (Nat.not_le.2 h))

/-- Settles O13: STATUS and TREE pack several fields, every other register is one number in the lowest bits. -/
theorem statRdAnswersTheRegister : Obligations.StatRdAnswersTheRegister := by
  refine ⟨⟨rfl, rfl, rfl, rfl⟩, fun s => ⟨?id, ?status, ?err, ?tree, ?encBits, ?decCnt, ?decBits, ?decCur, ?illegal⟩⟩
  case id => exact exec_statRd_of_word rfl responseWord_id
  case status => exact exec_statRd_of_word rfl (responseWord_status s)
  case err => exact exec_statRd_of_word rfl (responseWord_low rfl (by decide) s.err)
  case tree => exact exec_statRd_of_word rfl (responseWord_build s.root s.nodeCnt)
  case encBits => exact exec_statRd_of_word rfl (responseWord_low rfl (by decide) s.encBitcnt)
  case decCnt => exact exec_statRd_of_word rfl (responseWord_low rfl (by decide) s.decCnt)
  case decBits => exact exec_statRd_of_word rfl (responseWord_low rfl (by decide) s.decBitcnt)
  case decCur => exact exec_statRd_of_word rfl (responseWord_low rfl (by decide) s.decCur)
  case illegal => exact fun _ h => exec_statRd_illegal h s

/-! ### `NOP` and `SRST` -/

/-- Settles O11: the command is one `OK` response with a zero payload. -/
theorem nopOnlyAnswersOk : Obligations.NopOnlyAnswersOk := by
  intro s
  calc exec .nop s
      = .next (respond .ok 0 s) := rfl
    _ = .next (answered 0 s) := congrArg _ (respond_ok_zero s)

/-- Settles O12: the block is reset, and the response is appended after it. -/
theorem softResetGivesTheResetState : Obligations.SoftResetGivesTheResetState := by
  intro s
  calc exec .srst s
      = .next (respond .ok 0 (resetBlock s)) := rfl
    _ = .next (answered 0 (resetBlock s)) := congrArg _ (respond_ok_zero (resetBlock s))

end Sys2Proof.Machine
end

section
/-! The checks of a command (60_exceptions.md R271, R273, R274): what an error leaves behind, and which check decides
the status of each command. -/

namespace Sys2Proof.Machine

/-- Settles O7: with no pending event a step takes its first branch. -/
theorem idleBlockKeepsItsState : Obligations.IdleBlockKeepsItsState := by
  intro s hinputs
  simp only [step, hinputs]

/-! ### Errors -/

/-- The command whose response is `w` either ended `OK`, or did what an error of its row does and nothing else. -/
theorem exec_ok_or_error {i : Instr} {s t : State} {w : Word} (h : exec i s = .next t)
    (hw : t.rspLog = s.rspLog ++ [w]) :
    statusOf w = 0 ∨
      ∃ e ∈ possibleErrors i, statusOf w = (statusCode e).toNat ∧ t = fail e (sessionsAfter e s) := by
  rcases exec_cases h with ⟨e, he, rfl, -⟩ | ⟨p, u, rfl, hu⟩
  · obtain rfl := response_eq (u := sessionsAfter e s) rfl hw
    exact .inr ⟨e, he, statusOf_responseWord e 0, rfl⟩
  · obtain rfl := response_eq (effect_rspLog hu) hw
    exact .inl (statusOf_responseWord_ok p)

/-- Settles O44: an error comes from the command's row. -/
theorem statusesOfEachCommand : Obligations.StatusesOfEachCommand := by
  intro i s t w h hw
  obtain hok | ⟨e, he, hcode, -⟩ := exec_ok_or_error h hw
  · exact .inl hok
  · exact .inr ⟨e, he, hcode.symm⟩

theorem statusCode_eq_five_iff (e : Status) : (statusCode e).toNat = 5 ↔ e = .nocode := by cases e <;> decide

theorem statusCode_eq_six_iff (e : Status) : (statusCode e).toNat = 6 ↔ e = .trunc := by cases e <;> decide

/-- `sessionsAfter` in the statements' terms, with the status by its number. -/
theorem sessionsAfter_eq (e : Status) (s : State) : sessionsAfter e s =
    { s with encState := (if (statusCode e).toNat = 5 then .fail else s.encState),
             decState := (if (statusCode e).toNat = 6 then .fail else s.decState) } := by
  cases e <;> rfl

/-- Settles O41: an error is `fail` on the state with its session ended, and its row says which command it is of. -/
theorem anErrorHasNoOtherEffect : Obligations.AnErrorHasNoOtherEffect := by
  intro i s t w h hw hne
  obtain hok | ⟨e, he, hcode, rfl⟩ := exec_ok_or_error h hw
  · exact absurd hok hne
  rw [hcode] at hne ⊢
  have hnotOk : e ≠ .ok := fun heq => hne ((statusCode_eq_zero_iff e).2 heq)
  refine ⟨statusCode_toNat_le e, ?effects, fun h5 => ?nocode, fun h6 => ?trunc⟩
  case effects => rw [fail_eq_erred hnotOk, sessionsAfter_eq]
  case nocode =>
    obtain rfl := (statusCode_eq_five_iff e).1 h5
    exact possibleErrors_nocode he
  case trunc =>
    obtain rfl := (statusCode_eq_six_iff e).1 h6
    exact possibleErrors_trunc he

/-! ### The phase check -/

/-- The phase check comes next: a command with legal operands in a wrong phase does nothing but answer `ERR_STATE`
(60_exceptions.md R273). -/
theorem exec_wrongPhase {i : Instr} {s : State} (hlegal : legalOperands s i = true) (hphase : phaseOk s i = false) :
    exec i s = .next (erred 3 s) := by
  cases i with
  | nop | srst | statRd | ftGet | ctRd | ftRd | nmRd => cases hphase
  | ftClr => exact exec_ftClr_of_tree (by simpa [phaseOk] using hphase)
  | ftPut a d =>
    obtain ⟨ha, hd⟩ : a ≤ 256 ∧ 1 ≤ d := by simpa [legalOperands] using hlegal
    exact exec_ftPut_of_tree ha hd (by simpa [phaseOk] using hphase)
  | tbBuild => exact exec_tbBuild_of_tree (by simpa [phaseOk] using hphase)
  | treeFree => exact exec_treeFree_refused (by simpa [phaseOk, imp_iff_not_or] using hphase)
  | ctGen => exact exec_ctGen_refused (by simpa [phaseOk, imp_iff_not_or] using hphase)
  | encStart m => exact exec_encStart_of_noCodes (of_decide_eq_true hlegal) hphase
  | encPut d => exact exec_encPut_closed (of_decide_eq_true hlegal) (by simpa [phaseOk] using hphase)
  | encFin => exact exec_encFin_closed (by simpa [phaseOk] using hphase)
  | decStart => exact exec_decStart_of_noTree hphase
  | decBit d => exact exec_decBit_closed (of_decide_eq_true hlegal) (by simpa [phaseOk] using hphase)
  | decByte d => exact exec_decByte_closed (of_decide_eq_true hlegal) (by simpa [phaseOk] using hphase)
  | decEof =>
    obtain ⟨hrun, hdone⟩ : s.decState ≠ .run ∧ s.decState ≠ .done := by simpa [phaseOk] using hphase
    apply exec_decEof_closed
    cases hst : s.decState with
    | idle => exact .inl rfl
    | run => exact absurd hst hrun
    | done => exact absurd hst hdone
    | fail => exact .inr rfl

/-! ### The command's own condition -/

/-- A command that passes the operand and phase checks and fails its own condition ends with its own error
(70_reset_and_hazards.md R307, last column). -/
theorem exec_ownError {i : Instr} {s : State} {e : Status} (hlegal : legalOperands s i = true)
    (hphase : phaseOk s i = true) (hown : ownError s i = some e) :
    exec i s = .next (fail e (sessionsAfter e s)) := by
  cases i with
  | tbBuild =>
    obtain ⟨hl, rfl⟩ : s.ftLen = 0 ∧ .empty = e := by simpa [ownError] using hown
    exact exec_tbBuild_of_empty (by simpa [phaseOk] using hphase) hl
  | encPut d =>
    obtain ⟨hc, rfl⟩ : s.ct.read d = none ∧ .nocode = e := by simpa [ownError] using hown
    exact exec_encPut_noCode (of_decide_eq_true hlegal) (by simpa [phaseOk] using hphase) hc
  | encFin =>
    obtain ⟨hc, rfl⟩ : s.ct.read 256 = none ∧ .nocode = e := by simpa [ownError] using hown
    exact exec_encFin_noCode (by simpa [phaseOk] using hphase) hc
  | decEof =>
    obtain ⟨hrun, rfl⟩ : s.decState = .run ∧ .trunc = e := by simpa [ownError] using hown
    exact exec_decEof_open hrun
  | _ => cases hown

/-! ### A command that passes every check -/

theorem exists_statRegOf {sel : Nat} (h : sel ≤ 7) : ∃ r, statRegOf sel = some r := by
  interval_cases sel <;> exact ⟨_, rfl⟩

theorem exists_nodePartOf {sel : Nat} (h : sel ≤ 1) : ∃ part, nodePartOf sel = some part := by
  interval_cases sel <;> exact ⟨_, rfl⟩

/-- The command does its work: it answers `OK`. -/
def CompletesOk (o : Host.Outcome State Fault Refusal) : Prop := ∃ w u, o = .next (answered w u) ∧ statusOf w = 0

theorem completesOk_respond (p : Payload) (u : State) : CompletesOk (.next (respond .ok p u)) :=
  ⟨_, u, rfl, statusOf_responseWord_ok p⟩

/-- A word whose status field is zero is an `OK` response. -/
theorem completesOk_low {k n : Nat} (h : k + n = 64) (hn : n ≤ 56) (v : BitVec n) (u : State) :
    CompletesOk (.next (answered ((0#k ++ v).cast h) u)) :=
  ⟨_, u, rfl, statusOf_low h hn v⟩

/-- A bit fed to an open session is answered `OK`. -/
theorem exec_decBit_completes {s : State} (h : s.Inv) (hrun : s.decState = .run) (b : Bool) :
    CompletesOk (exec (.decBit b.toNat) s) := by
  obtain ⟨hft, htree, -, -, -, hdec, -⟩ := h
  obtain ⟨-, -, t, n, -, -, -, -, hstep⟩ := decStep_runs hft htree hdec hrun b
  rw [execDecBit_of_step hrun hstep]
  exact completesOk_respond _ _

/-- A byte fed to an open session is answered `OK`. -/
theorem exec_decByte_completes {s : State} (h : s.Inv) (hrun : s.decState = .run) (v : Byte) :
    CompletesOk (exec (.decByte v.toNat) s) := by
  obtain ⟨u, c, hfeed, -⟩ := feedBits_inv h (byteBits v) { used := 0, lits := 0 }
  rw [execDecByte_of_feed hrun hfeed]
  exact completesOk_respond _ _

/-- A put of a legal key and count that fits its field, where no tree lives, is answered `OK`. -/
theorem exec_ftPut_completes {s : State} (h : s.FtOk) {a d : Nat} (ha : a ≤ 256) (hd : 1 ≤ d) (hd' : d < 2 ^ 32)
    (hv : s.treeValid = false) : CompletesOk (exec (.ftPut a d) s) := by
  obtain ⟨p, u, hput, -⟩ := ftPut_runs h ((toNat_key ha).trans_le ha) (count_ne_zero hd hd')
  rw [exec_ftPut_of_noTree ha hd hv, hput, finish_ok]
  exact completesOk_respond p u

/-- A command that passes every check does its work, in every state that keeps the invariants. -/
theorem exec_completes {i : Instr} {s : State} (h : s.Inv) (hwf : i.wellFormed = true)
    (hlegal : legalOperands s i = true) (hphase : phaseOk s i = true) (hown : ownError s i = none) :
    CompletesOk (exec i s) := by
  obtain ⟨hft, htree, -⟩ := id h
  cases i with
  | nop => exact completesOk_respond 0 s
  | srst => exact completesOk_respond 0 (resetBlock s)
  | statRd sel =>
    obtain ⟨r, hr⟩ := exists_statRegOf (of_decide_eq_true hlegal)
    rw [exec_statRd_of_word hr rfl]
    exact completesOk_respond _ s
  | ftClr =>
    rw [exec_ftClr_of_noTree (by simpa [phaseOk] using hphase)]
    exact completesOk_respond 0 _
  | ftPut a d =>
    obtain ⟨ha, hd⟩ : a ≤ 256 ∧ 1 ≤ d := by simpa [legalOperands] using hlegal
    obtain ⟨-, hd'⟩ : a < 2 ^ 16 ∧ d < 2 ^ 32 := by simpa [Instr.wellFormed] using hwf
    exact exec_ftPut_completes hft ha hd hd' (by simpa [phaseOk] using hphase)
  | ftGet a =>
    rw [exec_ftGet hft (of_decide_eq_true hlegal)]
    exact completesOk_respond _ s
  | ftRd a =>
    obtain ⟨r, -, hexec⟩ := exec_ftRd hft (of_decide_eq_true hlegal)
    rw [hexec]
    exact completesOk_respond _ s
  | tbBuild =>
    have hl : s.ftLen ≠ 0 := by simpa [ownError] using hown
    obtain ⟨nm, cnt, root, hexec, -⟩ := exec_tbBuild_makes_tree h (by simpa [phaseOk] using hphase) hl
    rw [hexec, ← responseWord_build]
    exact completesOk_respond _ _
  | treeFree =>
    obtain ⟨hv, hrun⟩ : s.treeValid = true ∧ s.decState ≠ .run := by simpa [phaseOk] using hphase
    rw [exec_treeFree_of_tree hv hrun]
    exact completesOk_low (k := 54) rfl (by decide) s.nodeCnt _
  | nmRd sel a =>
    obtain ⟨hsel, ha⟩ : sel ≤ 1 ∧ a < s.nodeCnt.toNat := by simpa [legalOperands] using hlegal
    obtain ⟨part, hpart⟩ := exists_nodePartOf hsel
    obtain ⟨n, hn⟩ := Memory.exists_read_of_range h.nm_indices ha
    rw [exec_nmRd hpart ha hn]
    exact completesOk_respond _ s
  | ctGen =>
    obtain ⟨hv, hrun⟩ : s.treeValid = true ∧ s.encState ≠ .run := by simpa [phaseOk] using hphase
    obtain ⟨T, hroot, -⟩ := (htree hv).isTree hft
    obtain ⟨ct, w, hexec, hw, -⟩ := exec_ctGen_isTree T hroot hv hrun
    exact ⟨w, _, hexec, hw⟩
  | ctRd sel a =>
    obtain ⟨hsel, ha⟩ : sel ≤ 8 ∧ a ≤ 256 := by simpa [legalOperands] using hlegal
    obtain ⟨part, hpart⟩ := exists_codePartOf hsel
    cases hc : s.ct.read a with
    | none =>
      rw [exec_ctRd_absent hpart ha hc]
      exact completesOk_respond 0 s
    | some c =>
      rw [exec_ctRd_present hpart ha hc]
      exact completesOk_respond _ s
  | encStart m =>
    rw [exec_encStart_of_codes (of_decide_eq_true hlegal) hphase]
    exact completesOk_respond 0 _
  | encPut d =>
    obtain ⟨c, hc⟩ : ∃ c, s.ct.read d = some c := by simpa [ownError, Option.ne_none_iff_exists'] using hown
    rw [exec_encPut_code (of_decide_eq_true hlegal) (by simpa [phaseOk] using hphase) hc]
    exact completesOk_low (k := 55) rfl (by decide) _ _
  | encFin =>
    obtain ⟨c, hc⟩ : ∃ c, s.ct.read 256 = some c := by simpa [ownError, Option.ne_none_iff_exists'] using hown
    rw [exec_encFin_code (by simpa [phaseOk] using hphase) hc]
    exact completesOk_low (k := 16) rfl (by decide) _ _
  | decStart =>
    rw [exec_decStart_of_tree hphase]
    exact completesOk_respond 0 _
  | decBit d =>
    have hrun : s.decState = .run := by simpa [phaseOk] using hphase
    obtain rfl | rfl : d = 0 ∨ d = 1 := Nat.le_one_iff_eq_zero_or_eq_one.1 (of_decide_eq_true hlegal)
    · exact exec_decBit_completes h hrun false
    · exact exec_decBit_completes h hrun true
  | decByte d =>
    rw [← toNat_byte (of_decide_eq_true hlegal)]
    exact exec_decByte_completes h (by simpa [phaseOk] using hphase) _
  | decEof =>
    have hrun : s.decState ≠ .run := by simpa [ownError] using hown
    have hdone : s.decState = .done := by simpa [phaseOk, hrun] using hphase
    rw [exec_decEof_done hdone]
    exact completesOk_respond 0 s

/-- The one response of a command that does its work is an `OK`. -/
theorem exec_rspLog_of_completesOk {i : Instr} {s : State} (h : CompletesOk (exec i s)) :
    ∃ t r, exec i s = .next t ∧ t.rspLog = s.rspLog ++ [r] ∧ statusOf r = 0 := by
  obtain ⟨w, u, hexec, hw⟩ := h
  obtain ⟨r, hr⟩ := exec_rspLog hexec
  obtain ⟨-, hwr⟩ := List.append_inj' (show u.rspLog ++ [w] = s.rspLog ++ [r] from hr) rfl
  obtain rfl := List.singleton_inj.1 hwr
  exact ⟨_, w, hexec, hr, hw⟩

/-! ### The order of the checks -/

/-- Settles O53: the word is decoded, and then the command meets its checks in their order. -/
theorem firstFailingCheckDecides : Obligations.FirstFailingCheckDecides := by
  intro s w rest h hinputs
  rw [step_of_inputs_cons hinputs, runEvent_command]
  cases hdec : decode w with
  | illegal why => exact ⟨_, _, runWord_of_decode_illegal hdec _, rfl, statusOf_responseWord .ill 0⟩
  | instr i =>
    rw [runWord_of_decode_instr hdec]
    dsimp only
    cases hlegal : legalOperands s i with
    | false =>
      exact ⟨_, _, badOperandIsErrArgInEveryPhase i { s with inputs := rest } hlegal, rfl,
        statusOf_responseWord .arg 0⟩
    | true =>
      rw [if_neg (by decide)]
      cases hphase : phaseOk s i with
      | false =>
        exact ⟨_, _, exec_wrongPhase (s := { s with inputs := rest }) hlegal hphase, rfl,
          statusOf_responseWord .state 0⟩
      | true =>
        rw [if_neg (by decide)]
        cases hown : ownError s i with
        | some e =>
          exact ⟨_, _, exec_ownError (s := { s with inputs := rest }) hlegal hphase hown, rfl,
            statusOf_responseWord e 0⟩
        | none =>
          exact exec_rspLog_of_completesOk
            (exec_completes (s := { s with inputs := rest }) h (wellFormed_of_decode hdec) hlegal hphase hown)

end Sys2Proof.Machine
end

section
/-! The resets and what they leave (70_reset_and_hazards.md R301, R302, R305), and the phase table as a whole (R307). -/

namespace Sys2Proof.Machine

/-! ### The phase table (R307) -/

/-- Settles O51: with the operands legal the phase check is the next one. -/
theorem wrongPhaseIsErrState : Obligations.WrongPhaseIsErrState :=
  fun _ _ hlegal hphase => exec_wrongPhase hlegal hphase

/-- Settles O52: a command that passes every check does its work, and its one response is an `OK`. -/
theorem acceptedCommandCompletes : Obligations.AcceptedCommandCompletes :=
  fun _ _ h hwf hlegal hphase hown => exec_rspLog_of_completesOk (exec_completes h hwf hlegal hphase hown)

/-! ### Reset during a command (R302) -/

/-- A list that has grown from `l` to `m`, cut `n` elements behind `l`, lies between the two. -/
theorem take_between {α : Type} {l m : List α} (h : l <+: m) (n : Nat) :
    l <+: m.take (l.length + n) ∧ m.take (l.length + n) <+: m ∧
      (m.take (l.length + n)).length = min (l.length + n) m.length :=
  ⟨List.prefix_take_iff.2 ⟨h, Nat.le_add_right _ _⟩, List.take_prefix _ _, List.length_take⟩

theorem runEvent_resetDuring_of_runWord {w : Word} {s t : State} (h : runWord w s = .next t) (nEnc nDec nTap : Nat) :
    runEvent (.resetDuring w nEnc nDec nTap) s = .next (resetMidCommand s t nEnc nDec nTap) := by
  simp only [runEvent, h]

/-- Settles O9: each output log is the one of the command run to its end, cut where the event says, and a command only
appends to the logs. -/
theorem resetDuringCommandDeliversAPrefix : Obligations.ResetDuringCommandDeliversAPrefix := by
  intro s t w nEnc nDec nTap rest hinputs h
  have hrun : runWord w { s with inputs := rest } = .next t := by
    rw [← h, step_of_inputs_cons rfl, runEvent_command]
  obtain ⟨-, henc, hdec, htap⟩ := runWord_logsGrow hrun
  obtain ⟨hencFrom, hencTo, hencLen⟩ := take_between henc nEnc
  obtain ⟨hdecFrom, hdecTo, hdecLen⟩ := take_between hdec nDec
  obtain ⟨htapFrom, htapTo, htapLen⟩ := take_between htap nTap
  refine ⟨resetMidCommand { s with inputs := rest } t nEnc nDec nTap, ?step,
    hencFrom, hencTo, hencLen, hdecFrom, hdecTo, hdecLen, htapFrom, htapTo, htapLen, rfl⟩
  rw [step_of_inputs_cons hinputs, runEvent_resetDuring_of_runWord hrun]

/-! ### The two resets (R301) -/

/-- A reset keeps the logs and the events to come, and nothing else. -/
theorem resetBlock_congr {s u : State} (hrsp : s.rspLog = u.rspLog) (henc : s.encOut = u.encOut)
    (hdec : s.decOut = u.decOut) (htap : s.tapLog = u.tapLog) (hin : s.inputs = u.inputs) :
    resetBlock s = resetBlock u := by
  simp only [resetBlock, hrsp, henc, hdec, htap, hin]

/-- Settles O10: either reset is `resetBlock`, to which blocks with the same logs and events are the same. -/
theorem nothingSurvivesAReset : Obligations.NothingSurvivesAReset := by
  intro s u rest hinputs hin hrsp henc hdec htap
  have hblock : resetBlock { s with inputs := rest } = resetBlock u := resetBlock_congr hrsp henc hdec htap hin.symm
  refine ⟨resetBlock u, ?input, softResetGivesTheResetState u⟩
  rw [← hblock]
  exact resetInputGivesTheResetState s rest hinputs

/-! ### The first command after reset (R305) -/

/-- Legal operands fit their fields; of the count of `FT.PUT` the check sees only that it is not zero. -/
theorem wellFormed_of_legalOperands {i : Instr} {s : State} (h : legalOperands s i = true)
    (hput : ∀ a d, i ≠ .ftPut a d) : i.wellFormed = true := by
  have hft := s.ftLen.isLt
  have hnode := s.nodeCnt.isLt
  cases i with
  | nop | srst | ftClr | tbBuild | treeFree | ctGen | encFin | decStart | decEof => rfl
  | ftPut a d => exact absurd rfl (hput a d)
  | statRd | encStart | ftGet | ftRd | encPut | decBit | decByte | nmRd | ctRd =>
    simp only [legalOperands, Bool.and_eq_true, decide_eq_true_eq] at h
    simp only [Instr.wellFormed, Bool.and_eq_true, decide_eq_true_eq]
    omega

/-- The first put after reset finds no key and has room for one. -/
theorem ftPut_reset (x : Sym) (c : Count) :
    ftPut x c State.reset =
      .ok (respond .ok 0 { State.reset with ft := [(0, { sym := x, count := c })], ftLen := 1 }) := rfl

/-- A first put of a legal key and count does its work, whatever count the 32 bits of its field hold. -/
theorem exec_ftPut_reset_completes {a d : Nat} (h : legalOperands State.reset (.ftPut a d) = true) :
    CompletesOk (exec (.ftPut a d) State.reset) := by
  obtain ⟨ha, hd⟩ : a ≤ 256 ∧ 1 ≤ d := by simpa [legalOperands] using h
  rw [exec_ftPut_of_noTree ha hd rfl, ftPut_reset, finish_ok]
  exact completesOk_respond 0 _

/-- Settles O54: the checks of R273, on a state with no tree, no codes, no session and an empty table. The phase refuses
the commands that need one of the first three, and `TB.BUILD` alone then fails a condition of its own. -/
theorem resetStateAnswers : Obligations.ResetStateAnswers := by
  intro i
  cases hlegal : legalOperands State.reset i with
  | false => exact ⟨_, _, badOperandIsErrArgInEveryPhase i _ hlegal, rfl, statusOf_responseWord .arg 0⟩
  | true =>
    rw [if_neg (by decide)]
    cases i with
    | nop | srst | statRd | ftClr | ftGet | ctRd =>
      exact exec_rspLog_of_completesOk
        (exec_completes resetKeepsTheInvariants (wellFormed_of_legalOperands hlegal nofun) hlegal rfl rfl)
    | ftPut a d => exact exec_rspLog_of_completesOk (exec_ftPut_reset_completes hlegal)
    | ftRd | nmRd => simp [legalOperands, State.reset] at hlegal
    | tbBuild => exact ⟨_, _, exec_ownError hlegal rfl rfl, rfl, statusOf_responseWord .empty 0⟩
    | treeFree | ctGen | encStart | encPut | encFin | decStart | decBit | decByte | decEof =>
      exact ⟨_, _, exec_wrongPhase hlegal rfl, rfl, statusOf_responseWord .state 0⟩

end Sys2Proof.Machine
end
